-- ==== Sys2Proof/Word.lean ====
section
/-! DEFINITION. The block's two bit-vector types: a register or command word (`REGW = 32`, R5) and a byte of data memory (R6). -/

namespace Sys2Proof

/-- A register or command word: `REGW = 32` bits (00_scope.md R5). -/
abbrev Word := BitVec 32

/-- A byte is 8 bits (00_scope.md R6). -/
abbrev Byte := BitVec 8

end Sys2Proof
end

