-- ==== Sys2Proof/Config.lean ====
section
/-! DEFINITION. What an implementation fixes (the OPEN parameters of 00_scope.md R5) and the free values: values the
spec leaves open ("any value", 93_implementation_defined.md U3 to U5), which are constants with no body. -/

namespace Sys2Proof

/-- `PLANE_ORDER`, the map pi of R5: `planeK` is the byte plane that holds byte `K` of the big-endian 32-bit word
(`K = 0` the most significant). A legal order is a permutation (`PlaneOrder.wf`). -/
structure PlaneOrder where
  plane0 : Fin 4
  plane1 : Fin 4
  plane2 : Fin 4
  plane3 : Fin 4
  deriving DecidableEq, Repr

/-- pi as a function on byte numbers; only 0 to 3 are ever asked for. -/
def PlaneOrder.plane (p : PlaneOrder) : Nat → Nat
  | 0 => p.plane0.val
  | 1 => p.plane1.val
  | 2 => p.plane2.val
  | _ => p.plane3.val

/-- The default of R5: plane `k` holds byte `k`. -/
def PlaneOrder.identity : PlaneOrder := ⟨0, 1, 2, 3⟩

/-- The OPEN parameters of R5. They are arguments of the step relation (R39), carried unchanged in the state
(assumption log 3). -/
structure Params where
  /-- `MEMSIZE`: data addresses [0, MEMSIZE) exist. -/
  memSize : Nat
  /-- `LANES`: how many row engines the prediction unit has. -/
  lanes : Nat
  /-- `PLANE_ORDER`. -/
  planeOrder : PlaneOrder
  /-- `PLANE_CARRY`: whether one delta chain runs through all four planes of a row. -/
  planeCarry : Bool
  /-- `REGBASE`: where the platform shows the host the register window; the block never uses it. -/
  regBase : Nat
  deriving DecidableEq, Repr

/-- The platform address of the register at window offset `off` (R5, R28). -/
def Params.hostAddress (p : Params) (off : Nat) : Nat := p.regBase + off

/-- How an `RLEDEC` whose regions the host disturbed may end: with none of its errors or with any of them (R65). -/
inductive RleEnd where
  | ok
  | malformed (row pos : Word)
  | corrupt (row pos : Word)
  | range
  deriving DecidableEq, Repr, Inhabited

namespace Config

/-- FREE VALUE. The byte drawn for the `n`-th unspecified byte of a run (R65, R189, R212; assumption log 5). -/
opaque freeByte : Nat → Byte

/-- FREE VALUE. How the `n`-th draw makes an `RLEDEC` end after a breach of ownership (R65; assumption log 6). -/
opaque freeRleEnd : Nat → RleEnd

end Config

end Sys2Proof
end

