-- ==== Sys2Proof/Syntax.lean ====
section
/-! DEFINITION. What the block decodes: the sixteen commands of 30_encoding.md R82 and the three RLE packets of R88,
one constructor per row of spec/opcode_table.json, and the packet part of the assembler language (R93). -/

namespace Sys2Proof

/-- The four bit depths (R83). -/
inductive Depth where
  | d1
  | d8
  | d16
  | d32
  deriving DecidableEq, Repr

/-- The instructions: a command takes its operands from the latched registers (R81), a packet carries the count field
`C7` of its header byte (R86); a packet's data bytes stay in the source stream. -/
inductive Instr where
  | rledec1
  | rledec8
  | rledec16
  | rledec32
  | swap1
  | swap8
  | swap16
  | swap32
  | unpred1
  | unpred8
  | unpred16
  | unpred32
  | pred1
  | pred8
  | pred16
  | pred32
  | nop
  | lit (c7 : BitVec 7)
  | rpt (c7 : BitVec 7)
  deriving DecidableEq, Repr

/-- The three packet kinds as the RLE decoder sees them (R88). -/
inductive Packet where
  | nop
  | lit (c7 : BitVec 7)
  | rpt (c7 : BitVec 7)
  deriving DecidableEq, Repr

/-- A packet is an instruction. -/
def Packet.instr : Packet → Instr
  | .nop => .nop
  | .lit c7 => .lit c7
  | .rpt c7 => .rpt c7

/-- `RLEDEC.d`. -/
def Instr.rledec : Depth → Instr
  | .d1 => .rledec1
  | .d8 => .rledec8
  | .d16 => .rledec16
  | .d32 => .rledec32

/-- `SWAP.d`. -/
def Instr.swap : Depth → Instr
  | .d1 => .swap1
  | .d8 => .swap8
  | .d16 => .swap16
  | .d32 => .swap32

/-- `UNPRED.d`. -/
def Instr.unpred : Depth → Instr
  | .d1 => .unpred1
  | .d8 => .unpred8
  | .d16 => .unpred16
  | .d32 => .unpred32

/-- `PRED.d`. -/
def Instr.pred : Depth → Instr
  | .d1 => .pred1
  | .d8 => .pred8
  | .d16 => .pred16
  | .d32 => .pred32

/-- A packet as the assembler writes it, data bytes and all (R93). -/
inductive SrcPacket where
  | nop
  | lit (data : List Byte)
  | rpt (count : Nat) (data : Byte)
  deriving DecidableEq, Repr

/-- The two kinds of coded unit (R80): the word written to `CMD`, or the header byte of a packet. -/
inductive Coded where
  | command (w : Word)
  | header (h : Byte)
  deriving DecidableEq, Repr

end Sys2Proof
end

