-- ==== Sys2Proof/WellFormed.lean ====
section
/-! DEFINITION. The checks on syntax: a repeat packet's count field is not 0 (that header is `NOP`, R88), an assembled
packet's length is one the assembler can write (R93), and the parameters are in the ranges of R5. -/

namespace Sys2Proof

/-- `RPT` has `C7 != 0`: header 0x80 is the no-op marker (R87, R88). Every other instruction is well formed. -/
def Instr.wf : Instr → Bool
  | .rpt c7 => c7 != 0#7
  | .rledec1 | .rledec8 | .rledec16 | .rledec32 => true
  | .swap1 | .swap8 | .swap16 | .swap32 => true
  | .unpred1 | .unpred8 | .unpred16 | .unpred32 => true
  | .pred1 | .pred8 | .pred16 | .pred32 => true
  | .nop | .lit _ => true

/-- `LIT` takes 1 to 128 byte values, `RPT c, b` takes `c` in 2 to 128 (R93). -/
def SrcPacket.wf : SrcPacket → Bool
  | .nop => true
  | .lit data => decide (1 ≤ data.length) && decide (data.length ≤ 128)
  | .rpt count _ => decide (2 ≤ count) && decide (count ≤ 128)

/-- `PLANE_ORDER` is a permutation of the four planes (R5). -/
def PlaneOrder.wf (p : PlaneOrder) : Bool :=
  p.plane0 != p.plane1 && p.plane0 != p.plane2 && p.plane0 != p.plane3 &&
  p.plane1 != p.plane2 && p.plane1 != p.plane3 && p.plane2 != p.plane3

/-- The ranges of R5: `0 < MEMSIZE <= 2^32`, `LANES >= 1`, `PLANE_ORDER` a permutation. -/
def Params.wf (p : Params) : Bool :=
  decide (0 < p.memSize) && decide (p.memSize ≤ 2 ^ 32) && decide (1 ≤ p.lanes) && p.planeOrder.wf

end Sys2Proof
end

