-- ==== Sys2Proof/Decode.lean ====
section
/-! DEFINITION. The decoder of the two coded units (30_encoding.md), total and rejecting by name, and after it the
encoder, written from the opcode map of R82 and the packet map of R88. -/

namespace Sys2Proof

/-- Why a command word is reserved (R84). -/
inductive Reject where
  /-- `RSV`, bits 31:6, is not 0. -/
  | reservedBits
  /-- `OPC` is 0 or 5 to 15. -/
  | reservedOpc
  deriving DecidableEq, Repr

/-- `OPC`, bits 3:0 of a command word (R81). -/
def opcField (w : Word) : BitVec 4 := w.extractLsb' 0 4

/-- `DSEL`, bits 5:4 (R81). -/
def dselField (w : Word) : BitVec 2 := w.extractLsb' 4 2

/-- `RSV`, bits 31:6 (R81). -/
def rsvField (w : Word) : BitVec 26 := w.extractLsb' 6 26

/-- `depth(DSEL)` (R83). -/
def depthOf (dsel : BitVec 2) : Depth :=
  if dsel = 0#2 then .d1 else if dsel = 1#2 then .d8 else if dsel = 2#2 then .d16 else .d32

/-- The command a word spells (R82), or why it is reserved (R84). -/
def decodeCommand (w : Word) : Except Reject Instr :=
  if rsvField w ≠ 0#26 then .error .reservedBits
  else if opcField w = 1#4 then .ok (.rledec (depthOf (dselField w)))
  else if opcField w = 2#4 then .ok (.swap (depthOf (dselField w)))
  else if opcField w = 3#4 then .ok (.unpred (depthOf (dselField w)))
  else if opcField w = 4#4 then .ok (.pred (depthOf (dselField w)))
  else .error .reservedOpc

/-- `K`, bit 7 of a packet header (R86). -/
def kindBit (h : Byte) : Bool := h.getLsbD 7

/-- `C7`, bits 6:0 of a packet header (R86). -/
def countField (h : Byte) : BitVec 7 := h.extractLsb' 0 7

/-- The packet a header byte begins; the no-op marker is tested first (R88). Every header has one (R88). -/
def decodePacket (h : Byte) : Packet :=
  if h = 0x80#8 then .nop
  else if kindBit h = false then .lit (countField h)
  else .rpt (countField h)

/-- The decoder of either coded unit (R80). -/
def decode : Coded → Except Reject Instr
  | .command w => decodeCommand w
  | .header h => .ok (decodePacket h).instr

/-- The header byte of a packet: `K` over `C7` (R86). -/
def encodePacket : Packet → Byte
  | .nop => 0x80#8
  | .lit c7 => 0#1 ++ c7
  | .rpt c7 => 1#1 ++ c7

/-- The encoder: the words of R82, the headers of R88. -/
def encode : Instr → Coded
  | .rledec1 => .command 0x00000001#32
  | .rledec8 => .command 0x00000011#32
  | .rledec16 => .command 0x00000021#32
  | .rledec32 => .command 0x00000031#32
  | .swap1 => .command 0x00000002#32
  | .swap8 => .command 0x00000012#32
  | .swap16 => .command 0x00000022#32
  | .swap32 => .command 0x00000032#32
  | .unpred1 => .command 0x00000003#32
  | .unpred8 => .command 0x00000013#32
  | .unpred16 => .command 0x00000023#32
  | .unpred32 => .command 0x00000033#32
  | .pred1 => .command 0x00000004#32
  | .pred8 => .command 0x00000014#32
  | .pred16 => .command 0x00000024#32
  | .pred32 => .command 0x00000034#32
  | .nop => .header (encodePacket .nop)
  | .lit c7 => .header (encodePacket (.lit c7))
  | .rpt c7 => .header (encodePacket (.rpt c7))

/-- `word(OP.d)` of R92: the command word of an instruction, 0 for a packet, which has none. -/
def commandWord (i : Instr) : Word :=
  match encode i with
  | .command w => w
  | .header _ => 0#32

/-- The bytes an assembled packet puts into the source stream (R93): header `k` and the bytes for `LIT` of `k + 1`
bytes, header `257 - c` and the byte for `RPT c, b`, `80` for `NOP`. -/
def SrcPacket.assemble : SrcPacket → List Byte
  | .nop => [0x80#8]
  | .lit data => BitVec.ofNat 8 (data.length - 1) :: data
  | .rpt count b => [BitVec.ofNat 8 (257 - count), b]

/-- The bytes an assembled packet produces (R87, R93). -/
def SrcPacket.produced : SrcPacket → List Byte
  | .nop => []
  | .lit data => data
  | .rpt count b => List.replicate count b

/-- The instruction read from the low `nbits` bits of `w` (the host's interface): a command word has 32 bits, a packet
header 8. -/
def decodeTableWord (nbits w : Nat) : Option Instr :=
  if nbits = 8 then (decode (.header (BitVec.ofNat 8 w))).toOption
  else if nbits = 32 then (decode (.command (BitVec.ofNat 32 w))).toOption
  else none

end Sys2Proof
end

