-- ==== Sys2Proof/Machine/State.lean ====
section
/-! DEFINITION. The machine's state as plain data (10_state.md R20), the events of the host (70_reset_and_hazards.md
R221), the reasons a step can stop, and the state after reset (R40, R211). -/

namespace Sys2Proof.Machine

/-- Why the machine stops with a fault. -/
inductive Fault where
  /-- Raised by a host access to data memory, by a packet and by a lane turn: no byte exists at address `a`
  (`a >= MEMSIZE`, 20_memory.md R51). A command never raises it (R58), nor does a packet or a lane turn in a state that
  meets the stream and item invariants. Safe: the model stops where the spec says there is nothing. -/
  | noSuchAddress (a : Nat)
  deriving DecidableEq, Repr

/-- Why the machine refuses. -/
inductive Refusal where
  /-- Raised by an arm of `exec` whose instruction has no meaning yet; there is none left. Safe. -/
  | notModelled (mnemonic : String)
  /-- Raised by a host register access that is not an aligned 32-bit one: "unspecified, and a model refuses it"
  (10_state.md R27, 93_implementation_defined.md U6). Safe. -/
  | registerAccessSize (off size : Nat)
  deriving DecidableEq, Repr

/-- The answer of one step. -/
abbrev Answer (σ : Type) := Host.Outcome σ Fault Refusal

/-- The latched operands `op = (word, B, W, H, S, L)` of the running command (R30, R113). -/
structure Op where
  word : Word
  base : Word
  width : Word
  height : Word
  src : Word
  srclen : Word
  deriving DecidableEq, Repr

/-- Where the sequencer stands (R29): `IDLE`, or `RUNNING` at the start checks (R115), in the body of `RLEDEC` (R131),
or in the rows of a prediction command or the samples of a swap (R38, R156). -/
inductive Phase where
  | idle
  | start
  | stream
  | items
  deriving DecidableEq, Repr

/-- The variables of the `RLEDEC` body (R33, R34, R131): stream offset, row, bytes produced for the row, row length. -/
structure Cursor where
  sp : Nat
  row : Nat
  out : Nat
  rb : Nat
  deriving DecidableEq, Repr

/-- The data memory and the staging copy: (address, byte) pairs, addresses strictly rising, no pair equal to what an
unlisted address reads as (`Memory.wf`). -/
abbrev Memory := List Host.Cell

/-- One busy row engine (R35, R36, R38): the row (for `SWAP`, the sample) it works on, how many byte operations of that
row's loop it has done (its column cursor), and its staging copy `T`. -/
structure Lane where
  item : Nat
  pos : Nat
  stage : Memory
  deriving DecidableEq, Repr

/-- A region a command reads or writes (R57). -/
structure Region where
  start : Nat
  len : Nat
  written : Bool
  deriving DecidableEq, Repr

/-- The regions of one accepted command (R57), which belong to the block until the host has observed that this command is
over (R65). -/
structure Claim where
  regions : List Region
  deriving DecidableEq, Repr

/-- One move of the host, or a moment the host leaves to the block (R221). -/
inductive Event where
  /-- `RD`: a register read of `size` bytes at window offset `off` (R110). -/
  | rd (off size : Nat)
  /-- `WR`: a register write (R111). -/
  | wr (off size : Nat) (v : Word)
  /-- The host looks at the `irq` line (R32, R67). -/
  | irq
  /-- The host reads a byte of data memory (R50). -/
  | memRd (a : Nat)
  /-- The host writes a byte of data memory (R50). -/
  | memWr (a : Nat) (v : Byte)
  /-- `rst` is asserted and released (R210). -/
  | rst
  /-- The host lets the block take its next step. -/
  | block
  /-- The block takes one turn of its body: lane `lane` moves, and takes the `pick`-th waiting row if it is free
  (the free schedule of R38). -/
  | turn (lane pick : Nat)
  /-- `WAIT` (R91), after which the next `skip` events are dropped if the command ended in error (R94). -/
  | wait (skip : Nat)
  deriving DecidableEq, Repr

/-- What the last read of the host was answered. -/
inductive Reply where
  | none
  | word (v : Word)
  | byte (b : Byte)
  | line (l : Bool)
  deriving DecidableEq, Repr

/-- The whole state (R20), with the parameters (R5) and the model's own fields at the end. -/
structure State where
  /-- The parameters; no step changes them (assumption log 3). -/
  params : Params
  /-- Data memory `M` (R41). -/
  mem : Memory
  /-- `BASE`, `x[0]` (R21). -/
  base : Word
  /-- `WIDTH`, `x[1]` (R21). -/
  width : Word
  /-- `HEIGHT`, `x[2]` (R21). -/
  height : Word
  /-- `SRC`, `x[3]` (R21). -/
  src : Word
  /-- `SRCLEN`, `x[4]` (R21). -/
  srclen : Word
  /-- `CMD` (R22). -/
  cmd : Word
  /-- `STATUS.DONE` (R23). -/
  done : Bool
  /-- `STATUS.ERRV` (R23). -/
  errv : Bool
  /-- `STATUS.REJ` (R23). -/
  rej : Bool
  /-- `STATUS.ECODE` (R23). -/
  ecode : BitVec 4
  /-- `IEN.IE` (R24). -/
  ie : Bool
  /-- `EROW` (R25). -/
  erow : Word
  /-- `EPOS` (R26). -/
  epos : Word
  /-- The sequencer (R29); `STATUS.BUSY` is 1 exactly when it is not idle. -/
  phase : Phase
  /-- The latched operands (R30). -/
  op : Op
  /-- The cursors of `RLEDEC` (R33, R34); all 0 while no stream runs. -/
  cur : Cursor
  /-- The rows (samples) no lane has taken yet (R38); empty outside a command. -/
  todo : List Nat
  /-- The lanes, a free lane being `none` (R38); empty outside a command. -/
  lanes : List (Option Lane)
  /-- What belongs to the block (R65): one claim for each command from its accepted `CMD` write until `BUSY = 0` is
  observed for it, oldest first; the claim of a running command is the last (assumption log 9). -/
  owned : List Claim
  /-- The host wrote a byte of the running command's own regions (R65). -/
  breach : Bool
  /-- MODEL's own: the coming moves of the host, oldest first (assumption log 1). -/
  inputs : List Event
  /-- MODEL's own: what the last host read was answered. -/
  reply : Reply
  /-- MODEL's own: how many free values have been drawn (assumption log 5). -/
  draws : Nat
  deriving DecidableEq, Repr

/-- The cursors outside a command, where they do not exist (R211). -/
def Cursor.absent : Cursor := ⟨0, 0, 0, 0⟩

/-- The operand latch before the first accepted `CMD` write: unspecified and never read (R40; assumption log 7). -/
def Op.unset : Op := ⟨0#32, 0#32, 0#32, 0#32, 0#32, 0#32⟩

/-- The parameters of `State.reset`: the defaults of R5 where it gives one, `MEMSIZE = 0x10000` as in
95_test_vectors.md, one lane (assumption log 3). -/
def defaultParams : Params := ⟨0x10000, 1, PlaneOrder.identity, false, 0⟩

/-- The reset state of a block with the given parameters and memory contents (R40, R211): every register 0, `IDLE`. -/
def State.resetWith (p : Params) (m : Memory) : State :=
  { params := p, mem := m
    base := 0#32, width := 0#32, height := 0#32, src := 0#32, srclen := 0#32
    cmd := 0#32, done := false, errv := false, rej := false, ecode := 0#4, ie := false
    erow := 0#32, epos := 0#32
    phase := .idle, op := Op.unset, cur := Cursor.absent, todo := [], lanes := []
    owned := [], breach := false
    inputs := [], reply := .none, draws := 0 }

/-- The machine right after reset, with the default parameters and nothing written to memory (R40, R211). -/
def State.reset : State := State.resetWith defaultParams []

end Sys2Proof.Machine
end

