-- ==== Sys2Proof/Machine/Operands.lean ====
section
/-! DEFINITION. The operands of a command: sizes (00_scope.md R8), the values latched in `op` (R113), range and overlap
checks (20_memory.md R58, R59) and the regions of each command (R57). All of it in unbounded integers (R56). -/

namespace Sys2Proof.Machine

/-- `rowbytes(d, w)`, the byte length of one row of `w` samples (R8); at depth 1 `ceil(w/8)`. -/
def rowBytes : Depth → Nat → Nat
  | .d1, w => (w + 7) / 8
  | .d8, w => w
  | .d16, w => 2 * w
  | .d32, w => 4 * w

/-- `planebytes(d, w, h)`, the byte length of a sample buffer (R8). -/
def planeBytes (d : Depth) (w h : Nat) : Nat := h * rowBytes d w

/-- `B`, the latched `BASE` (R113). -/
def Op.B (o : Op) : Nat := o.base.toNat

/-- `W`, the latched `WIDTH` (R113). -/
def Op.W (o : Op) : Nat := o.width.toNat

/-- `H`, the latched `HEIGHT` (R113). -/
def Op.H (o : Op) : Nat := o.height.toNat

/-- `S`, the latched `SRC` (R113). -/
def Op.S (o : Op) : Nat := o.src.toNat

/-- `L`, the latched `SRCLEN` (R113). -/
def Op.L (o : Op) : Nat := o.srclen.toNat

/-- `planebytes(d, W, H)` of the latched operands: the length of the buffer region (R57). -/
def Op.bufferBytes (o : Op) (d : Depth) : Nat := planeBytes d o.W o.H

/-- `in_range(a, k)` (R58, R117). -/
def inRange (memSize a k : Nat) : Bool := decide (k = 0) || decide (a + k ≤ memSize)

/-- `overlap(S, L, B, n)` (R59, R117). -/
def overlap (S L B n : Nat) : Bool :=
  decide (0 < L) && decide (0 < n) && decide (S < B + n) && decide (B < S + L)

/-- The start check of a command with one region, the buffer (R117). -/
def bufferFits (memSize : Nat) (d : Depth) (o : Op) : Bool := inRange memSize o.B (o.bufferBytes d)

/-- The start checks of `RLEDEC.d`: buffer region, source region, overlap (R117). -/
def rleFits (memSize : Nat) (d : Depth) (o : Op) : Bool :=
  inRange memSize o.B (o.bufferBytes d) && inRange memSize o.S o.L && !overlap o.S o.L o.B (o.bufferBytes d)

/-- The buffer region as a written region (R57). -/
def Op.buffer (o : Op) (d : Depth) : Region := ⟨o.B, o.bufferBytes d, true⟩

/-- The regions a command accesses (R57); a reserved word, `UNPRED.1`, `PRED.1` and the pass-through swaps have none. -/
def Op.regions (o : Op) : List Region :=
  match decodeCommand o.word with
  | .ok .rledec1 => [⟨o.S, o.L, false⟩, o.buffer .d1]
  | .ok .rledec8 => [⟨o.S, o.L, false⟩, o.buffer .d8]
  | .ok .rledec16 => [⟨o.S, o.L, false⟩, o.buffer .d16]
  | .ok .rledec32 => [⟨o.S, o.L, false⟩, o.buffer .d32]
  | .ok .swap16 => [o.buffer .d16]
  | .ok .swap32 => [o.buffer .d32]
  | .ok .unpred8 => [o.buffer .d8]
  | .ok .unpred16 => [o.buffer .d16]
  | .ok .unpred32 => [o.buffer .d32]
  | .ok .pred8 => [o.buffer .d8]
  | .ok .pred16 => [o.buffer .d16]
  | .ok .pred32 => [o.buffer .d32]
  | _ => []

/-- Whether address `a` lies in a region. -/
def Region.contains (r : Region) (a : Nat) : Bool := decide (r.start ≤ a) && decide (a < r.start + r.len)

/-- Whether address `a` belongs to a command (R65). -/
def Claim.contains (c : Claim) (a : Nat) : Bool := c.regions.any (fun r => r.contains a)

/-- Whether address `a` lies in a command's written region (R57). -/
def Claim.writes (c : Claim) (a : Nat) : Bool := c.regions.any (fun r => r.written && r.contains a)

/-- Whether address `x` belongs to a command of the list that does not own `a` (R65). -/
def claimedApartFrom (cs : List Claim) (a x : Nat) : Bool := cs.any (fun c => !c.contains a && c.contains x)

end Sys2Proof.Machine
end

