-- ==== Sys2Proof/Machine/Flags.lean ====
section
/-! DEFINITION. The status register and the interrupt line (10_state.md R23, R32; 60_exceptions.md R181). The block has
no arithmetic flags (R31). -/

namespace Sys2Proof.Machine

/-- The four errors (R181). -/
inductive ErrorKind where
  | malformedChannelData
  | corruptCompressedStream
  | unsupportedCombination
  | rangeError
  deriving DecidableEq, Repr

/-- The value of `STATUS.ECODE` for an error (R181). -/
def ErrorKind.code : ErrorKind → BitVec 4
  | .malformedChannelData => 1#4
  | .corruptCompressedStream => 2#4
  | .unsupportedCombination => 3#4
  | .rangeError => 4#4

/-- `STATUS.BUSY`: 1 exactly in `RUNNING` (R29). -/
def State.busy (s : State) : Bool := decide (s.phase ≠ .idle)

/-- `STATUS` as the host reads it (R23): `ECODE` in bits 7:4, then `REJ`, `ERRV`, `DONE`, `BUSY`; bits 31:8 read 0. -/
def State.statusWord (s : State) : Word :=
  0#24 ++ s.ecode ++ BitVec.ofBool s.rej ++ BitVec.ofBool s.errv ++ BitVec.ofBool s.done ++ BitVec.ofBool s.busy

/-- `IEN` as the host reads it: `IE` in bit 0, the rest 0 (R24). -/
def State.ienWord (s : State) : Word := 0#31 ++ BitVec.ofBool s.ie

/-- The interrupt output, `irq = IEN.IE and STATUS.DONE` (R32). -/
def State.irq (s : State) : Bool := s.ie && s.done

/-- `WR STATUS, v`: write-1-to-clear; `ERRV` (with `ECODE`) only while `BUSY = 0` (R120, R190). -/
def State.writeStatus (s : State) (v : Word) : State :=
  { s with
    done := s.done && !v.getLsbD 1
    errv := s.errv && !(v.getLsbD 2 && !s.busy)
    ecode := if v.getLsbD 2 && !s.busy then 0#4 else s.ecode
    rej := s.rej && !v.getLsbD 3 }

end Sys2Proof.Machine
end

