-- ==== Sys2Proof/Machine/Ops.lean ====
section
/-! DEFINITION. The named operations: bytes of data memory (00_scope.md R7), the free bytes of an unspecified region, the
two completion events (40_command.md R119, 60_exceptions.md R186), accepting and rejecting a command (R112, R114), reset
(70_reset_and_hazards.md R210, R212). -/

namespace Sys2Proof.Machine

/-- What an unlisted byte of data memory reads as. DESIGN CHOICE (assumption log 4): the spec leaves the contents at
power-up unspecified (R41). -/
def unlistedByte : Byte := 0x00#8

/-- `M[a]` (R7). -/
def Memory.read : Memory → Nat → Byte
  | [], _ => unlistedByte
  | c :: m, a => if c.1 = a then c.2 else Memory.read m a

/-- Lists `v` at `a` among cells with rising addresses. -/
def Memory.insert : Memory → Nat → Byte → Memory
  | [], a, v => [(a, v)]
  | c :: m, a, v =>
    if a < c.1 then (a, v) :: c :: m
    else if a = c.1 then (a, v) :: m
    else c :: Memory.insert m a v

/-- `M[a] <- v` (R7): a byte equal to what an unlisted address reads as is not listed. -/
def Memory.write (m : Memory) (a : Nat) (v : Byte) : Memory :=
  if v = unlistedByte then m.filter (fun c => decide (c.1 ≠ a)) else Memory.insert m a v

/-- The canonical form: addresses strictly rising, no cell equal to what an unlisted address reads as. -/
def Memory.wf : Memory → Bool
  | [] => true
  | c :: m => c.2 != unlistedByte && m.all (fun d => decide (c.1 < d.1)) && Memory.wf m

/-- Every listed address exists (R51). -/
def Memory.within (memSize : Nat) (m : Memory) : Bool := m.all (fun c => decide (c.1 < memSize))

/-- `MemRead(a, 2)`: the 16-bit value with its low byte at `a` (R7, R52). -/
def Memory.read16 (m : Memory) (a : Nat) : BitVec 16 := Memory.read m (a + 1) ++ Memory.read m a

/-- `MemWrite(a, 2, v)` (R7). -/
def Memory.write16 (m : Memory) (a : Nat) (v : BitVec 16) : Memory :=
  Memory.write (Memory.write m a (v.extractLsb' 0 8)) (a + 1) (v.extractLsb' 8 8)

/-- `MemRead(a, 4)` (R7, R9). -/
def Memory.read32 (m : Memory) (a : Nat) : BitVec 32 :=
  Memory.read m (a + 3) ++ Memory.read m (a + 2) ++ Memory.read m (a + 1) ++ Memory.read m a

/-- Copies `n` bytes upward, one after the other (the literal loop of R131). -/
def Memory.copy : Memory → (src dst n : Nat) → Memory
  | m, _, _, 0 => m
  | m, src, dst, n + 1 => Memory.copy (Memory.write m dst (Memory.read m src)) (src + 1) (dst + 1) n

/-- Writes `n` bytes `v` upward (the repeat loop of R131). -/
def Memory.fill : Memory → (v : Byte) → (dst n : Nat) → Memory
  | m, _, _, 0 => m
  | m, v, dst, n + 1 => Memory.fill (Memory.write m dst v) v (dst + 1) n

/-- Gives `n` bytes from `a` upward free values, the draws `d`, `d + 1`, ..., but for the bytes `keep` names. -/
def Memory.fillFree (keep : Nat → Bool) : Memory → (a n d : Nat) → Memory
  | m, _, 0, _ => m
  | m, a, n + 1, d =>
    Memory.fillFree keep (if keep a then m else Memory.write m a (Config.freeByte d)) (a + 1) n (d + 1)

/-- The existing bytes of `[a, a + n)` that `keep` does not name become unspecified: any value, byte by byte. -/
def State.havocBut (s : State) (keep : Nat → Bool) (a n : Nat) : State :=
  { s with
    mem := Memory.fillFree keep s.mem a (min n (s.params.memSize - a)) s.draws
    draws := s.draws + min n (s.params.memSize - a) }

/-- The existing bytes of `[a, a + n)` become unspecified (R65, R189, R212). -/
def State.havoc (s : State) (a n : Nat) : State := s.havocBut (fun _ => false) a n

/-- `havocBut` on each written region of a list. -/
def State.havocWritten (s : State) (keep : Nat → Bool) : List Region → State
  | [] => s
  | r :: rs => State.havocWritten (if r.written then s.havocBut keep r.start r.len else s) keep rs

/-- What a host write of the owned byte `a` does to the commands of the list, oldest first: the written region of every
command that owns `a` holds any value (R65). Bytes that belong to a later command which does not own `a` stay: the host
kept off that one, so its outcome is exact (R223, 93_implementation_defined.md U3; assumption log 26). -/
def State.loosen (s : State) (a : Nat) : List Claim → State
  | [] => s
  | c :: later =>
    State.loosen (if c.contains a then s.havocWritten (claimedApartFrom later a) c.regions else s) a later

/-- How a command ends: without error (R119), or with an error and what it records (R186). -/
inductive Ending where
  | ok
  | error (k : ErrorKind) (erow epos : Word)
  deriving DecidableEq, Repr

/-- The ending an error raised by an `RLEDEC` body records (R187); row and offset fit 32 bits there. -/
def Ending.raise (k : ErrorKind) (erow epos : Nat) : Ending :=
  .error k (BitVec.ofNat 32 erow) (BitVec.ofNat 32 epos)

/-- A drawn ending (R65). -/
def Ending.ofRleEnd : RleEnd → Ending
  | .ok => .ok
  | .malformed row pos => .error .malformedChannelData row pos
  | .corrupt row pos => .error .corruptCompressedStream row pos
  | .range => .error .rangeError 0#32 0#32

/-- What both completion events do: `BUSY <- 0`, `DONE <- 1`, `IDLE`; the cursors cease to exist (R119, R186, R211). -/
def State.retire (s : State) : State :=
  { s with
    phase := .idle, done := true
    cur := Cursor.absent, todo := [], lanes := [], breach := false }

/-- The completion event: without error (R119), or with one (R186). -/
def State.finish (s : State) : Ending → State
  | .ok => s.retire
  | .error k r p => { s.retire with errv := true, ecode := k.code, erow := r, epos := p }

/-- Ends a command whose written region is `[B, B + n)`; after a breach of ownership that region holds any value (R65). -/
def State.endCommand (s : State) (n : Nat) (e : Ending) : State :=
  if s.breach then (s.havoc s.op.B n).finish e else s.finish e

/-- The end of an `RLEDEC` after a breach of ownership: any bytes in the destination, and any of its errors or none (R65). -/
def State.looseEnd (s : State) (n : Nat) : State :=
  { s.havoc s.op.B n with draws := (s.havoc s.op.B n).draws + 1 }.finish
    (Ending.ofRleEnd (Config.freeRleEnd (s.havoc s.op.B n).draws))

/-- A start check of `RLEDEC` fails: memory is exact (R189). -/
def State.endRleStart (s : State) (n : Nat) (e : Ending) : State :=
  if s.breach then s.looseEnd n else s.finish e

/-- The body of `RLEDEC` ends (R131): after an error the destination holds unspecified bytes (R189). -/
def State.endRle (s : State) (n : Nat) (e : Ending) : State :=
  if s.breach then s.looseEnd n
  else match e with
    | .ok => s.finish .ok
    | .error k r p => (s.havoc s.op.B n).finish (.error k r p)

/-- What an accepted `CMD` write latches (R113). -/
def State.latch (s : State) (v : Word) : Op := ⟨v, s.base, s.width, s.height, s.src, s.srclen⟩

/-- An accepted `CMD` write (R112); the command's regions now belong to the block (R65). -/
def State.accept (s : State) (v : Word) : State :=
  { s with
    cmd := v, op := s.latch v, done := false, erow := 0#32, epos := 0#32, phase := .start
    owned := s.owned ++ [⟨(s.latch v).regions⟩], breach := false }

/-- `WR CMD, v`: accepted when `BUSY = 0` and `ERRV = 0`, else rejected (R112, R114). -/
def State.writeCmd (s : State) (v : Word) : State :=
  if !s.busy && !s.errv then s.accept v else { s with rej := true }

/-- `rst` (R210, R211): the reset state; data memory is kept, but the written region of a command it cuts short holds
unspecified bytes (R212). The parameters are unaffected; the host's coming moves stay. -/
def State.rst (s : State) : State :=
  let u := if s.busy then s.havocWritten (fun _ => false) s.op.regions else s
  { State.resetWith s.params u.mem with inputs := s.inputs, draws := u.draws }

end Sys2Proof.Machine
end

