-- ==== Sys2Proof/Machine/Items.lean ====
section
/-! DEFINITION. The in-place commands as items (rows of the prediction unit, samples of the swapper), each item a list of
byte operations taken in order. One item's operations touch only its own bytes, so items may be taken in any order
(42_swap.md R156, 43_pred.md R170); a command taken as one event takes them in index order (40_command.md R121). -/

namespace Sys2Proof.Machine

/-- One assignment of the pseudocode of 42_swap.md and 43_pred.md; `T` is the row's staging copy (R36). -/
inductive ByteOp where
  /-- `M[a] <- (M[a] + M[a-1]) mod 256` (R161). -/
  | add8 (a : Nat)
  /-- `M[a] <- (M[a] - M[a-1]) mod 256` (R162). -/
  | sub8 (a : Nat)
  /-- `MemWrite(a, 2, (MemRead(a, 2) + MemRead(a-2, 2)) mod 65536)` (R164). -/
  | add16 (a : Nat)
  /-- `MemWrite(a, 2, (MemRead(a, 2) - MemRead(a-2, 2)) mod 65536)` (R165). -/
  | sub16 (a : Nat)
  /-- `T[i] <- M[a]` (R166, R167). -/
  | load (i a : Nat)
  /-- `T[i] <- (T[i] + T[i-1]) mod 256` (R166). -/
  | addT (i : Nat)
  /-- `T[i] <- (T[i] - T[i-1]) mod 256` (R167). -/
  | subT (i : Nat)
  /-- `M[a] <- T[i]` (R166, R167). -/
  | store (a i : Nat)
  /-- The two bytes at `a` change places (R152). -/
  | swap2 (a : Nat)
  /-- The four bytes at `a` are reversed (R153). -/
  | swap4 (a : Nat)
  deriving DecidableEq, Repr

/-- The effect of one byte operation on data memory and the staging copy. -/
def ByteOp.run : ByteOp → Memory × Memory → Memory × Memory
  | .add8 a, (m, t) => (Memory.write m a (Memory.read m a + Memory.read m (a - 1)), t)
  | .sub8 a, (m, t) => (Memory.write m a (Memory.read m a - Memory.read m (a - 1)), t)
  | .add16 a, (m, t) => (Memory.write16 m a (Memory.read16 m a + Memory.read16 m (a - 2)), t)
  | .sub16 a, (m, t) => (Memory.write16 m a (Memory.read16 m a - Memory.read16 m (a - 2)), t)
  | .load i a, (m, t) => (m, Memory.write t i (Memory.read m a))
  | .addT i, (m, t) => (m, Memory.write t i (Memory.read t i + Memory.read t (i - 1)))
  | .subT i, (m, t) => (m, Memory.write t i (Memory.read t i - Memory.read t (i - 1)))
  | .store a i, (m, t) => (Memory.write m a (Memory.read t i), t)
  | .swap2 a, (m, t) =>
    (Memory.write (Memory.write m a (Memory.read m (a + 1))) (a + 1) (Memory.read m a), t)
  | .swap4 a, (m, t) =>
    (Memory.write (Memory.write (Memory.write (Memory.write m a (Memory.read m (a + 3)))
      (a + 1) (Memory.read m (a + 2))) (a + 2) (Memory.read m (a + 1))) (a + 3) (Memory.read m a), t)

/-- The data addresses a byte operation reads or writes (R69). -/
def ByteOp.touched : ByteOp → List Nat
  | .add8 a | .sub8 a => [a - 1, a]
  | .add16 a | .sub16 a => [a - 2, a - 1, a, a + 1]
  | .load _ a => [a]
  | .addT _ | .subT _ => []
  | .store a _ => [a]
  | .swap2 a => [a, a + 1]
  | .swap4 a => [a, a + 1, a + 2, a + 3]

/-- Byte operations one after the other. -/
def runOps (ops : List ByteOp) (x : Memory × Memory) : Memory × Memory :=
  ops.foldl (fun y b => b.run y) x

/-- One item from start to end, with a staging copy of its own. -/
def runItem (ops : List ByteOp) (m : Memory) : Memory := (runOps ops (m, [])).1

/-- Items one after the other, in the order of the list. -/
def runItems (prog : Nat → List ByteOp) (items : List Nat) (m : Memory) : Memory :=
  items.foldl (fun n i => runItem (prog i) n) m

/-- The body of an in-place command: the depth its range check uses, the bytes of its written region (R57), and its
items. -/
structure Work where
  depth : Depth
  written : Nat
  count : Nat
  prog : Nat → List ByteOp

/-- An in-place command as one completion event (R117, R119, R121). -/
def State.runWork (s : State) (w : Work) : State :=
  if bufferFits s.params.memSize w.depth s.op then
    { s with mem := runItems w.prog (List.range w.count) s.mem }.endCommand w.written .ok
  else s.endCommand w.written (.error .rangeError 0#32 0#32)

/-- The same command begun turn by turn: the start check, then all its items wait and every lane is free (R38). -/
def State.beginWork (s : State) (w : Work) : State :=
  if bufferFits s.params.memSize w.depth s.op then
    { s with phase := .items, todo := List.range w.count, lanes := List.replicate s.params.lanes none }
  else s.endCommand w.written (.error .rangeError 0#32 0#32)

/-- A free lane takes the `pick`-th waiting item; each item is taken once (R38). -/
def State.takeItem (s : State) (lane pick : Nat) : State :=
  match s.todo[pick]? with
  | none => s
  | some item =>
    { s with todo := s.todo.eraseIdx pick, lanes := s.lanes.set lane (some ⟨item, 0, []⟩) }

/-- A busy lane does the next byte operation of its item, or is free again at the item's end. -/
def State.moveLane (s : State) (w : Work) (lane : Nat) (ln : Lane) : Answer State :=
  match (w.prog ln.item)[ln.pos]? with
  | none => .next { s with lanes := s.lanes.set lane none }
  | some b =>
    match b.touched.find? (fun a => decide (s.params.memSize ≤ a)) with
    | some a => .fault (.noSuchAddress a)
    | none =>
      .next { s with
        mem := (b.run (s.mem, ln.stage)).1
        lanes := s.lanes.set lane (some ⟨ln.item, ln.pos + 1, (b.run (s.mem, ln.stage)).2⟩) }

/-- No item waits and no lane is busy: the join (R38, R64). -/
def State.joined (s : State) : Bool := s.todo.isEmpty && s.lanes.all (fun l => l.isNone)

/-- One turn of the rows: the join ends the command, otherwise lane `lane` moves; a lane that does not exist, or a free
lane with nothing to take, does nothing. -/
def State.laneTurn (s : State) (w : Work) (lane pick : Nat) : Answer State :=
  if s.joined then .next (s.endCommand w.written .ok)
  else
    match s.lanes[lane]? with
    | none => .next s
    | some none => .next (s.takeItem lane pick)
    | some (some ln) => s.moveLane w lane ln

/-- The lane a silent host leaves to move: the first busy one, else lane 0. -/
def State.nextLane (s : State) : Nat :=
  if s.lanes.all (fun l => l.isNone) then 0 else s.lanes.findIdx (fun l => l.isSome)

end Sys2Proof.Machine
end

