-- ==== Sys2Proof/Machine/Prediction.lean ====
section
/-! DEFINITION. The prediction unit (43_pred.md). An item is one row. -/

namespace Sys2Proof.Machine

/-- The columns `1 .. n-1`, upward. -/
def columnsUp (n : Nat) : List Nat := (List.range (n - 1)).map (fun k => k + 1)

/-- The columns `n-1 .. 1`, downward. -/
def columnsDown (n : Nat) : List Nat := (columnsUp n).reverse

/-- Row `r` of `UNPRED.8` (R161). -/
def unpred8Row (o : Op) (r : Nat) : List ByteOp := (columnsUp o.W).map (fun j => .add8 (o.B + r * o.W + j))

/-- Row `r` of `PRED.8` (R162). -/
def pred8Row (o : Op) (r : Nat) : List ByteOp := (columnsDown o.W).map (fun j => .sub8 (o.B + r * o.W + j))

/-- Row `r` of `UNPRED.16` (R164). -/
def unpred16Row (o : Op) (r : Nat) : List ByteOp :=
  (columnsUp o.W).map (fun j => .add16 (o.B + 2 * (r * o.W + j)))

/-- Row `r` of `PRED.16` (R165). -/
def pred16Row (o : Op) (r : Nat) : List ByteOp :=
  (columnsDown o.W).map (fun j => .sub16 (o.B + 2 * (r * o.W + j)))

/-- `rbase`, byte 0 of row `r` at depth 32 (R166). -/
def rowBase32 (o : Op) (r : Nat) : Nat := o.B + 4 * r * o.W

/-- `T[i] <- M[rbase + i]` for every byte of the row (R166). -/
def loadRow (o : Op) (r : Nat) : List ByteOp :=
  (List.range (4 * o.W)).map (fun i => .load i (rowBase32 o r + i))

/-- `M[rbase + i] <- T[i]` for every byte of the row (R167). -/
def storeRow (o : Op) (r : Nat) : List ByteOp :=
  (List.range (4 * o.W)).map (fun i => .store (rowBase32 o r + i) i)

/-- `T[pi(k)*W + j] <- M[rbase + 4*j + k]`, the deinterleave (R167). -/
def loadPlanes (p : Params) (o : Op) (r : Nat) : List ByteOp :=
  (List.range o.W).flatMap (fun j =>
    (List.range 4).map (fun k => .load (p.planeOrder.plane k * o.W + j) (rowBase32 o r + 4 * j + k)))

/-- `M[rbase + 4*j + k] <- T[pi(k)*W + j]`, the reinterleave (R166). -/
def storePlanes (p : Params) (o : Op) (r : Nat) : List ByteOp :=
  (List.range o.W).flatMap (fun j =>
    (List.range 4).map (fun k => .store (rowBase32 o r + 4 * j + k) (p.planeOrder.plane k * o.W + j)))

/-- The indexes of the sums, upward: each plane by itself, or one chain through the row (R166, `PLANE_CARRY`). DESIGN
CHOICE (assumption log 25): with `W = 1` and `PLANE_CARRY` the chain still runs through the row's four bytes, as the
pseudocode of R166 and R5 say, against the words 'no sum is made' of R166 and 'only the byte permutation' of R172. -/
def chainUp (p : Params) (o : Op) : List Nat :=
  if p.planeCarry then columnsUp (4 * o.W)
  else (List.range 4).flatMap (fun q => (columnsUp o.W).map (fun j => q * o.W + j))

/-- The indexes of the differences, downward in each plane, or downward through the row (R167). DESIGN CHOICE (assumption
log 25): with `W = 1` and `PLANE_CARRY` the differences still run through the row's four bytes, as the pseudocode of R167
and R5 say, against the words 'only the byte permutation' of R172. -/
def chainDown (p : Params) (o : Op) : List Nat :=
  if p.planeCarry then columnsDown (4 * o.W)
  else (List.range 4).flatMap (fun q => (columnsDown o.W).map (fun j => q * o.W + j))

/-- Row `r` of `UNPRED.32` (R166). -/
def unpred32Row (p : Params) (o : Op) (r : Nat) : List ByteOp :=
  loadRow o r ++ (chainUp p o).map ByteOp.addT ++ storePlanes p o r

/-- Row `r` of `PRED.32` (R167). -/
def pred32Row (p : Params) (o : Op) (r : Nat) : List ByteOp :=
  loadPlanes p o r ++ (chainDown p o).map ByteOp.subT ++ storeRow o r

/-- The body of `UNPRED.8` (R161). -/
def unpred8Work (o : Op) : Work := ⟨.d8, o.bufferBytes .d8, o.H, unpred8Row o⟩

/-- The body of `UNPRED.16` (R164). -/
def unpred16Work (o : Op) : Work := ⟨.d16, o.bufferBytes .d16, o.H, unpred16Row o⟩

/-- The body of `UNPRED.32` (R166). -/
def unpred32Work (p : Params) (o : Op) : Work := ⟨.d32, o.bufferBytes .d32, o.H, unpred32Row p o⟩

/-- The body of `PRED.8` (R162). -/
def pred8Work (o : Op) : Work := ⟨.d8, o.bufferBytes .d8, o.H, pred8Row o⟩

/-- The body of `PRED.16` (R165). -/
def pred16Work (o : Op) : Work := ⟨.d16, o.bufferBytes .d16, o.H, pred16Row o⟩

/-- The body of `PRED.32` (R167). -/
def pred32Work (p : Params) (o : Op) : Work := ⟨.d32, o.bufferBytes .d32, o.H, pred32Row p o⟩

/-- A command with no defined pipeline, or a reserved word: the decode check fails (R84, R116, R168, R169). -/
def State.unsupported (s : State) : State := s.endCommand 0 (.error .unsupportedCombination 0#32 0#32)

/-- `UNPRED.1` (R168). -/
def execUnpred1 (s : State) : Answer State := .next s.unsupported

/-- `UNPRED.8` (R161). -/
def execUnpred8 (s : State) : Answer State := .next (s.runWork (unpred8Work s.op))

/-- `UNPRED.16` (R164). -/
def execUnpred16 (s : State) : Answer State := .next (s.runWork (unpred16Work s.op))

/-- `UNPRED.32` (R166). -/
def execUnpred32 (s : State) : Answer State := .next (s.runWork (unpred32Work s.params s.op))

/-- `PRED.1` (R169). -/
def execPred1 (s : State) : Answer State := .next s.unsupported

/-- `PRED.8` (R162). -/
def execPred8 (s : State) : Answer State := .next (s.runWork (pred8Work s.op))

/-- `PRED.16` (R165). -/
def execPred16 (s : State) : Answer State := .next (s.runWork (pred16Work s.op))

/-- `PRED.32` (R167). -/
def execPred32 (s : State) : Answer State := .next (s.runWork (pred32Work s.params s.op))

end Sys2Proof.Machine
end

