-- ==== Sys2Proof/Machine/Rle.lean ====
section
/-! DEFINITION. The RLE decoder (41_rle.md): the three packets (R132 to R134), the turns of its loop (R131), and the
four commands. -/

namespace Sys2Proof.Machine

/-- `cnt`, the bytes a packet produces (R87). -/
def packetCount : Packet → Nat
  | .nop => 0
  | .lit c7 => c7.toNat + 1
  | .rpt c7 => 129 - c7.toNat

/-- `need`, the source bytes of a packet, header included (R88). -/
def packetNeed : Packet → Nat
  | .nop => 1
  | .lit c7 => c7.toNat + 2
  | .rpt _ => 2

/-- Where the next produced byte goes, `B + r*rb + out` (R69). -/
def State.rleDst (s : State) : Nat := s.op.B + s.cur.row * s.cur.rb + s.cur.out

/-- The address of the header of the next packet, `S + sp` (R33). -/
def State.rleSrc (s : State) : Nat := s.op.S + s.cur.sp

/-- The length of the destination region, `H * rb` (R57). -/
def State.rleLen (s : State) : Nat := s.op.H * s.cur.rb

/-- The body ends with an error of this row and offset (R131, R186). -/
def State.rleRaise (s : State) (k : ErrorKind) (row pos : Nat) : State :=
  s.endRle s.rleLen (Ending.raise k row pos)

/-- The tests on one packet, the row test before the source test (R141): `none` when it may run. -/
def State.packetError (s : State) (p : Packet) : Option ErrorKind :=
  if s.cur.rb < s.cur.out + packetCount p then some .malformedChannelData
  else if s.op.L < s.cur.sp + packetNeed p then some .corruptCompressedStream
  else none

/-- The first address of `[a, a + n)` that does not exist. -/
def firstAbsent (memSize a n : Nat) : Option Nat :=
  if inRange memSize a n then none else some (max a memSize)

/-- The packet has produced its bytes: `out` and `sp` grow (R132, R133). -/
def State.packetDone (s : State) (p : Packet) (m : Memory) : State :=
  { s with
    mem := m
    cur := { s.cur with sp := s.cur.sp + packetNeed p, out := s.cur.out + packetCount p } }

/-- A packet with data: its tests, then `write`, which puts its `cnt` bytes at the destination. -/
def State.runData (s : State) (p : Packet) (write : Memory → (src dst cnt : Nat) → Memory) : Answer State :=
  match s.packetError p with
  | some k => .next (s.rleRaise k s.cur.row s.cur.sp)
  | none =>
    match firstAbsent s.params.memSize s.rleSrc (packetNeed p) with
    | some a => .fault (.noSuchAddress a)
    | none =>
      match firstAbsent s.params.memSize s.rleDst (packetCount p) with
      | some a => .fault (.noSuchAddress a)
      | none => .next (s.packetDone p (write s.mem (s.rleSrc + 1) s.rleDst (packetCount p)))

/-- `LIT` (R132). -/
def execLit (c7 : BitVec 7) (s : State) : Answer State := s.runData (.lit c7) Memory.copy

/-- `RPT` (R133). -/
def execRpt (c7 : BitVec 7) (s : State) : Answer State :=
  s.runData (.rpt c7) (fun m src dst cnt => Memory.fill m (Memory.read m src) dst cnt)

/-- `NOP`: `sp` grows by 1, nothing else (R134). -/
def execNop (s : State) : Answer State := .next (s.packetDone .nop s.mem)

/-- The meaning of a fetched packet. -/
def runPacket (p : Packet) (s : State) : Answer State :=
  match p with
  | .nop => execNop s
  | .lit c7 => execLit c7 s
  | .rpt c7 => execRpt c7 s

/-- What the loops of R131 do next: stop after the last row, end a row, find the source used up, or take a packet. -/
inductive RleTurn where
  | finish
  | rowEnd
  | sourceUsedUp
  | packet
  deriving DecidableEq, Repr

/-- The loop tests of R131 in their order (R135, R136). -/
def State.rleTurn (s : State) : RleTurn :=
  if ¬ s.cur.row < s.op.H then .finish
  else if ¬ s.cur.out < s.cur.rb then .rowEnd
  else if ¬ s.cur.sp < s.op.L then .sourceUsedUp
  else .packet

/-- `for r`: the row is complete, the next one begins with no byte produced (R131, R135). -/
def State.nextRow (s : State) : State := { s with cur := { s.cur with row := s.cur.row + 1, out := 0 } }

/-- The test after the last row: the source must be used up (R136). -/
def State.rleEnd (s : State) : State :=
  if s.cur.sp ≠ s.op.L then s.rleRaise .malformedChannelData s.op.H s.cur.sp
  else s.endRle s.rleLen .ok

/-- The packet whose header stands at the stream offset (R33, R88). -/
def State.fetchPacket (s : State) : Packet := decodePacket (Memory.read s.mem s.rleSrc)

/-- One turn of the body (R131), the packet run by `run`. -/
def State.streamTurn (s : State) (run : Packet → State → Answer State) : Answer State :=
  match s.rleTurn with
  | .finish => .next s.rleEnd
  | .rowEnd => .next s.nextRow
  | .sourceUsedUp => .next (s.rleRaise .malformedChannelData s.cur.row s.cur.sp)
  | .packet =>
    match firstAbsent s.params.memSize s.rleSrc 1 with
    | some a => .fault (.noSuchAddress a)
    | none => run s.fetchPacket s

/-- Turns of the body until the command has ended, at most `fuel` of them. -/
def rleLoop : (fuel : Nat) → State → Answer State
  | 0, s => .next s
  | fuel + 1, s =>
    if s.phase ≠ .stream then .next s
    else match s.streamTurn runPacket with
      | .next t => rleLoop fuel t
      | .fault r => .fault r
      | .refused r => .refused r

/-- Enough turns for any stream: every turn adds to `sp`, ends a row or ends the command (R142). -/
def State.rleFuel (s : State) : Nat := s.op.L + s.op.H + 1

/-- The body begins: `sp = 0`, row 0, nothing produced, `rb = rowbytes(d, W)` (R131). -/
def State.beginStream (s : State) (d : Depth) : State :=
  { s with phase := .stream, cur := ⟨0, 0, 0, rowBytes d s.op.W⟩ }

/-- The start checks of `RLEDEC.d` (R117): `none` when they pass. -/
def State.rleStart (s : State) (d : Depth) : Option State :=
  if rleFits s.params.memSize d s.op then none
  else some (s.endRleStart (s.op.bufferBytes d) (.error .rangeError 0#32 0#32))

/-- `RLEDEC.d` as one completion event (R121, R131). -/
def State.runRledec (s : State) (d : Depth) : Answer State :=
  match s.rleStart d with
  | some t => .next t
  | none => rleLoop s.rleFuel (s.beginStream d)

/-- `RLEDEC.1` (R140). -/
def execRledec1 (s : State) : Answer State := s.runRledec .d1

/-- `RLEDEC.8` (R137). -/
def execRledec8 (s : State) : Answer State := s.runRledec .d8

/-- `RLEDEC.16` (R138). -/
def execRledec16 (s : State) : Answer State := s.runRledec .d16

/-- `RLEDEC.32` (R139). -/
def execRledec32 (s : State) : Answer State := s.runRledec .d32

end Sys2Proof.Machine
end

