-- ==== Sys2Proof/Machine/Swap.lean ====
section
/-! DEFINITION. The endian word-swapper (42_swap.md). An item is one sample. -/

namespace Sys2Proof.Machine

/-- A pass-through swap checks its buffer and accesses nothing (R151, R154). -/
def passThrough (d : Depth) : Work := ⟨d, 0, 0, fun _ => []⟩

/-- `SWAP.16` on `N = W * H` samples (R152). -/
def swap16Work (o : Op) : Work := ⟨.d16, o.bufferBytes .d16, o.W * o.H, fun i => [.swap2 (o.B + 2 * i)]⟩

/-- `SWAP.32` on `N = W * H` samples (R153). -/
def swap32Work (o : Op) : Work := ⟨.d32, o.bufferBytes .d32, o.W * o.H, fun i => [.swap4 (o.B + 4 * i)]⟩

/-- `SWAP.1` (R154). -/
def execSwap1 (s : State) : Answer State := .next (s.runWork (passThrough .d1))

/-- `SWAP.8` (R151). -/
def execSwap8 (s : State) : Answer State := .next (s.runWork (passThrough .d8))

/-- `SWAP.16` (R152). -/
def execSwap16 (s : State) : Answer State := .next (s.runWork (swap16Work s.op))

/-- `SWAP.32` (R153). -/
def execSwap32 (s : State) : Answer State := .next (s.runWork (swap32Work s.op))

end Sys2Proof.Machine
end

