-- ==== Sys2Proof/Machine/Dispatch.lean ====
section
/-! DEFINITION. One meaning per instruction. A command's meaning is its whole completion event on the latched operands
(40_command.md R121); a packet's meaning is its effect on the running stream (41_rle.md). -/

namespace Sys2Proof.Machine

def exec (i : Instr) (s : State) : Host.Outcome State Fault Refusal :=
  match i with
  | .rledec1 => Sys2Proof.Machine.execRledec1 s
  | .rledec8 => Sys2Proof.Machine.execRledec8 s
  | .rledec16 => Sys2Proof.Machine.execRledec16 s
  | .rledec32 => Sys2Proof.Machine.execRledec32 s
  | .swap1 => Sys2Proof.Machine.execSwap1 s
  | .swap8 => Sys2Proof.Machine.execSwap8 s
  | .swap16 => Sys2Proof.Machine.execSwap16 s
  | .swap32 => Sys2Proof.Machine.execSwap32 s
  | .unpred1 => Sys2Proof.Machine.execUnpred1 s
  | .unpred8 => Sys2Proof.Machine.execUnpred8 s
  | .unpred16 => Sys2Proof.Machine.execUnpred16 s
  | .unpred32 => Sys2Proof.Machine.execUnpred32 s
  | .pred1 => Sys2Proof.Machine.execPred1 s
  | .pred8 => Sys2Proof.Machine.execPred8 s
  | .pred16 => Sys2Proof.Machine.execPred16 s
  | .pred32 => Sys2Proof.Machine.execPred32 s
  | .nop => Sys2Proof.Machine.execNop s
  | .lit c7 => Sys2Proof.Machine.execLit c7 s
  | .rpt c7 => Sys2Proof.Machine.execRpt c7 s

end Sys2Proof.Machine
end

