-- ==== Sys2Proof/Machine/Block.lean ====
section
/-! DEFINITION. The block's own moves (40_command.md R115 to R118): at the start checks it fetches the latched command
word and runs it as one event, or begins its body to be taken turn by turn; in a body it takes one turn. -/

namespace Sys2Proof.Machine

/-- The in-place body a command word selects, if it selects one (R118). -/
def Op.work (p : Params) (o : Op) : Option Work :=
  match decodeCommand o.word with
  | .ok .swap1 => some (passThrough .d1)
  | .ok .swap8 => some (passThrough .d8)
  | .ok .swap16 => some (swap16Work o)
  | .ok .swap32 => some (swap32Work o)
  | .ok .unpred8 => some (unpred8Work o)
  | .ok .unpred16 => some (unpred16Work o)
  | .ok .unpred32 => some (unpred32Work p o)
  | .ok .pred8 => some (pred8Work o)
  | .ok .pred16 => some (pred16Work o)
  | .ok .pred32 => some (pred32Work p o)
  | _ => none

/-- The depth of the `RLEDEC` a command word selects, if it selects one (R118). -/
def Op.rleDepth (o : Op) : Option Depth :=
  match decodeCommand o.word with
  | .ok .rledec1 => some .d1
  | .ok .rledec8 => some .d8
  | .ok .rledec16 => some .d16
  | .ok .rledec32 => some .d32
  | _ => none

/-- The whole command as one event: decode (R116), then its meaning (R118, R121). -/
def State.runCommand (s : State) : Answer State :=
  match decodeCommand s.op.word with
  | .ok i => exec i s
  | .error _ => .next s.unsupported

/-- The start checks and no more (R115): afterwards the body is taken turn by turn (R121). -/
def State.beginCommand (s : State) : State :=
  match s.op.rleDepth, s.op.work s.params with
  | some d, _ =>
    match s.rleStart d with
    | some t => t
    | none => s.beginStream d
  | none, some w => s.beginWork w
  | none, none => s.unsupported

/-- A turn of the `RLEDEC` body; a packet is an instruction (R131). -/
def State.stepStream (s : State) : Answer State := s.streamTurn (fun p t => exec p.instr t)

/-- A turn of the rows or samples by the given lane. -/
def State.stepItems (s : State) (lane pick : Nat) : Answer State :=
  match s.op.work s.params with
  | some w => s.laneTurn w lane pick
  | none => .next s

/-- The block's move while the host is silent; an idle block does nothing (R40). -/
def State.blockStep (s : State) : Answer State :=
  match s.phase with
  | .idle => .next s
  | .start => s.runCommand
  | .stream => s.stepStream
  | .items => s.stepItems s.nextLane 0

/-- One turn of the block, on the given lane (R121, R38). -/
def State.turnStep (s : State) (lane pick : Nat) : Answer State :=
  match s.phase with
  | .idle => .next s
  | .start => .next s.beginCommand
  | .stream => s.stepStream
  | .items => s.stepItems lane pick

end Sys2Proof.Machine
end

