-- ==== Sys2Proof/Machine/HostBus.lean ====
section
/-! DEFINITION. The host's moves (70_reset_and_hazards.md R221): register reads and writes (40_command.md R110, R111),
data-memory accesses under the ownership rule (20_memory.md R65), `irq`, `rst`, `WAIT`. -/

namespace Sys2Proof.Machine

/-- The registers of the window (R28). -/
inductive Reg where
  | cmd
  | status
  | ien
  | base
  | width
  | height
  | src
  | srclen
  | erow
  | epos
  | reserved
  deriving DecidableEq, Repr

/-- The register at an aligned window offset (R27, R28). -/
def regAt (off : Nat) : Reg :=
  match off with
  | 0x00 => .cmd
  | 0x04 => .status
  | 0x08 => .ien
  | 0x0C => .base
  | 0x10 => .width
  | 0x14 => .height
  | 0x18 => .src
  | 0x1C => .srclen
  | 0x20 => .erow
  | 0x24 => .epos
  | _ => .reserved

/-- The value `RD reg` returns (R110). -/
def State.readReg (s : State) : Reg → Word
  | .cmd => s.cmd
  | .status => s.statusWord
  | .ien => s.ienWord
  | .base => s.base
  | .width => s.width
  | .height => s.height
  | .src => s.src
  | .srclen => s.srclen
  | .erow => s.erow
  | .epos => s.epos
  | .reserved => 0#32

/-- The effect of `WR reg, v` (R111). -/
def State.writeReg (s : State) (r : Reg) (v : Word) : State :=
  match r with
  | .cmd => s.writeCmd v
  | .status => s.writeStatus v
  | .ien => { s with ie := v.getLsbD 0 }
  | .base => { s with base := v }
  | .width => { s with width := v }
  | .height => { s with height := v }
  | .src => { s with src := v }
  | .srclen => { s with srclen := v }
  | .erow | .epos | .reserved => s

/-- An aligned 32-bit access; any other is refused (R27). -/
def aligned32 (off size : Nat) : Bool := decide (size = 4) && decide (off % 4 = 0)

/-- The host has observed `BUSY = 0`: the regions are its own again (R65, R67). -/
def State.observe (s : State) : State := if s.busy then s else { s with owned := [] }

/-- `RD` at an offset (R110); a `STATUS` read may hand the regions back (R67). -/
def State.hostRead (s : State) (off : Nat) : State :=
  let t := { s with reply := .word (s.readReg (regAt off)) }
  if regAt off = .status then t.observe else t

/-- The host looks at `irq`; seen high it carries the promise of a `STATUS` read (R67). -/
def State.hostIrq (s : State) : State :=
  let t := { s with reply := .line s.irq }
  if s.irq then t.observe else t

/-- Whether a data address belongs to the block (R65). -/
def State.owns (s : State) (a : Nat) : Bool := s.owned.any (fun c => c.contains a)

/-- Whether a data address belongs to the running command (R65). -/
def State.runsOn (s : State) (a : Nat) : Bool := s.busy && s.op.regions.any (fun r => r.contains a)

/-- A host read of a data byte: of an owned byte any value (R65). -/
def State.hostMemRead (s : State) (a : Nat) : Answer State :=
  if s.params.memSize ≤ a then .fault (.noSuchAddress a)
  else if s.owns a then .next { s with reply := .byte (Config.freeByte s.draws), draws := s.draws + 1 }
  else .next { s with reply := .byte (Memory.read s.mem a) }

/-- A host write of a data byte. Of an owned byte it loosens the outcome of the commands that own it and of no other: their
written regions hold any value, and if one of them still runs its completion is loose too (R65, R214). The ending of a
command that is over stays as it was recorded (R23, R186; assumption log 26). -/
def State.hostMemWrite (s : State) (a : Nat) (v : Byte) : Answer State :=
  if s.params.memSize ≤ a then .fault (.noSuchAddress a)
  else if s.owns a then
    .next ({ s with mem := Memory.write s.mem a v, breach := s.breach || s.runsOn a }.loosen a s.owned)
  else .next { s with mem := Memory.write s.mem a v }

/-- `WAIT` when the command has ended: the `STATUS` read that shows it (R91), and on an error the rest of an expansion
is not issued (R94). -/
def State.waited (s : State) (skip : Nat) : State :=
  let t := s.hostRead 0x04
  if s.errv then { t with inputs := t.inputs.drop skip } else t

/-- The effect of the event at the head of the inputs, already taken off them. -/
def State.event (s : State) : Event → Answer State
  | .rd off size =>
    if aligned32 off size then .next (s.hostRead off) else .refused (.registerAccessSize off size)
  | .wr off size v =>
    if aligned32 off size then .next (s.writeReg (regAt off) v) else .refused (.registerAccessSize off size)
  | .irq => .next s.hostIrq
  | .memRd a => s.hostMemRead a
  | .memWr a v => s.hostMemWrite a v
  | .rst => .next s.rst
  | .block => s.blockStep
  | .turn lane pick => s.turnStep lane pick
  | .wait skip =>
    if s.busy then { s with inputs := .wait skip :: s.inputs }.blockStep else .next (s.waited skip)

/-- The next move: the host's oldest event, or, while the host is silent, the block's. -/
def State.advance (s : State) : Answer State :=
  match s.inputs with
  | [] => s.blockStep
  | e :: rest => { s with inputs := rest }.event e

/-- Lays an instruction where the block fetches next (the host's interface): a command word as the word just accepted, a
packet header as the next header of a running `RLEDEC.8` of one 128-byte row, with data bytes of 0 (assumption log 15). -/
def State.placeWord (s : State) (nbits w : Nat) : State :=
  if nbits = 8 then
    { s with
      mem := Memory.write (Memory.fill s.mem 0x00#8 0x81 128) 0x80 (BitVec.ofNat 8 w)
      cmd := 0x00000011#32
      op := ⟨0x00000011#32, 0x00#32, 128#32, 1#32, 0x80#32, 129#32⟩
      phase := .stream, cur := ⟨0, 0, 0, 128⟩, inputs := [] }
  else
    { s with
      cmd := BitVec.ofNat 32 w
      op := s.latch (BitVec.ofNat 32 w)
      phase := .start, inputs := [] }

end Sys2Proof.Machine
end

