-- ==== Sys2Proof/Machine/Step.lean ====
section
/-! DEFINITION. One step of the machine, and the host's way to put an instruction where it fetches next. -/

namespace Sys2Proof.Machine

/-- One step: the host's oldest move, or the block's move while the host is silent (assumption log 1). -/
def step (s : State) : Host.Outcome State Fault Refusal := s.advance

/-- `s` with the given instruction where the block fetches next, so that the very next step runs it. -/
def State.withFetchWord (s : State) (nbits w : Nat) : State := s.placeWord nbits w

end Sys2Proof.Machine
end

