-- ==== Sys2Proof/Machine/Pipelines.lean ====
section
/-! DEFINITION. The assembler language of the host (30_encoding.md R91 to R95): each command line and each
pseudo-instruction as the sequence of host moves it stands for. The block knows nothing of them (R95). -/

namespace Sys2Proof.Machine

/-- The window offset of a register (R28); the reserved ones begin at 0x28. -/
def regOffset : Reg → Nat
  | .cmd => 0x00
  | .status => 0x04
  | .ien => 0x08
  | .base => 0x0C
  | .width => 0x10
  | .height => 0x14
  | .src => 0x18
  | .srclen => 0x1C
  | .erow => 0x20
  | .epos => 0x24
  | .reserved => 0x28

/-- `WR reg, v` (R91). -/
def wrReg (r : Reg) (v : Word) : Event := .wr (regOffset r) 4 v

/-- `RD reg` (R91). -/
def rdReg (r : Reg) : Event := .rd (regOffset r) 4

/-- `ACK`, `WR STATUS, 0x00000006` (R91). -/
def ackMove : Event := wrReg .status 0x00000006#32

/-- `DB a: b0 b1 ...` (R91). -/
def dbMoves : (a : Nat) → List Byte → List Event
  | _, [] => []
  | a, b :: bs => .memWr a b :: dbMoves (a + 1) bs

/-- The operands of a command line (R92). -/
structure CommandLine where
  base : Word
  width : Word
  height : Word
  src : Word
  srclen : Word
  deriving DecidableEq, Repr

/-- The operand writes of a command line; only `RLEDEC` has `SRC` and `SRCLEN` (R92). -/
def operandMoves (c : CommandLine) : Instr → List Event
  | .rledec1 | .rledec8 | .rledec16 | .rledec32 =>
    [wrReg .base c.base, wrReg .width c.width, wrReg .height c.height, wrReg .src c.src,
      wrReg .srclen c.srclen]
  | _ => [wrReg .base c.base, wrReg .width c.width, wrReg .height c.height]

/-- Command lines one after the other, each waited for; after an error the rest is not issued (R92, R94). -/
def commandMoves (c : CommandLine) : List Instr → List Event
  | [] => []
  | i :: is =>
    operandMoves c i ++ [wrReg .cmd (commandWord i), .wait (commandMoves c is).length] ++ commandMoves c is

/-- The pseudo-instructions of R94. -/
inductive Pseudo where
  | raw (d : Depth)
  | rle (d : Depth)
  | zip (d : Depth)
  | zipPred (d : Depth)
  | encZipPred8
  | encZipPred16
  | encZipPred32
  | encZip (d : Depth)
  | encRaw (d : Depth)
  deriving DecidableEq, Repr

/-- The expansion table of R94; at depth 32 prediction removal comes before the swap (90_conflicts.md C1). -/
def pseudoCommands : Pseudo → List Instr
  | .raw d => [.swap d]
  | .rle d => [.rledec d]
  | .zip d => [.swap d]
  | .zipPred .d1 => [.unpred1]
  | .zipPred .d8 => [.swap8, .unpred8]
  | .zipPred .d16 => [.swap16, .unpred16]
  | .zipPred .d32 => [.unpred32, .swap32]
  | .encZipPred8 => [.pred8, .swap8]
  | .encZipPred16 => [.pred16, .swap16]
  | .encZipPred32 => [.swap32, .pred32]
  | .encZip d => [.swap d]
  | .encRaw d => [.swap d]

/-- The host moves of a pseudo-instruction (R94). -/
def pseudoMoves (c : CommandLine) (p : Pseudo) : List Event := commandMoves c (pseudoCommands p)

end Sys2Proof.Machine
end

