-- ==== Sys2Proof/Safety.lean ====
section
/-! DEFINITION. The terms claims are stated in: frames, launch premises (70_reset_and_hazards.md R223), invariants, and
what the commands compute, said without their loops. -/

namespace Sys2Proof.Machine

/-- Every byte outside `[a, a + n)` reads the same in both memories (R60). -/
def Memory.SameOutside (m k : Memory) (a n : Nat) : Prop :=
  ∀ x, x < a ∨ a + n ≤ x → Memory.read k x = Memory.read m x

/-- Every byte reads the same. -/
def Memory.Same (m k : Memory) : Prop := ∀ x, Memory.read k x = Memory.read m x

/-- Byte `k` of the list stands at `a + k`. -/
def Memory.Holds (m : Memory) (a : Nat) (bs : List Byte) : Prop :=
  ∀ k (h : k < bs.length), Memory.read m (a + k) = bs[k]

/-- What no completion writes (R119, R186): the operand registers, `CMD`, `IEN`, `STATUS.REJ`, the latch, the ownership,
the parameters, and the model's own inputs and reply. -/
def State.KeepsHostSide (s t : State) : Prop :=
  t.params = s.params ∧ t.base = s.base ∧ t.width = s.width ∧ t.height = s.height ∧ t.src = s.src ∧
  t.srclen = s.srclen ∧ t.cmd = s.cmd ∧ t.ie = s.ie ∧ t.rej = s.rej ∧ t.op = s.op ∧ t.owned = s.owned ∧
  t.inputs = s.inputs ∧ t.reply = s.reply

/-- The bytes of the written region of a command (R57); it starts at `B`. -/
def writtenBytes (o : Op) : Instr → Nat
  | .rledec1 => o.bufferBytes .d1
  | .rledec8 | .unpred8 | .pred8 => o.bufferBytes .d8
  | .rledec16 | .swap16 | .unpred16 | .pred16 => o.bufferBytes .d16
  | .rledec32 | .swap32 | .unpred32 | .pred32 => o.bufferBytes .d32
  | .swap1 | .swap8 | .unpred1 | .pred1 => 0
  | .nop | .lit _ | .rpt _ => 0

/-- The instructions that are commands, not packets (R80). -/
def IsCommand (i : Instr) : Prop := ∃ w, encode i = .command w

/-- The depth whose buffer size a command's range check uses (R117). -/
def checkedDepth : Instr → Option Depth
  | .rledec1 | .swap1 => some .d1
  | .rledec8 | .swap8 | .unpred8 | .pred8 => some .d8
  | .rledec16 | .swap16 | .unpred16 | .pred16 => some .d16
  | .rledec32 | .swap32 | .unpred32 | .pred32 => some .d32
  | .unpred1 | .pred1 | .nop | .lit _ | .rpt _ => none

/-- The in-place body of a command that has one. -/
def inPlaceWork (p : Params) (o : Op) : Instr → Option Work
  | .swap1 => some (passThrough .d1)
  | .swap8 => some (passThrough .d8)
  | .swap16 => some (swap16Work o)
  | .swap32 => some (swap32Work o)
  | .unpred8 => some (unpred8Work o)
  | .unpred16 => some (unpred16Work o)
  | .unpred32 => some (unpred32Work p o)
  | .pred8 => some (pred8Work o)
  | .pred16 => some (pred16Work o)
  | .pred32 => some (pred32Work p o)
  | _ => none

/-- The sum modulo 256 of the `n + 1` bytes from `a` upward. -/
def Memory.sum8 (m : Memory) (a : Nat) : Nat → Byte
  | 0 => Memory.read m a
  | n + 1 => Memory.sum8 m a n + Memory.read m (a + (n + 1))

/-- The sum modulo 65536 of the `n + 1` native 16-bit samples from `a` upward. -/
def Memory.sum16 (m : Memory) (a : Nat) : Nat → BitVec 16
  | 0 => Memory.read16 m a
  | n + 1 => Memory.sum16 m a n + Memory.read16 m (a + 2 * (n + 1))

/-- The source bytes of a list of packets. -/
def streamBytes (ps : List SrcPacket) : List Byte := ps.flatMap SrcPacket.assemble

/-- The bytes a list of packets produces. -/
def producedBytes (ps : List SrcPacket) : List Byte := ps.flatMap SrcPacket.produced

/-- The packets of one row: they produce exactly `rb` bytes (R135), and the last of them is no no-op marker, since a
no-op marker after a finished row belongs to the next one (R134). -/
def RowOf (rb : Nat) (ps : List SrcPacket) : Prop :=
  (∀ p ∈ ps, p.wf = true) ∧ (producedBytes ps).length = rb ∧ ps.getLast? ≠ some .nop

/-- The `STATUS` invariants of R23. -/
def State.StatusInv (s : State) : Prop :=
  (s.busy = true → s.done = false) ∧
  (s.errv = true → s.busy = false ∧ s.ecode ≠ 0#4) ∧
  (s.errv = false → s.ecode = 0#4)

/-- Data memory and every staging copy are in canonical form, and no listed byte of data memory lies at or above
`MEMSIZE` (R51). -/
def State.MemInv (s : State) : Prop :=
  Memory.wf s.mem = true ∧ Memory.within s.params.memSize s.mem = true ∧
  ∀ l ∈ s.lanes, ∀ ln, l = some ln → Memory.wf ln.stage = true

/-- The cursors of a running stream are in the ranges of R33 and R34, of an `RLEDEC` that passed its start checks. -/
def State.StreamInv (s : State) : Prop :=
  s.phase = .stream → ∃ d, s.op.rleDepth = some d ∧ rleFits s.params.memSize d s.op = true ∧
    s.cur.rb = rowBytes d s.op.W ∧ s.cur.row ≤ s.op.H ∧ s.cur.out ≤ s.cur.rb ∧ s.cur.sp ≤ s.op.L ∧
    (s.cur.row = s.op.H → s.cur.out = 0)

/-- The items a lane works on or that wait are distinct items of an in-place command that passed its start check (R38). -/
def State.ItemsInv (s : State) : Prop :=
  s.phase = .items → ∃ w, s.op.work s.params = some w ∧ bufferFits s.params.memSize w.depth s.op = true ∧
    s.lanes.length = s.params.lanes ∧
    ((s.lanes.filterMap (fun l => l.map Lane.item)) ++ s.todo).Nodup ∧
    ∀ i ∈ (s.lanes.filterMap (fun l => l.map Lane.item)) ++ s.todo, i < w.count

/-- The host's next move does not touch a data address that does not exist, nor a register with anything but an aligned
32-bit access (R27, R51). -/
def State.HostKeepsToTheMap (s : State) : Prop :=
  match s.inputs with
  | .memRd a :: _ => a < s.params.memSize
  | .memWr a _ :: _ => a < s.params.memSize
  | .rd off size :: _ => aligned32 off size = true
  | .wr off size _ :: _ => aligned32 off size = true
  | _ => True

/-- The state with other values in the five operand registers (R30). -/
def State.withOperands (s : State) (c : CommandLine) : State :=
  { s with base := c.base, width := c.width, height := c.height, src := c.src, srclen := c.srclen }

/-- The same block with another number of lanes (R5, R38). -/
def State.withLanes (s : State) (n : Nat) : State := { s with params := { s.params with lanes := n } }

/-- The moves that take one turn each. -/
def turnMoves (schedule : List (Nat × Nat)) : List Event := schedule.map (fun t => .turn t.1 t.2)

end Sys2Proof.Machine
end

