-- ==== Sys2Proof/Certificates/Slice0/Obligations.lean ====
section
/-! DEFINITION. The statements for the provers. Each docstring names the rule of spec/ the statement formalises; where a
clause rests on a choice of the model the docstring names the assumption log entry. -/

open Sys2Proof Sys2Proof.Machine

/-! ### Encodings (30_encoding.md) -/

/-- R82, R84, R86, R88: a coded unit decodes to an instruction exactly when it is that instruction's encoding. -/
def Obligations.DecodeEncodeAgree : Prop :=
  ∀ (c : Coded) (i : Instr), decode c = .ok i ↔ (i.wf = true ∧ encode i = c)

/-- R84: the reserved words are those with `RSV != 0`, `OPC = 0` or `OPC >= 5`. -/
def Obligations.ReservedWordsAreRejected : Prop :=
  ∀ w : Word, (∃ e, decodeCommand w = .error e) ↔
    (rsvField w ≠ 0#26 ∨ opcField w = 0#4 ∨ 5 ≤ (opcField w).toNat)

/-- R82, R88: words written out from the two maps decode to what they stand for. -/
def Obligations.SampleWordsDecode : Prop :=
  decode (.command 0x00000021#32) = .ok .rledec16 ∧ decode (.command 0x00000012#32) = .ok .swap8 ∧
  decode (.command 0x00000033#32) = .ok .unpred32 ∧ decode (.command 0x00000014#32) = .ok .pred8 ∧
  decode (.command 0x00000113#32) = .error .reservedBits ∧ decode (.command 0x00000005#32) = .error .reservedOpc ∧
  decode (.header 0x02#8) = .ok (.lit 2#7) ∧ decode (.header 0x80#8) = .ok .nop ∧
  decode (.header 0xFD#8) = .ok (.rpt 0x7D#7)

/-- R87, R88: kind, produced bytes and source bytes of every header `h`, with `n = sint8(h)`. -/
def Obligations.HeaderFixesThePacket : Prop :=
  ∀ h : Byte,
    (0 ≤ h.toInt → decodePacket h = .lit (countField h) ∧ (packetCount (decodePacket h) : Int) = h.toInt + 1 ∧
      (packetNeed (decodePacket h) : Int) = h.toInt + 2) ∧
    (h.toInt = -128 → decodePacket h = .nop ∧ packetCount (decodePacket h) = 0 ∧ packetNeed (decodePacket h) = 1) ∧
    (-127 ≤ h.toInt → h.toInt < 0 → decodePacket h = .rpt (countField h) ∧
      (packetCount (decodePacket h) : Int) = 1 - h.toInt ∧ packetNeed (decodePacket h) = 2)

/-! ### Steps -/

/-- R118, R121, R131: while the host is silent, a block at its start checks whose word spells a command runs that
command, and a stream that expects a header runs the packet whose header stands at `S + sp`; nothing is added around it. -/
def Obligations.StepRunsTheDecodedInstruction : Prop :=
  ∀ s : State, s.inputs = [] →
    (∀ i, s.phase = .start → decodeCommand s.op.word = .ok i → step s = exec i s) ∧
    (s.phase = .stream → s.cur.row < s.op.H → s.cur.out < s.cur.rb → s.cur.sp < s.op.L →
      s.op.S + s.cur.sp < s.params.memSize →
      step s = exec (decodePacket (Memory.read s.mem (s.op.S + s.cur.sp))).instr s)

/-- R84, R116, R186: a reserved word is accepted and ends with `UnsupportedCombination`, without a data access. -/
def Obligations.ReservedWordEndsUnsupported : Prop :=
  ∀ (s : State) (e : Reject), s.inputs = [] → s.phase = .start → s.breach = false →
    decodeCommand s.op.word = .error e →
    step s = .next (s.finish (.error .unsupportedCombination 0#32 0#32))

/-- R131, R135, R136: the turns of the stream that take no packet. -/
def Obligations.StreamTurnsBetweenPackets : Prop :=
  ∀ s : State, s.inputs = [] → s.phase = .stream → s.breach = false →
    (s.cur.row < s.op.H → s.cur.rb ≤ s.cur.out →
      step s = .next { s with cur := ⟨s.cur.sp, s.cur.row + 1, 0, s.cur.rb⟩ }) ∧
    (s.cur.row < s.op.H → s.cur.out < s.cur.rb → s.op.L ≤ s.cur.sp →
      ∃ t, step s = .next t ∧ Memory.SameOutside s.mem t.mem s.op.B (s.op.H * s.cur.rb) ∧
        t = { s with mem := t.mem, draws := t.draws }.finish
          (.error .malformedChannelData (BitVec.ofNat 32 s.cur.row) (BitVec.ofNat 32 s.cur.sp))) ∧
    (s.op.H ≤ s.cur.row → s.cur.sp = s.op.L → step s = .next (s.finish .ok)) ∧
    (s.op.H ≤ s.cur.row → s.cur.sp ≠ s.op.L →
      ∃ t, step s = .next t ∧ Memory.SameOutside s.mem t.mem s.op.B (s.op.H * s.cur.rb) ∧
        t = { s with mem := t.mem, draws := t.draws }.finish
          (.error .malformedChannelData (BitVec.ofNat 32 s.op.H) (BitVec.ofNat 32 s.cur.sp)))

/-! ### Reset and registers (10_state.md, 70_reset_and_hazards.md) -/

/-- R40, R211: after reset every register reads 0, the sequencer is idle, `irq = 0`, memory is as it was. -/
def Obligations.ResetRegistersReadZero : Prop :=
  ∀ (p : Params) (m : Memory) (r : Reg), (State.resetWith p m).readReg r = 0#32 ∧
    (State.resetWith p m).phase = .idle ∧ (State.resetWith p m).irq = false ∧ (State.resetWith p m).mem = m

/-- R210, R212: `rst` in any state gives the reset state; only bytes of the written region of a command it cuts short may
change. -/
def Obligations.RstGivesTheResetState : Prop :=
  ∀ (s : State) (rest : List Event), s.inputs = .rst :: rest →
    ∃ t, step s = .next t ∧
      t = { State.resetWith s.params t.mem with inputs := rest, draws := t.draws } ∧
      (s.phase = .idle → t.mem = s.mem) ∧
      ∀ a, (∀ g ∈ s.op.regions, g.written = true → g.contains a = false) →
        Memory.read t.mem a = Memory.read s.mem a

/-- R23, R24: where the fields stand in `STATUS` and `IEN`; reserved bits read 0. -/
def Obligations.StatusAndIenBits : Prop :=
  ∀ (s : State) (k : Nat),
    s.statusWord.getLsbD k =
      (if k = 0 then decide (s.phase ≠ .idle) else if k = 1 then s.done else if k = 2 then s.errv
        else if k = 3 then s.rej else if k < 8 then s.ecode.getLsbD (k - 4) else false) ∧
    s.ienWord.getLsbD k = (if k = 0 then s.ie else false)

/-- R110, R67: an aligned 32-bit read returns the register and changes no state of the block; a `STATUS` read that shows
`BUSY = 0` hands the regions back (the ownership list is the model's, assumption log 9). -/
def Obligations.RegisterReadChangesNothing : Prop :=
  ∀ (s : State) (rest : List Event) (off : Nat), s.inputs = .rd off 4 :: rest → off % 4 = 0 →
    step s = .next { s with
      inputs := rest, reply := .word (s.readReg (regAt off))
      owned := if off = 0x04 ∧ s.phase = .idle then [] else s.owned }

/-- R21, R24, R111: a write of an operand register or of `IEN` changes that register and nothing else, in every phase. -/
def Obligations.RegisterWrites : Prop :=
  ∀ (s : State) (rest : List Event) (off : Nat) (v : Word), s.inputs = .wr off 4 v :: rest →
    (off = 0x08 → step s = .next { s with inputs := rest, ie := v.getLsbD 0 }) ∧
    (off = 0x0C → step s = .next { s with inputs := rest, base := v }) ∧
    (off = 0x10 → step s = .next { s with inputs := rest, width := v }) ∧
    (off = 0x14 → step s = .next { s with inputs := rest, height := v }) ∧
    (off = 0x18 → step s = .next { s with inputs := rest, src := v }) ∧
    (off = 0x1C → step s = .next { s with inputs := rest, srclen := v })

/-- R25, R26, R27: writes of `EROW`, `EPOS` and reserved offsets are ignored; a reserved offset reads 0. R27 reserves the
offsets up to the end of the window the platform maps; that the window has no end, so that every aligned offset from 0x28
upward is such a register, is the model's choice (assumption log 13). -/
def Obligations.ReadOnlyAndReservedOffsets : Prop :=
  ∀ (s : State) (rest : List Event) (off : Nat) (v : Word), off % 4 = 0 → 0x20 ≤ off →
    (s.inputs = .wr off 4 v :: rest → step s = .next { s with inputs := rest }) ∧
    (0x28 ≤ off → s.readReg (regAt off) = 0#32)

/-- R27, U6: a register access that is not an aligned 32-bit one is refused. -/
def Obligations.NarrowAccessIsRefused : Prop :=
  ∀ (s : State) (rest : List Event) (off size : Nat) (v : Word), (size ≠ 4 ∨ off % 4 ≠ 0) →
    (s.inputs = .rd off size :: rest ∨ s.inputs = .wr off size v :: rest) →
    step s = .refused (.registerAccessSize off size)

/-- R112, R113, R65, R57: an idle block with no unacknowledged error accepts any word, and the command's regions belong to
the block: its written region, for `RLEDEC.d` also its source region, and no byte of a word that spells no command (the
list of claims is the model's, assumption log 9). -/
def Obligations.CommandWriteAccepted : Prop :=
  ∀ (s : State) (rest : List Event) (v : Word), s.inputs = .wr 0x00 4 v :: rest → s.phase = .idle →
    s.errv = false →
    ∃ (o : Op) (c : Claim), o = ⟨v, s.base, s.width, s.height, s.src, s.srclen⟩ ∧
      step s = .next { s with
        inputs := rest, cmd := v, op := o, done := false, erow := 0#32, epos := 0#32, phase := .start
        owned := s.owned ++ [c], breach := false } ∧
      (∀ e, decodeCommand v = .error e → ∀ x, c.contains x = false) ∧
      ∀ i, decodeCommand v = .ok i → ∀ x,
        (c.writes x = true ↔ o.B ≤ x ∧ x < o.B + writtenBytes o i) ∧
        (c.contains x = true ↔ c.writes x = true ∨ ((∃ d, i = .rledec d) ∧ o.S ≤ x ∧ x < o.S + o.L))

/-- R114: while `BUSY = 1` or `ERRV = 1` a `CMD` write sets `REJ` and changes nothing else. -/
def Obligations.CommandWriteRejected : Prop :=
  ∀ (s : State) (rest : List Event) (v : Word), s.inputs = .wr 0x00 4 v :: rest →
    (s.phase ≠ .idle ∨ s.errv = true) → step s = .next { s with inputs := rest, rej := true }

/-- R120, R190: the write-1-to-clear bits of `STATUS`. -/
def Obligations.StatusWriteClears : Prop :=
  ∀ (s : State) (rest : List Event) (v : Word), s.inputs = .wr 0x04 4 v :: rest →
    step s = .next { s with
      inputs := rest
      done := if v.getLsbD 1 then false else s.done
      errv := if v.getLsbD 2 = true ∧ s.phase = .idle then false else s.errv
      ecode := if v.getLsbD 2 = true ∧ s.phase = .idle then 0#4 else s.ecode
      rej := if v.getLsbD 3 then false else s.rej }

/-- R32, R193: `irq` rises only by a completion with `IE = 1` or by a write that sets `IE` while `DONE = 1`. R32, R67: a
host that looks at `irq` is answered `IE and DONE`, and `irq` seen high while `BUSY = 0` hands the regions back (the list
of claims is the model's, assumption log 9). -/
def Obligations.IrqRisesOnlyByCompletionOrEnable : Prop :=
  (∀ s t : State, step s = .next t → s.irq = false → t.irq = true →
    (s.busy = true ∧ t.busy = false ∧ t.done = true ∧ s.ie = true) ∨
    (∃ v rest, s.inputs = .wr 0x08 4 v :: rest ∧ v.getLsbD 0 = true ∧ s.done = true)) ∧
  ∀ (s : State) (rest : List Event), s.inputs = .irq :: rest →
    step s = .next { s with
      inputs := rest, reply := .line (s.ie && s.done)
      owned := if s.ie = true ∧ s.done = true ∧ s.phase = .idle then [] else s.owned }

/-! ### The host's own memory accesses (20_memory.md) -/

/-- R41, R51: the host reads and writes bytes it owns. -/
def Obligations.HostMemoryAccess : Prop :=
  ∀ (s : State) (rest : List Event) (a : Nat) (v : Byte), a < s.params.memSize → s.owns a = false →
    (s.inputs = .memRd a :: rest →
      step s = .next { s with inputs := rest, reply := .byte (Memory.read s.mem a) }) ∧
    (s.inputs = .memWr a v :: rest →
      ∃ t, step s = .next t ∧ t = { s with inputs := rest, mem := t.mem } ∧ Memory.read t.mem a = v ∧
        ∀ x, x ≠ a → Memory.read t.mem x = Memory.read s.mem x)

/-- R65, R214, U3: a host write to an owned byte changes no register, and is recorded as a breach of the running command
exactly when the byte is one of that command's own. Memory: the byte is stored, unless a command that owns it writes it; a
byte outside the written regions of the commands that own the written byte stays; and a byte of a command that does not own
the written byte stays, unless a later command that does own it writes that byte too (the list of claims and the field
`breach` are the model's, assumption log 9; so is the keeping of a later command's bytes, assumption log 26). -/
def Obligations.OwnedWriteStaysInsideTheRegions : Prop :=
  ∀ (s : State) (rest : List Event) (a : Nat) (v : Byte), s.inputs = .memWr a v :: rest →
    a < s.params.memSize → s.owns a = true →
    ∃ t, step s = .next t ∧
      t = { s with
        inputs := rest, mem := t.mem, draws := t.draws
        breach := s.breach || (decide (s.phase ≠ .idle) && s.op.regions.any (fun g => g.contains a)) } ∧
      ((∀ c ∈ s.owned, c.contains a = true → c.writes a = false) → Memory.read t.mem a = v) ∧
      (∀ x, x ≠ a → (∀ c ∈ s.owned, c.contains a = true → c.writes x = false) →
        Memory.read t.mem x = Memory.read s.mem x) ∧
      ∀ (before after : List Claim) (c : Claim) (x : Nat), s.owned = before ++ c :: after →
        c.contains a = false → c.contains x = true →
        (∀ d ∈ after, d.contains a = true → d.writes x = false) →
        Memory.read t.mem x = Memory.read s.mem x

/-! ### Start checks and errors (40_command.md, 60_exceptions.md) -/

/-- R117, R185: a buffer region out of range ends every command that has the check with `RangeError`, memory exact. -/
def Obligations.BufferOutOfRange : Prop :=
  ∀ (s : State) (i : Instr) (d : Depth), checkedDepth i = some d → s.breach = false → s.op.bufferBytes d ≠ 0 →
    s.params.memSize < s.op.B + s.op.bufferBytes d →
    exec i s = .next (s.finish (.error .rangeError 0#32 0#32))

/-- R117, R59, R185: a source region out of range, or an overlap of source and destination, ends `RLEDEC.d` with
`RangeError`, memory exact. -/
def Obligations.SourceOutOfRangeOrOverlap : Prop :=
  ∀ (s : State) (d : Depth), s.breach = false →
    ((s.op.L ≠ 0 ∧ s.params.memSize < s.op.S + s.op.L) ∨
      (0 < s.op.L ∧ 0 < s.op.bufferBytes d ∧ s.op.S < s.op.B + s.op.bufferBytes d ∧ s.op.B < s.op.S + s.op.L)) →
    exec (.rledec d) s = .next (s.finish (.error .rangeError 0#32 0#32))

/-- R168, R169, R186: `UNPRED.1` and `PRED.1` always end with `UnsupportedCombination`, whatever their operands. -/
def Obligations.PredictionAtDepthOneUnsupported : Prop :=
  ∀ (s : State) (i : Instr), (i = .unpred1 ∨ i = .pred1) → s.breach = false →
    ∃ t, exec i s = .next t ∧ t.statusWord.getLsbD 2 = true ∧ t.ecode = 3#4 ∧ t.erow = 0#32 ∧ t.epos = 0#32 ∧
      t.mem = s.mem ∧ t = s.finish (.error .unsupportedCombination 0#32 0#32)

/-- R119, R186: what the two completion events write, `s` at the end of a command's body. The zeros of `cur` and the empty
`todo` and `lanes`, which stand for what does not exist outside a command (R211), are the model's choice (assumption log 7);
that the completion without error does not write `ERRV`, `ECODE`, `EROW` and `EPOS` is the model's reading of 'stay 0'
(assumption log 22); `breach` is the model's field (assumption log 9). -/
def Obligations.CompletionEvents : Prop :=
  ∀ (s : State) (k : ErrorKind) (r p : Word),
    s.finish .ok = { s with
      phase := .idle, done := true, cur := ⟨0, 0, 0, 0⟩, todo := [], lanes := [], breach := false } ∧
    s.finish (.error k r p) = { s with
      phase := .idle, done := true, errv := true, erow := r, epos := p
      ecode := (match k with
        | .malformedChannelData => 1#4
        | .corruptCompressedStream => 2#4
        | .unsupportedCombination => 3#4
        | .rangeError => 4#4)
      cur := ⟨0, 0, 0, 0⟩, todo := [], lanes := [], breach := false }

/-- R122: every command, on any operands, is over after its one completion event. -/
def Obligations.EveryCommandEnds : Prop :=
  ∀ (s : State) (i : Instr), IsCommand i → ∃ t, exec i s = .next t ∧ t.phase = .idle ∧ t.done = true

/-- R60, R111, R119, R186: whatever its outcome, a command changes no byte outside its written region and none of the
registers the host writes, but for the error fields. -/
def Obligations.CommandFrame : Prop :=
  ∀ (s t : State) (i : Instr), IsCommand i → exec i s = .next t →
    State.KeepsHostSide s t ∧ Memory.SameOutside s.mem t.mem s.op.B (writtenBytes s.op i)

/-- R142 (d), R189: a started `RLEDEC.d` leaves its source region as it was, however it ends. -/
def Obligations.SourceRegionUnchanged : Prop :=
  ∀ (s t : State) (d : Depth), rleFits s.params.memSize d s.op = true → exec (.rledec d) s = .next t →
    ∀ k, k < s.op.L → Memory.read t.mem (s.op.S + k) = Memory.read s.mem (s.op.S + k)

/-! ### The swapper (42_swap.md) -/

/-- R151, R154: `SWAP.1` and `SWAP.8` complete without error and change no memory; a buffer region out of range is still
`RangeError`. -/
def Obligations.PassThroughSwaps : Prop :=
  ∀ s : State, s.breach = false →
    (bufferFits s.params.memSize .d1 s.op = true → exec .swap1 s = .next (s.finish .ok)) ∧
    (bufferFits s.params.memSize .d1 s.op = false →
      exec .swap1 s = .next (s.finish (.error .rangeError 0#32 0#32))) ∧
    (bufferFits s.params.memSize .d8 s.op = true → exec .swap8 s = .next (s.finish .ok)) ∧
    (bufferFits s.params.memSize .d8 s.op = false →
      exec .swap8 s = .next (s.finish (.error .rangeError 0#32 0#32)))

/-- R152: `SWAP.16` exchanges the two bytes of each of the `W * H` samples. -/
def Obligations.Swap16Result : Prop :=
  ∀ s : State, s.breach = false → bufferFits s.params.memSize .d16 s.op = true →
    ∃ t, exec .swap16 s = .next t ∧ t = { s with mem := t.mem }.finish .ok ∧
      Memory.SameOutside s.mem t.mem s.op.B (s.op.bufferBytes .d16) ∧
      ∀ i, i < s.op.W * s.op.H →
        Memory.read t.mem (s.op.B + 2 * i) = Memory.read s.mem (s.op.B + 2 * i + 1) ∧
        Memory.read t.mem (s.op.B + 2 * i + 1) = Memory.read s.mem (s.op.B + 2 * i)

/-- R153, R52, R53: `SWAP.32` reverses the four bytes of each of the `W * H` samples, so that a sample read in native
order is the value its bytes stood for in on-disk order. -/
def Obligations.Swap32Result : Prop :=
  ∀ s : State, s.breach = false → bufferFits s.params.memSize .d32 s.op = true →
    ∃ t, exec .swap32 s = .next t ∧ t = { s with mem := t.mem }.finish .ok ∧
      Memory.SameOutside s.mem t.mem s.op.B (s.op.bufferBytes .d32) ∧
      ∀ i k, i < s.op.W * s.op.H → k < 4 →
        Memory.read t.mem (s.op.B + 4 * i + k) = Memory.read s.mem (s.op.B + 4 * i + (3 - k)) ∧
        Memory.read32 t.mem (s.op.B + 4 * i) =
          Memory.read s.mem (s.op.B + 4 * i) ++ Memory.read s.mem (s.op.B + 4 * i + 1) ++
            Memory.read s.mem (s.op.B + 4 * i + 2) ++ Memory.read s.mem (s.op.B + 4 * i + 3)

/-- R155: running `SWAP.d` twice with the same operands leaves every byte as it was. -/
def Obligations.SwapIsAnInvolution : Prop :=
  ∀ (s : State) (d : Depth), s.breach = false → bufferFits s.params.memSize d s.op = true →
    ∃ t u, exec (.swap d) s = .next t ∧ exec (.swap d) t = .next u ∧ Memory.Same s.mem u.mem

/-! ### The prediction unit (43_pred.md) -/

/-- R161, R163: `UNPRED.8` leaves in column `j` of each row the sum modulo 256 of the row's columns 0 to `j`. -/
def Obligations.Unpred8Result : Prop :=
  ∀ s : State, s.breach = false → bufferFits s.params.memSize .d8 s.op = true →
    ∃ t, exec .unpred8 s = .next t ∧ t = { s with mem := t.mem }.finish .ok ∧
      Memory.SameOutside s.mem t.mem s.op.B (s.op.bufferBytes .d8) ∧
      ∀ r j, r < s.op.H → j < s.op.W →
        Memory.read t.mem (s.op.B + r * s.op.W + j) = Memory.sum8 s.mem (s.op.B + r * s.op.W) j

/-- R162, R163: `PRED.8` leaves column 0 and puts into column `j >= 1` the difference to column `j - 1` before. -/
def Obligations.Pred8Result : Prop :=
  ∀ s : State, s.breach = false → bufferFits s.params.memSize .d8 s.op = true →
    ∃ t, exec .pred8 s = .next t ∧ t = { s with mem := t.mem }.finish .ok ∧
      Memory.SameOutside s.mem t.mem s.op.B (s.op.bufferBytes .d8) ∧
      ∀ r j, r < s.op.H → j < s.op.W →
        Memory.read t.mem (s.op.B + r * s.op.W + j) =
          if j = 0 then Memory.read s.mem (s.op.B + r * s.op.W + j)
          else Memory.read s.mem (s.op.B + r * s.op.W + j) - Memory.read s.mem (s.op.B + r * s.op.W + (j - 1))

/-- R164, R163: `UNPRED.16`, on native 16-bit samples, modulo 65536. -/
def Obligations.Unpred16Result : Prop :=
  ∀ s : State, s.breach = false → bufferFits s.params.memSize .d16 s.op = true →
    ∃ t, exec .unpred16 s = .next t ∧ t = { s with mem := t.mem }.finish .ok ∧
      Memory.SameOutside s.mem t.mem s.op.B (s.op.bufferBytes .d16) ∧
      ∀ r j, r < s.op.H → j < s.op.W →
        Memory.read16 t.mem (s.op.B + 2 * (r * s.op.W + j)) =
          Memory.sum16 s.mem (s.op.B + 2 * (r * s.op.W)) j

/-- R165, R163: `PRED.16`, on native 16-bit samples, modulo 65536. -/
def Obligations.Pred16Result : Prop :=
  ∀ s : State, s.breach = false → bufferFits s.params.memSize .d16 s.op = true →
    ∃ t, exec .pred16 s = .next t ∧ t = { s with mem := t.mem }.finish .ok ∧
      Memory.SameOutside s.mem t.mem s.op.B (s.op.bufferBytes .d16) ∧
      ∀ r j, r < s.op.H → j < s.op.W →
        Memory.read16 t.mem (s.op.B + 2 * (r * s.op.W + j)) =
          if j = 0 then Memory.read16 s.mem (s.op.B + 2 * (r * s.op.W + j))
          else Memory.read16 s.mem (s.op.B + 2 * (r * s.op.W + j)) -
            Memory.read16 s.mem (s.op.B + 2 * (r * s.op.W + (j - 1)))

/-- R166, R163: `UNPRED.32`: byte `k` of word `j` becomes the sum over plane `pi(k)` up to column `j`, or, with
`PLANE_CARRY`, over the row up to that byte. (With `W = 1` and `PLANE_CARRY` the chain still runs through the four one-byte
planes: the model's choice, assumption log 25.) -/
def Obligations.Unpred32Result : Prop :=
  ∀ s : State, s.breach = false → bufferFits s.params.memSize .d32 s.op = true →
    ∃ t, exec .unpred32 s = .next t ∧ t = { s with mem := t.mem }.finish .ok ∧
      Memory.SameOutside s.mem t.mem s.op.B (s.op.bufferBytes .d32) ∧
      ∀ r j k, r < s.op.H → j < s.op.W → k < 4 →
        Memory.read t.mem (s.op.B + 4 * r * s.op.W + 4 * j + k) =
          if s.params.planeCarry then
            Memory.sum8 s.mem (s.op.B + 4 * r * s.op.W) (s.params.planeOrder.plane k * s.op.W + j)
          else
            Memory.sum8 s.mem (s.op.B + 4 * r * s.op.W + s.params.planeOrder.plane k * s.op.W) j

/-- R167, R163: `PRED.32`, for a `PLANE_ORDER` that is a permutation (R5): byte `k` of word `j` goes to column `j` of
plane `pi(k)` as its difference to the byte before it in the plane, or, with `PLANE_CARRY`, in the whole row. (With `W = 1`
and `PLANE_CARRY` the differences still run through the four one-byte planes: the model's choice, assumption log 25.) -/
def Obligations.Pred32Result : Prop :=
  ∀ s : State, s.breach = false → bufferFits s.params.memSize .d32 s.op = true → s.params.planeOrder.wf = true →
    ∃ t, exec .pred32 s = .next t ∧ t = { s with mem := t.mem }.finish .ok ∧
      Memory.SameOutside s.mem t.mem s.op.B (s.op.bufferBytes .d32) ∧
      ∀ r j k, r < s.op.H → j < s.op.W → k < 4 →
        (0 < j →
          Memory.read t.mem (s.op.B + 4 * r * s.op.W + (s.params.planeOrder.plane k * s.op.W + j)) =
            Memory.read s.mem (s.op.B + 4 * r * s.op.W + 4 * j + k) -
              Memory.read s.mem (s.op.B + 4 * r * s.op.W + 4 * (j - 1) + k)) ∧
        (j = 0 → s.params.planeCarry = false ∨ s.params.planeOrder.plane k = 0 →
          Memory.read t.mem (s.op.B + 4 * r * s.op.W + (s.params.planeOrder.plane k * s.op.W + j)) =
            Memory.read s.mem (s.op.B + 4 * r * s.op.W + 4 * j + k)) ∧
        (j = 0 → s.params.planeCarry = true → ∀ q, q < 4 →
          s.params.planeOrder.plane q + 1 = s.params.planeOrder.plane k →
          Memory.read t.mem (s.op.B + 4 * r * s.op.W + (s.params.planeOrder.plane k * s.op.W + j)) =
            Memory.read s.mem (s.op.B + 4 * r * s.op.W + 4 * j + k) -
              Memory.read s.mem (s.op.B + 4 * r * s.op.W + 4 * (s.op.W - 1) + q))

/-- R171: `UNPRED.d` after `PRED.d` with the same operands restores every byte, and so does `PRED.d` after `UNPRED.d`,
for every `PLANE_ORDER` that is a permutation and either `PLANE_CARRY`. -/
def Obligations.PredictionRoundTrip : Prop :=
  ∀ (s : State) (d : Depth), d ≠ .d1 → s.breach = false → bufferFits s.params.memSize d s.op = true →
    s.params.planeOrder.wf = true →
    (∃ t u, exec (.pred d) s = .next t ∧ exec (.unpred d) t = .next u ∧ Memory.Same s.mem u.mem) ∧
    (∃ t u, exec (.unpred d) s = .next t ∧ exec (.pred d) t = .next u ∧ Memory.Same s.mem u.mem)

/-- R156, R170: in whatever order the rows (samples) of an in-place command are taken, every byte ends the same. -/
def Obligations.ItemOrderIsFree : Prop :=
  ∀ (p : Params) (o : Op) (i : Instr) (w : Work) (l : List Nat) (m : Memory), inPlaceWork p o i = some w →
    l.Perm (List.range w.count) → Memory.Same (runItems w.prog (List.range w.count) m) (runItems w.prog l m)

/-- R5, R38, R170: the number of lanes changes nothing but itself in what a command does. -/
def Obligations.LaneCountDoesNotMatter : Prop :=
  ∀ (s t : State) (i : Instr) (n : Nat), IsCommand i → exec i s = .next t →
    exec i (s.withLanes n) = .next (t.withLanes n)

/-- R30, R113: what runs reads the latch: other values in the operand registers change nothing but themselves. -/
def Obligations.CommandReadsOnlyTheLatch : Prop :=
  ∀ (s t : State) (i : Instr) (c : CommandLine), exec i s = .next t →
    exec i (s.withOperands c) = .next (t.withOperands c)

/-! ### The RLE decoder (41_rle.md) -/

/-- R132: a literal packet that fits the row and the source. -/
def Obligations.LitCopiesItsBytes : Prop :=
  ∀ (s : State) (c : BitVec 7), s.cur.out + (c.toNat + 1) ≤ s.cur.rb → s.cur.sp + (c.toNat + 2) ≤ s.op.L →
    s.rleSrc + (c.toNat + 2) ≤ s.params.memSize → s.rleDst + (c.toNat + 1) ≤ s.params.memSize →
    (s.rleSrc + (c.toNat + 2) ≤ s.rleDst ∨ s.rleDst + (c.toNat + 1) ≤ s.rleSrc) →
    ∃ t, exec (.lit c) s = .next t ∧
      t = { s with
        mem := t.mem
        cur := ⟨s.cur.sp + (c.toNat + 2), s.cur.row, s.cur.out + (c.toNat + 1), s.cur.rb⟩ } ∧
      Memory.SameOutside s.mem t.mem (s.op.B + s.cur.row * s.cur.rb + s.cur.out) (c.toNat + 1) ∧
      ∀ k, k < c.toNat + 1 →
        Memory.read t.mem (s.op.B + s.cur.row * s.cur.rb + s.cur.out + k) =
          Memory.read s.mem (s.op.S + s.cur.sp + 1 + k)

/-- R133: a repeat packet that fits the row and the source. -/
def Obligations.RptRepeatsItsByte : Prop :=
  ∀ (s : State) (c : BitVec 7), c ≠ 0#7 → s.cur.out + (129 - c.toNat) ≤ s.cur.rb → s.cur.sp + 2 ≤ s.op.L →
    s.rleSrc + 2 ≤ s.params.memSize → s.rleDst + (129 - c.toNat) ≤ s.params.memSize →
    ∃ t, exec (.rpt c) s = .next t ∧
      t = { s with
        mem := t.mem
        cur := ⟨s.cur.sp + 2, s.cur.row, s.cur.out + (129 - c.toNat), s.cur.rb⟩ } ∧
      Memory.SameOutside s.mem t.mem (s.op.B + s.cur.row * s.cur.rb + s.cur.out) (129 - c.toNat) ∧
      ∀ k, k < 129 - c.toNat →
        Memory.read t.mem (s.op.B + s.cur.row * s.cur.rb + s.cur.out + k) =
          Memory.read s.mem (s.op.S + s.cur.sp + 1)

/-- R134: the no-op marker. -/
def Obligations.NopOnlyMovesTheOffset : Prop :=
  ∀ s : State, exec .nop s = .next { s with cur := ⟨s.cur.sp + 1, s.cur.row, s.cur.out, s.cur.rb⟩ }

/-- R141, R187, R189: a packet that would cross the row end, or else one cut off by the source end; the row test comes
first. -/
def Obligations.PacketErrors : Prop :=
  ∀ (s : State) (p : Packet), p ≠ .nop → s.breach = false →
    (s.cur.rb < s.cur.out + packetCount p →
      ∃ t, exec p.instr s = .next t ∧ Memory.SameOutside s.mem t.mem s.op.B (s.op.H * s.cur.rb) ∧
        t = { s with mem := t.mem, draws := t.draws }.finish
          (.error .malformedChannelData (BitVec.ofNat 32 s.cur.row) (BitVec.ofNat 32 s.cur.sp))) ∧
    (s.cur.out + packetCount p ≤ s.cur.rb → s.op.L < s.cur.sp + packetNeed p →
      ∃ t, exec p.instr s = .next t ∧ Memory.SameOutside s.mem t.mem s.op.B (s.op.H * s.cur.rb) ∧
        t = { s with mem := t.mem, draws := t.draws }.finish
          (.error .corruptCompressedStream (BitVec.ofNat 32 s.cur.row) (BitVec.ofNat 32 s.cur.sp)))

/-- R131, R93: `RLEDEC.d` on a source that spells `H` rows completes without error and leaves in the destination, row
after row, exactly the bytes the packets spell. -/
def Obligations.RledecDecodesSpelledRows : Prop :=
  ∀ (s : State) (d : Depth) (rows : List (List SrcPacket)), s.breach = false →
    rleFits s.params.memSize d s.op = true → rows.length = s.op.H →
    (∀ ps ∈ rows, RowOf (rowBytes d s.op.W) ps) → (streamBytes rows.flatten).length = s.op.L →
    Memory.Holds s.mem s.op.S (streamBytes rows.flatten) →
    ∃ t, exec (.rledec d) s = .next t ∧ t = { s with mem := t.mem }.finish .ok ∧
      Memory.SameOutside s.mem t.mem s.op.B (s.op.bufferBytes d) ∧
      Memory.Holds t.mem s.op.B (producedBytes rows.flatten)

/-- R131, R136, R142 (c): an `RLEDEC.d` that ends without error has used up a source that spells `H` rows, and the
destination holds their bytes. -/
def Obligations.RledecSuccessSpellsRows : Prop :=
  ∀ (s t : State) (d : Depth), s.breach = false → s.errv = false →
    exec (.rledec d) s = .next t → t.errv = false →
    ∃ rows : List (List SrcPacket), rows.length = s.op.H ∧ (∀ ps ∈ rows, RowOf (rowBytes d s.op.W) ps) ∧
      (streamBytes rows.flatten).length = s.op.L ∧ Memory.Holds s.mem s.op.S (streamBytes rows.flatten) ∧
      Memory.Holds t.mem s.op.B (producedBytes rows.flatten)

/-! ### Two views of a command (40_command.md R121) -/

/-- R121: an `RLEDEC.d` taken turn by turn reaches the state its one completion event gives. -/
def Obligations.RledecTurnByTurnAgrees : Prop :=
  ∀ (s : State) (d : Depth), s.phase = .start → s.op.word = commandWord (.rledec d) →
    ∃ n, Sys2Proof.core.run n { s with inputs := turnMoves (List.replicate n (0, 0)) } =
      exec (.rledec d) { s with inputs := [] }

/-- R38, R121, R156, R170: an in-place command taken turn by turn, on any schedule of lanes and any choice of rows, never
faults, and once it is over its state is the one the completion event gives. -/
def Obligations.EveryScheduleAgrees : Prop :=
  ∀ (s : State) (i : Instr) (w : Work) (schedule : List (Nat × Nat)), inPlaceWork s.params s.op i = some w →
    s.phase = .start → s.op.word = commandWord i → Memory.wf s.mem = true →
    ∃ t, Sys2Proof.core.run schedule.length { s with inputs := turnMoves schedule } = .next t ∧
      (t.phase = .idle → exec i { s with inputs := [] } = .next t)

/-! ### The whole machine -/

/-- R23: every step keeps the invariants of `STATUS`. -/
def Obligations.StatusInvariantKept : Prop := ∀ s t : State, s.StatusInv → step s = .next t → t.StatusInv

/-- R51: every step keeps memory canonical and inside `[0, MEMSIZE)` (canonical form: assumption log 4). -/
def Obligations.MemoryInvariantKept : Prop := ∀ s t : State, s.MemInv → step s = .next t → t.MemInv

/-- R33, R34, R58: every step keeps the ranges of the stream cursors. -/
def Obligations.StreamInvariantKept : Prop := ∀ s t : State, s.StreamInv → step s = .next t → t.StreamInv

/-- R38: every step keeps the rows in lanes and the waiting rows distinct rows of the command; while the rows last, no row
comes to wait again, and a lane's row is one a lane had or one that waited, so a row is taken at most once. -/
def Obligations.ItemsInvariantKept : Prop :=
  ∀ s t : State, s.ItemsInv → step s = .next t →
    t.ItemsInv ∧
    (s.phase = .items → t.phase = .items →
      (∀ i ∈ t.todo, i ∈ s.todo) ∧
      ∀ i ∈ t.lanes.filterMap (fun l => l.map Lane.item),
        i ∈ s.lanes.filterMap (fun l => l.map Lane.item) ∨ i ∈ s.todo)

/-- R40: the invariants hold in every reset state whose memory is canonical and inside `[0, MEMSIZE)`, and in
`State.reset` (whose memory contents and `MEMSIZE` are the model's choice, assumption log 3 and 4). -/
def Obligations.InvariantsAtReset : Prop :=
  (∀ (p : Params) (m : Memory), Memory.wf m = true → Memory.within p.memSize m = true →
    (State.resetWith p m).StatusInv ∧ (State.resetWith p m).MemInv ∧ (State.resetWith p m).StreamInv ∧
      (State.resetWith p m).ItemsInv) ∧
  State.reset.StatusInv ∧ State.reset.MemInv ∧ State.reset.StreamInv ∧ State.reset.ItemsInv

/-- R58, R60, R180: in a state that meets the stream and item invariants a step whose host move keeps to the map answers a
next state: the block never faults (the fault of a packet or a lane turn is the model's, assumption log 16). And an
in-place command whose buffer is in range touches no byte outside it and none that does not exist. -/
def Obligations.BlockNeverFaults : Prop :=
  (∀ s : State, s.StreamInv → s.ItemsInv → s.HostKeepsToTheMap → ∃ t, step s = .next t) ∧
  ∀ (p : Params) (o : Op) (i : Instr) (w : Work), inPlaceWork p o i = some w →
    bufferFits p.memSize w.depth o = true →
    ∀ j, j < w.count → ∀ b ∈ w.prog j, ∀ x ∈ b.touched,
      o.B ≤ x ∧ x < o.B + writtenBytes o i ∧ x < p.memSize

/-- R29: `IDLE` becomes `RUNNING` only by an accepted `CMD` write; `RUNNING` becomes `IDLE` only by a completion, which
sets `DONE`, or by `rst`. -/
def Obligations.SequencerTransitions : Prop :=
  ∀ s t : State, step s = .next t →
    (s.phase = .idle → t.phase ≠ .idle →
      ∃ v rest, s.inputs = .wr 0x00 4 v :: rest ∧ s.errv = false ∧ t.phase = .start ∧ t.cmd = v) ∧
    (s.phase ≠ .idle → t.phase = .idle → t.done = true ∨ ∃ rest, s.inputs = .rst :: rest)

/-- R21: the block never writes an operand register: only a host write of it, or `rst`, changes one; and no step changes
the parameters (R39). -/
def Obligations.OperandRegistersOnlyByHost : Prop :=
  ∀ s t : State, step s = .next t →
    t.params = s.params ∧
    ((t.base = s.base ∧ t.width = s.width ∧ t.height = s.height ∧ t.src = s.src ∧ t.srclen = s.srclen) ∨
      (∃ rest, s.inputs = .rst :: rest) ∨
      ∃ off v rest, s.inputs = .wr off 4 v :: rest ∧
        (off = 0x0C ∨ off = 0x10 ∨ off = 0x14 ∨ off = 0x18 ∨ off = 0x1C))

/-- R122, R142 (b): a running stream ends after at most one turn per source byte left, one per row left, and one more. -/
def Obligations.StreamEndsInBoundedTurns : Prop :=
  ∀ s : State, s.StreamInv → s.phase = .stream → s.inputs = [] →
    ∃ n t, n ≤ (s.op.L - s.cur.sp) + (s.op.H - s.cur.row) + 1 ∧ Sys2Proof.core.run n s = .next t ∧ t.phase = .idle

/-- R122, R38: a block at work on rows or samples, left alone by the host, comes to its join. -/
def Obligations.RowsEndWhenTheHostIsSilent : Prop :=
  ∀ s : State, s.ItemsInv → s.phase = .items → s.inputs = [] → 1 ≤ s.params.lanes →
    ∃ n t, Sys2Proof.core.run n s = .next t ∧ t.phase = .idle ∧ t.done = true

/-- R91, R92, R94, R66. On an idle block with no unacknowledged error, the moves of a command line leave the block at the
start checks with the line's operands and word latched, its `WAIT` next: six moves for `RLEDEC.d`, four for every other
command, which leaves `SRC` and `SRCLEN` alone. A `WAIT` lets the started command run, stays while it runs, and once it is
over is the `STATUS` read that shows it, which drops the rest of an expansion after an error (`WAIT` as one host move that
lets the block move is the model's choice, assumption log 21). The expansions run the command words of the table of R94. -/
def Obligations.CommandLineStartsItsCommand : Prop :=
  (∀ (s : State) (c : CommandLine) (i : Instr) (is : List Instr) (rest : List Event), IsCommand i →
    s.phase = .idle → s.errv = false → s.inputs = commandMoves c (i :: is) ++ rest →
    ((∃ d, i = .rledec d) →
      ∃ t, Sys2Proof.core.run 6 s = .next t ∧ t.phase = .start ∧ t.mem = s.mem ∧
        t.inputs = .wait (commandMoves c is).length :: (commandMoves c is ++ rest) ∧
        t.op = ⟨commandWord i, c.base, c.width, c.height, c.src, c.srclen⟩) ∧
    ((∀ d, i ≠ .rledec d) →
      ∃ t, Sys2Proof.core.run 4 s = .next t ∧ t.phase = .start ∧ t.mem = s.mem ∧
        t.inputs = .wait (commandMoves c is).length :: (commandMoves c is ++ rest) ∧
        t.op = ⟨commandWord i, c.base, c.width, c.height, s.src, s.srclen⟩)) ∧
  (∀ (s : State) (skip : Nat) (rest : List Event), s.inputs = .wait skip :: rest →
    (∀ i, s.phase = .start → decodeCommand s.op.word = .ok i → step s = exec i s) ∧
    (s.phase = .idle →
      step s = .next { s with
        inputs := if s.errv then rest.drop skip else rest, reply := .word s.statusWord, owned := [] })) ∧
  (∀ (c : CommandLine) (p : Pseudo), pseudoMoves c p = commandMoves c (pseudoCommands p)) ∧
  ∀ e ∈ [(Pseudo.raw .d1, [0x02#32]), (.raw .d8, [0x12#32]), (.raw .d16, [0x22#32]), (.raw .d32, [0x32#32]),
      (.rle .d1, [0x01#32]), (.rle .d8, [0x11#32]), (.rle .d16, [0x21#32]), (.rle .d32, [0x31#32]),
      (.zip .d1, [0x02#32]), (.zip .d8, [0x12#32]), (.zip .d16, [0x22#32]), (.zip .d32, [0x32#32]),
      (.zipPred .d1, [0x03#32]), (.zipPred .d8, [0x12#32, 0x13#32]), (.zipPred .d16, [0x22#32, 0x23#32]),
      (.zipPred .d32, [0x33#32, 0x32#32]), (.encZipPred8, [0x14#32, 0x12#32]),
      (.encZipPred16, [0x24#32, 0x22#32]), (.encZipPred32, [0x32#32, 0x34#32]),
      (.encZip .d1, [0x02#32]), (.encZip .d8, [0x12#32]), (.encZip .d16, [0x22#32]), (.encZip .d32, [0x32#32]),
      (.encRaw .d1, [0x02#32]), (.encRaw .d8, [0x12#32]), (.encRaw .d16, [0x22#32]), (.encRaw .d32, [0x32#32])],
    (pseudoCommands e.1).map commandWord = e.2
end

