-- ==== Sys2Proof/Laws/Memory.lean ====
section
/-! SUPPORT. What the memory operations do: one lemma each for reading after them, for the canonical form and for the
address bound; and that canonical memories with equal reads are equal. -/

namespace Sys2Proof.Machine

@[simp] theorem Memory.read_nil (a : Nat) : Memory.read [] a = unlistedByte := rfl

theorem Memory.read_insert (m : Memory) (a x : Nat) (v : Byte) :
    Memory.read (Memory.insert m a v) x = if x = a then v else Memory.read m x := by
  induction m with
  | nil => simp only [Memory.insert, Memory.read]; split <;> split <;> first | rfl | omega
  | cons c m ih =>
    simp only [Memory.insert]
    by_cases h1 : a < c.1
    · simp only [if_pos h1, Memory.read]
      by_cases hx : x = a
      · simp [hx]
      · simp [hx, Ne.symm hx]
    · rw [if_neg h1]
      by_cases h2 : a = c.1
      · rw [if_pos h2]
        simp only [Memory.read]
        by_cases hx : x = a
        · simp [hx]
        · have : ¬ c.1 = x := by omega
          simp [hx, this, Ne.symm hx]
      · rw [if_neg h2]
        simp only [Memory.read, ih]
        by_cases hc : c.1 = x
        · have : ¬ x = a := by omega
          simp [hc, this]
        · simp [hc]

theorem Memory.read_filter (m : Memory) (a x : Nat) :
    Memory.read (m.filter (fun c => decide (c.1 ≠ a))) x = if x = a then unlistedByte else Memory.read m x := by
  induction m with
  | nil => simp
  | cons c m ih =>
    by_cases h : c.1 = a
    · simp only [List.filter_cons, h, ne_eq, not_true_eq_false, decide_false, Bool.false_eq_true, if_false]
      rw [show (List.filter (fun c : Host.Cell => decide (¬c.1 = a)) m) =
        m.filter (fun c => decide (c.1 ≠ a)) from rfl, ih]
      by_cases hx : x = a
      · simp [hx]
      · have : ¬ c.1 = x := by omega
        simp [hx, Memory.read, this]
    · simp only [List.filter_cons, h, ne_eq, not_false_eq_true, decide_true, if_true, Memory.read]
      rw [show (List.filter (fun c : Host.Cell => decide (¬c.1 = a)) m) =
        m.filter (fun c => decide (c.1 ≠ a)) from rfl, ih]
      by_cases hc : c.1 = x
      · have : ¬ x = a := by omega
        simp [hc, this]
      · simp [hc]

/-- A read after a write: the byte written there, any other byte as before. -/
@[simp] theorem Memory.read_write (m : Memory) (a x : Nat) (v : Byte) :
    Memory.read (Memory.write m a v) x = if x = a then v else Memory.read m x := by
  unfold Memory.write
  split
  · next h => rw [Memory.read_filter, h]
  · exact Memory.read_insert m a x v

theorem Memory.mem_insert {m : Memory} {a : Nat} {v : Byte} {c : Host.Cell}
    (h : c ∈ Memory.insert m a v) : c = (a, v) ∨ c ∈ m := by
  induction m with
  | nil => simpa [Memory.insert] using h
  | cons d m ih =>
    simp only [Memory.insert] at h
    split at h
    · simpa using h
    · split at h
      · rcases List.mem_cons.1 h with h | h
        · exact .inl h
        · exact .inr (List.mem_cons_of_mem _ h)
      · rcases List.mem_cons.1 h with h | h
        · exact .inr (by simp [h])
        · rcases ih h with h | h
          · exact .inl h
          · exact .inr (List.mem_cons_of_mem _ h)

theorem Memory.wf_cons {c : Host.Cell} {m : Memory} :
    Memory.wf (c :: m) = true ↔ c.2 ≠ unlistedByte ∧ (∀ d ∈ m, c.1 < d.1) ∧ Memory.wf m = true := by
  simp [Memory.wf, and_assoc]

theorem Memory.wf_insert {m : Memory} {a : Nat} {v : Byte} (hv : v ≠ unlistedByte) (h : Memory.wf m = true) :
    Memory.wf (Memory.insert m a v) = true := by
  induction m with
  | nil => simp [Memory.insert, Memory.wf, hv]
  | cons c m ih =>
    obtain ⟨h1, h2, h3⟩ := Memory.wf_cons.1 h
    simp only [Memory.insert]
    split
    · next hlt =>
      refine Memory.wf_cons.2 ⟨hv, fun d hd => ?_, h⟩
      rcases List.mem_cons.1 hd with rfl | hd
      · exact hlt
      · exact lt_trans hlt (h2 d hd)
    · split
      · next heq => exact Memory.wf_cons.2 ⟨hv, fun d hd => heq ▸ h2 d hd, h3⟩
      · refine Memory.wf_cons.2 ⟨h1, fun d hd => ?_, ih h3⟩
        rcases Memory.mem_insert hd with rfl | hd
        · simp only; omega
        · exact h2 d hd

theorem Memory.wf_filter {m : Memory} (q : Host.Cell → Bool) (h : Memory.wf m = true) :
    Memory.wf (m.filter q) = true := by
  induction m with
  | nil => rfl
  | cons c m ih =>
    obtain ⟨h1, h2, h3⟩ := Memory.wf_cons.1 h
    rw [List.filter_cons]
    split
    · exact Memory.wf_cons.2 ⟨h1, fun d hd => h2 d (List.mem_filter.1 hd).1, ih h3⟩
    · exact ih h3

/-- A write keeps the canonical form. -/
theorem Memory.wf_write {m : Memory} (a : Nat) (v : Byte) (h : Memory.wf m = true) :
    Memory.wf (Memory.write m a v) = true := by
  unfold Memory.write
  split
  · exact Memory.wf_filter _ h
  · next hv => exact Memory.wf_insert hv h

theorem Memory.within_iff {n : Nat} {m : Memory} : Memory.within n m = true ↔ ∀ c ∈ m, c.1 < n := by
  simp [Memory.within]

/-- A write below the bound keeps every listed address below it. -/
theorem Memory.within_write {m : Memory} {n a : Nat} (v : Byte) (ha : a < n) (h : Memory.within n m = true) :
    Memory.within n (Memory.write m a v) = true := by
  rw [Memory.within_iff] at h ⊢
  unfold Memory.write
  intro c hc
  split at hc
  · exact h c (List.mem_filter.1 hc).1
  · rcases Memory.mem_insert hc with rfl | hc
    · exact ha
    · exact h c hc

theorem Memory.read_eq_unlisted {m : Memory} {a : Nat} (h : ∀ c ∈ m, a < c.1) : Memory.read m a = unlistedByte := by
  induction m with
  | nil => rfl
  | cons c m ih =>
    have := h c (by simp)
    rw [Memory.read, if_neg (by omega)]
    exact ih (fun d hd => h d (by simp [hd]))

/-- Canonical memories that read the same everywhere are the same list. -/
theorem Memory.ext_of_wf {m k : Memory} (hm : Memory.wf m = true) (hk : Memory.wf k = true)
    (h : ∀ x, Memory.read m x = Memory.read k x) : m = k := by
  induction m generalizing k with
  | nil =>
    cases k with
    | nil => rfl
    | cons d k =>
      obtain ⟨h1, _, _⟩ := Memory.wf_cons.1 hk
      have := h d.1
      simp only [Memory.read, if_true] at this
      exact absurd this.symm h1
  | cons c m ih =>
    obtain ⟨hc, hcm, hm'⟩ := Memory.wf_cons.1 hm
    cases k with
    | nil =>
      have := h c.1
      simp only [Memory.read, if_true] at this
      exact absurd this hc
    | cons d k =>
      obtain ⟨hd, hdk, hk'⟩ := Memory.wf_cons.1 hk
      have hlt1 : ¬ c.1 < d.1 := by
        intro hlt
        have h' := h c.1
        rw [Memory.read, if_pos rfl, Memory.read_eq_unlisted (fun e he => ?_)] at h'
        · exact hc h'
        · rcases List.mem_cons.1 he with rfl | he
          · exact hlt
          · exact lt_trans hlt (hdk e he)
      have hlt2 : ¬ d.1 < c.1 := by
        intro hlt
        have h' := h d.1
        rw [Memory.read_eq_unlisted (fun e he => ?_), Memory.read, if_pos rfl] at h'
        · exact hd h'.symm
        · rcases List.mem_cons.1 he with rfl | he
          · exact hlt
          · exact lt_trans hlt (hcm e he)
      have hadr : c.1 = d.1 := by omega
      have hval : c.2 = d.2 := by
        have h' := h c.1
        rw [Memory.read, if_pos rfl, Memory.read, if_pos hadr.symm] at h'
        exact h'
      have htail : m = k := by
        refine ih hm' hk' (fun x => ?_)
        by_cases hx : x = c.1
        · rw [Memory.read_eq_unlisted (fun e he => hx ▸ hcm e he),
            Memory.read_eq_unlisted (fun e he => by rw [hx, hadr]; exact hdk e he)]
        · have h' := h x
          rw [Memory.read, if_neg (Ne.symm hx), Memory.read, if_neg (by rw [← hadr]; exact Ne.symm hx)] at h'
          exact h'
      rw [htail, Prod.ext hadr hval]

/-! ### Runs of writes -/

@[simp] theorem Memory.read_fill (m : Memory) (v : Byte) (d n x : Nat) :
    Memory.read (Memory.fill m v d n) x = if d ≤ x ∧ x < d + n then v else Memory.read m x := by
  induction n generalizing m d with
  | zero => simp only [Memory.fill]; rw [if_neg (by omega)]
  | succ n ih =>
    simp only [Memory.fill, ih, Memory.read_write]
    by_cases h : x = d
    · subst h; simp
    · by_cases h1 : d + 1 ≤ x ∧ x < d + 1 + n
      · rw [if_pos h1, if_pos (by omega)]
      · rw [if_neg h1, if_neg h, if_neg (by omega)]

/-- Outside the bytes written a copy changes nothing. -/
theorem Memory.read_copy_outside (m : Memory) (src dst n x : Nat) (h : x < dst ∨ dst + n ≤ x) :
    Memory.read (Memory.copy m src dst n) x = Memory.read m x := by
  induction n generalizing m src dst with
  | zero => rfl
  | succ n ih =>
    rw [Memory.copy, ih _ _ _ (by omega), Memory.read_write, if_neg (by omega)]

/-- A copy between disjoint ranges. -/
theorem Memory.read_copy (m : Memory) (src dst n k : Nat) (hk : k < n) (h : src + n ≤ dst ∨ dst + n ≤ src) :
    Memory.read (Memory.copy m src dst n) (dst + k) = Memory.read m (src + k) := by
  induction n generalizing m src dst k with
  | zero => omega
  | succ n ih =>
    rw [Memory.copy]
    cases k with
    | zero => rw [Memory.read_copy_outside _ _ _ _ _ (by omega)]; simp
    | succ k =>
      rw [show dst + (k + 1) = dst + 1 + k by omega, ih _ _ _ _ (by omega) (by omega),
        Memory.read_write, if_neg (by omega)]
      congr 1; omega

/-- Bytes outside the range, and the bytes kept, stay. -/
theorem Memory.read_fillFree (keep : Nat → Bool) (m : Memory) (a n d x : Nat)
    (h : x < a ∨ a + n ≤ x ∨ keep x = true) : Memory.read (Memory.fillFree keep m a n d) x = Memory.read m x := by
  induction n generalizing m a d with
  | zero => rfl
  | succ n ih =>
    rw [Memory.fillFree, ih _ _ _ (h.imp (by omega) (.imp_left (by omega)))]
    split
    · rfl
    · next hk =>
      rw [Memory.read_write, if_neg]
      rintro rfl
      rcases h with h | h | h
      · omega
      · omega
      · exact hk h

theorem Memory.wf_fill {m : Memory} (v : Byte) (d n : Nat) (h : Memory.wf m = true) :
    Memory.wf (Memory.fill m v d n) = true := by
  induction n generalizing m d with
  | zero => exact h
  | succ n ih => exact ih _ (Memory.wf_write _ _ h)

theorem Memory.wf_copy {m : Memory} (src dst n : Nat) (h : Memory.wf m = true) :
    Memory.wf (Memory.copy m src dst n) = true := by
  induction n generalizing m src dst with
  | zero => exact h
  | succ n ih => exact ih _ _ (Memory.wf_write _ _ h)

theorem Memory.wf_fillFree {m : Memory} (keep : Nat → Bool) (a n d : Nat) (h : Memory.wf m = true) :
    Memory.wf (Memory.fillFree keep m a n d) = true := by
  induction n generalizing m a d with
  | zero => exact h
  | succ n ih =>
    refine ih _ _ ?_
    split
    · exact h
    · exact Memory.wf_write _ _ h

theorem Memory.within_fill {m : Memory} {b : Nat} (v : Byte) (d n : Nat) (hb : n = 0 ∨ d + n ≤ b)
    (h : Memory.within b m = true) : Memory.within b (Memory.fill m v d n) = true := by
  induction n generalizing m d with
  | zero => exact h
  | succ n ih => exact ih _ (by omega) (Memory.within_write _ (by omega) h)

theorem Memory.within_copy {m : Memory} {b : Nat} (src dst n : Nat) (hb : n = 0 ∨ dst + n ≤ b)
    (h : Memory.within b m = true) : Memory.within b (Memory.copy m src dst n) = true := by
  induction n generalizing m src dst with
  | zero => exact h
  | succ n ih => exact ih _ _ (by omega) (Memory.within_write _ (by omega) h)

theorem Memory.within_fillFree {m : Memory} {b : Nat} (keep : Nat → Bool) (a n d : Nat) (hb : n = 0 ∨ a + n ≤ b)
    (h : Memory.within b m = true) : Memory.within b (Memory.fillFree keep m a n d) = true := by
  induction n generalizing m a d with
  | zero => exact h
  | succ n ih =>
    refine ih _ _ (by omega) ?_
    split
    · exact h
    · exact Memory.within_write _ (by omega) h

/-! ### 16-bit values -/

theorem Memory.read_write16 (m : Memory) (a x : Nat) (v : BitVec 16) :
    Memory.read (Memory.write16 m a v) x =
      if x = a then v.extractLsb' 0 8 else if x = a + 1 then v.extractLsb' 8 8 else Memory.read m x := by
  simp only [Memory.write16, Memory.read_write]
  by_cases h1 : x = a + 1
  · rw [if_pos h1, if_neg (by omega), if_pos h1]
  · simp [h1]

/-- A 16-bit read after a 16-bit write to the same place. -/
@[simp] theorem Memory.read16_write16_self (m : Memory) (a : Nat) (v : BitVec 16) :
    Memory.read16 (Memory.write16 m a v) a = v := by
  simp only [Memory.read16, Memory.read_write16]
  ext i hi
  simp only [show ¬ a + 1 = a by omega, if_false, if_true, BitVec.getElem_append, BitVec.getElem_extractLsb']
  split
  · simp [BitVec.getLsbD_eq_getElem hi]
  · rw [show 8 + (i - 8) = i by omega, BitVec.getLsbD_eq_getElem hi]

/-- A 16-bit read at least two bytes away from a 16-bit write. -/
theorem Memory.read16_write16_apart (m : Memory) (a b : Nat) (v : BitVec 16) (h : b + 2 ≤ a ∨ a + 2 ≤ b) :
    Memory.read16 (Memory.write16 m a v) b = Memory.read16 m b := by
  simp only [Memory.read16, Memory.read_write16]
  rw [if_neg (by omega), if_neg (by omega), if_neg (by omega), if_neg (by omega)]

end Sys2Proof.Machine
end

