-- ==== Sys2Proof/Laws/State.lean ====
section
/-! SUPPORT. One lemma per field per update of the state: what each named operation leaves in a field. -/

namespace Sys2Proof.Machine


/-! ### `havocBut` -/

@[simp] theorem State.havocBut_params (s : State) (keep : Nat → Bool) (a n : Nat) :
    (s.havocBut keep a n).params = s.params := rfl
@[simp] theorem State.havocBut_base (s : State) (keep : Nat → Bool) (a n : Nat) :
    (s.havocBut keep a n).base = s.base := rfl
@[simp] theorem State.havocBut_width (s : State) (keep : Nat → Bool) (a n : Nat) :
    (s.havocBut keep a n).width = s.width := rfl
@[simp] theorem State.havocBut_height (s : State) (keep : Nat → Bool) (a n : Nat) :
    (s.havocBut keep a n).height = s.height := rfl
@[simp] theorem State.havocBut_src (s : State) (keep : Nat → Bool) (a n : Nat) :
    (s.havocBut keep a n).src = s.src := rfl
@[simp] theorem State.havocBut_srclen (s : State) (keep : Nat → Bool) (a n : Nat) :
    (s.havocBut keep a n).srclen = s.srclen := rfl
@[simp] theorem State.havocBut_cmd (s : State) (keep : Nat → Bool) (a n : Nat) :
    (s.havocBut keep a n).cmd = s.cmd := rfl
@[simp] theorem State.havocBut_done (s : State) (keep : Nat → Bool) (a n : Nat) :
    (s.havocBut keep a n).done = s.done := rfl
@[simp] theorem State.havocBut_errv (s : State) (keep : Nat → Bool) (a n : Nat) :
    (s.havocBut keep a n).errv = s.errv := rfl
@[simp] theorem State.havocBut_rej (s : State) (keep : Nat → Bool) (a n : Nat) :
    (s.havocBut keep a n).rej = s.rej := rfl
@[simp] theorem State.havocBut_ecode (s : State) (keep : Nat → Bool) (a n : Nat) :
    (s.havocBut keep a n).ecode = s.ecode := rfl
@[simp] theorem State.havocBut_ie (s : State) (keep : Nat → Bool) (a n : Nat) : (s.havocBut keep a n).ie = s.ie := rfl
@[simp] theorem State.havocBut_erow (s : State) (keep : Nat → Bool) (a n : Nat) :
    (s.havocBut keep a n).erow = s.erow := rfl
@[simp] theorem State.havocBut_epos (s : State) (keep : Nat → Bool) (a n : Nat) :
    (s.havocBut keep a n).epos = s.epos := rfl
@[simp] theorem State.havocBut_phase (s : State) (keep : Nat → Bool) (a n : Nat) :
    (s.havocBut keep a n).phase = s.phase := rfl
@[simp] theorem State.havocBut_op (s : State) (keep : Nat → Bool) (a n : Nat) : (s.havocBut keep a n).op = s.op := rfl
@[simp] theorem State.havocBut_cur (s : State) (keep : Nat → Bool) (a n : Nat) :
    (s.havocBut keep a n).cur = s.cur := rfl
@[simp] theorem State.havocBut_todo (s : State) (keep : Nat → Bool) (a n : Nat) :
    (s.havocBut keep a n).todo = s.todo := rfl
@[simp] theorem State.havocBut_lanes (s : State) (keep : Nat → Bool) (a n : Nat) :
    (s.havocBut keep a n).lanes = s.lanes := rfl
@[simp] theorem State.havocBut_owned (s : State) (keep : Nat → Bool) (a n : Nat) :
    (s.havocBut keep a n).owned = s.owned := rfl
@[simp] theorem State.havocBut_breach (s : State) (keep : Nat → Bool) (a n : Nat) :
    (s.havocBut keep a n).breach = s.breach := rfl
@[simp] theorem State.havocBut_inputs (s : State) (keep : Nat → Bool) (a n : Nat) :
    (s.havocBut keep a n).inputs = s.inputs := rfl
@[simp] theorem State.havocBut_reply (s : State) (keep : Nat → Bool) (a n : Nat) :
    (s.havocBut keep a n).reply = s.reply := rfl

/-! ### `havoc` -/

@[simp] theorem State.havoc_params (s : State) (a n : Nat) : (s.havoc a n).params = s.params := rfl
@[simp] theorem State.havoc_base (s : State) (a n : Nat) : (s.havoc a n).base = s.base := rfl
@[simp] theorem State.havoc_width (s : State) (a n : Nat) : (s.havoc a n).width = s.width := rfl
@[simp] theorem State.havoc_height (s : State) (a n : Nat) : (s.havoc a n).height = s.height := rfl
@[simp] theorem State.havoc_src (s : State) (a n : Nat) : (s.havoc a n).src = s.src := rfl
@[simp] theorem State.havoc_srclen (s : State) (a n : Nat) : (s.havoc a n).srclen = s.srclen := rfl
@[simp] theorem State.havoc_cmd (s : State) (a n : Nat) : (s.havoc a n).cmd = s.cmd := rfl
@[simp] theorem State.havoc_done (s : State) (a n : Nat) : (s.havoc a n).done = s.done := rfl
@[simp] theorem State.havoc_errv (s : State) (a n : Nat) : (s.havoc a n).errv = s.errv := rfl
@[simp] theorem State.havoc_rej (s : State) (a n : Nat) : (s.havoc a n).rej = s.rej := rfl
@[simp] theorem State.havoc_ecode (s : State) (a n : Nat) : (s.havoc a n).ecode = s.ecode := rfl
@[simp] theorem State.havoc_ie (s : State) (a n : Nat) : (s.havoc a n).ie = s.ie := rfl
@[simp] theorem State.havoc_erow (s : State) (a n : Nat) : (s.havoc a n).erow = s.erow := rfl
@[simp] theorem State.havoc_epos (s : State) (a n : Nat) : (s.havoc a n).epos = s.epos := rfl
@[simp] theorem State.havoc_phase (s : State) (a n : Nat) : (s.havoc a n).phase = s.phase := rfl
@[simp] theorem State.havoc_op (s : State) (a n : Nat) : (s.havoc a n).op = s.op := rfl
@[simp] theorem State.havoc_cur (s : State) (a n : Nat) : (s.havoc a n).cur = s.cur := rfl
@[simp] theorem State.havoc_todo (s : State) (a n : Nat) : (s.havoc a n).todo = s.todo := rfl
@[simp] theorem State.havoc_lanes (s : State) (a n : Nat) : (s.havoc a n).lanes = s.lanes := rfl
@[simp] theorem State.havoc_owned (s : State) (a n : Nat) : (s.havoc a n).owned = s.owned := rfl
@[simp] theorem State.havoc_breach (s : State) (a n : Nat) : (s.havoc a n).breach = s.breach := rfl
@[simp] theorem State.havoc_inputs (s : State) (a n : Nat) : (s.havoc a n).inputs = s.inputs := rfl
@[simp] theorem State.havoc_reply (s : State) (a n : Nat) : (s.havoc a n).reply = s.reply := rfl

/-! ### `havocWritten` -/

@[simp] theorem State.havocWritten_params (s : State) (keep : Nat → Bool) (rs : List Region) :
    (s.havocWritten keep rs).params = s.params := by
  induction rs generalizing s with
  | nil => rfl
  | cons r rs ih => rw [State.havocWritten, ih]; split <;> rfl
@[simp] theorem State.havocWritten_base (s : State) (keep : Nat → Bool) (rs : List Region) :
    (s.havocWritten keep rs).base = s.base := by
  induction rs generalizing s with
  | nil => rfl
  | cons r rs ih => rw [State.havocWritten, ih]; split <;> rfl
@[simp] theorem State.havocWritten_width (s : State) (keep : Nat → Bool) (rs : List Region) :
    (s.havocWritten keep rs).width = s.width := by
  induction rs generalizing s with
  | nil => rfl
  | cons r rs ih => rw [State.havocWritten, ih]; split <;> rfl
@[simp] theorem State.havocWritten_height (s : State) (keep : Nat → Bool) (rs : List Region) :
    (s.havocWritten keep rs).height = s.height := by
  induction rs generalizing s with
  | nil => rfl
  | cons r rs ih => rw [State.havocWritten, ih]; split <;> rfl
@[simp] theorem State.havocWritten_src (s : State) (keep : Nat → Bool) (rs : List Region) :
    (s.havocWritten keep rs).src = s.src := by
  induction rs generalizing s with
  | nil => rfl
  | cons r rs ih => rw [State.havocWritten, ih]; split <;> rfl
@[simp] theorem State.havocWritten_srclen (s : State) (keep : Nat → Bool) (rs : List Region) :
    (s.havocWritten keep rs).srclen = s.srclen := by
  induction rs generalizing s with
  | nil => rfl
  | cons r rs ih => rw [State.havocWritten, ih]; split <;> rfl
@[simp] theorem State.havocWritten_cmd (s : State) (keep : Nat → Bool) (rs : List Region) :
    (s.havocWritten keep rs).cmd = s.cmd := by
  induction rs generalizing s with
  | nil => rfl
  | cons r rs ih => rw [State.havocWritten, ih]; split <;> rfl
@[simp] theorem State.havocWritten_done (s : State) (keep : Nat → Bool) (rs : List Region) :
    (s.havocWritten keep rs).done = s.done := by
  induction rs generalizing s with
  | nil => rfl
  | cons r rs ih => rw [State.havocWritten, ih]; split <;> rfl
@[simp] theorem State.havocWritten_errv (s : State) (keep : Nat → Bool) (rs : List Region) :
    (s.havocWritten keep rs).errv = s.errv := by
  induction rs generalizing s with
  | nil => rfl
  | cons r rs ih => rw [State.havocWritten, ih]; split <;> rfl
@[simp] theorem State.havocWritten_rej (s : State) (keep : Nat → Bool) (rs : List Region) :
    (s.havocWritten keep rs).rej = s.rej := by
  induction rs generalizing s with
  | nil => rfl
  | cons r rs ih => rw [State.havocWritten, ih]; split <;> rfl
@[simp] theorem State.havocWritten_ecode (s : State) (keep : Nat → Bool) (rs : List Region) :
    (s.havocWritten keep rs).ecode = s.ecode := by
  induction rs generalizing s with
  | nil => rfl
  | cons r rs ih => rw [State.havocWritten, ih]; split <;> rfl
@[simp] theorem State.havocWritten_ie (s : State) (keep : Nat → Bool) (rs : List Region) :
    (s.havocWritten keep rs).ie = s.ie := by
  induction rs generalizing s with
  | nil => rfl
  | cons r rs ih => rw [State.havocWritten, ih]; split <;> rfl
@[simp] theorem State.havocWritten_erow (s : State) (keep : Nat → Bool) (rs : List Region) :
    (s.havocWritten keep rs).erow = s.erow := by
  induction rs generalizing s with
  | nil => rfl
  | cons r rs ih => rw [State.havocWritten, ih]; split <;> rfl
@[simp] theorem State.havocWritten_epos (s : State) (keep : Nat → Bool) (rs : List Region) :
    (s.havocWritten keep rs).epos = s.epos := by
  induction rs generalizing s with
  | nil => rfl
  | cons r rs ih => rw [State.havocWritten, ih]; split <;> rfl
@[simp] theorem State.havocWritten_phase (s : State) (keep : Nat → Bool) (rs : List Region) :
    (s.havocWritten keep rs).phase = s.phase := by
  induction rs generalizing s with
  | nil => rfl
  | cons r rs ih => rw [State.havocWritten, ih]; split <;> rfl
@[simp] theorem State.havocWritten_op (s : State) (keep : Nat → Bool) (rs : List Region) :
    (s.havocWritten keep rs).op = s.op := by
  induction rs generalizing s with
  | nil => rfl
  | cons r rs ih => rw [State.havocWritten, ih]; split <;> rfl
@[simp] theorem State.havocWritten_cur (s : State) (keep : Nat → Bool) (rs : List Region) :
    (s.havocWritten keep rs).cur = s.cur := by
  induction rs generalizing s with
  | nil => rfl
  | cons r rs ih => rw [State.havocWritten, ih]; split <;> rfl
@[simp] theorem State.havocWritten_todo (s : State) (keep : Nat → Bool) (rs : List Region) :
    (s.havocWritten keep rs).todo = s.todo := by
  induction rs generalizing s with
  | nil => rfl
  | cons r rs ih => rw [State.havocWritten, ih]; split <;> rfl
@[simp] theorem State.havocWritten_lanes (s : State) (keep : Nat → Bool) (rs : List Region) :
    (s.havocWritten keep rs).lanes = s.lanes := by
  induction rs generalizing s with
  | nil => rfl
  | cons r rs ih => rw [State.havocWritten, ih]; split <;> rfl
@[simp] theorem State.havocWritten_owned (s : State) (keep : Nat → Bool) (rs : List Region) :
    (s.havocWritten keep rs).owned = s.owned := by
  induction rs generalizing s with
  | nil => rfl
  | cons r rs ih => rw [State.havocWritten, ih]; split <;> rfl
@[simp] theorem State.havocWritten_breach (s : State) (keep : Nat → Bool) (rs : List Region) :
    (s.havocWritten keep rs).breach = s.breach := by
  induction rs generalizing s with
  | nil => rfl
  | cons r rs ih => rw [State.havocWritten, ih]; split <;> rfl
@[simp] theorem State.havocWritten_inputs (s : State) (keep : Nat → Bool) (rs : List Region) :
    (s.havocWritten keep rs).inputs = s.inputs := by
  induction rs generalizing s with
  | nil => rfl
  | cons r rs ih => rw [State.havocWritten, ih]; split <;> rfl
@[simp] theorem State.havocWritten_reply (s : State) (keep : Nat → Bool) (rs : List Region) :
    (s.havocWritten keep rs).reply = s.reply := by
  induction rs generalizing s with
  | nil => rfl
  | cons r rs ih => rw [State.havocWritten, ih]; split <;> rfl

/-! ### `loosen` -/

@[simp] theorem State.loosen_params (s : State) (a : Nat) (cs : List Claim) : (s.loosen a cs).params = s.params := by
  induction cs generalizing s with
  | nil => rfl
  | cons c cs ih => rw [State.loosen, ih]; split <;> simp
@[simp] theorem State.loosen_base (s : State) (a : Nat) (cs : List Claim) : (s.loosen a cs).base = s.base := by
  induction cs generalizing s with
  | nil => rfl
  | cons c cs ih => rw [State.loosen, ih]; split <;> simp
@[simp] theorem State.loosen_width (s : State) (a : Nat) (cs : List Claim) : (s.loosen a cs).width = s.width := by
  induction cs generalizing s with
  | nil => rfl
  | cons c cs ih => rw [State.loosen, ih]; split <;> simp
@[simp] theorem State.loosen_height (s : State) (a : Nat) (cs : List Claim) : (s.loosen a cs).height = s.height := by
  induction cs generalizing s with
  | nil => rfl
  | cons c cs ih => rw [State.loosen, ih]; split <;> simp
@[simp] theorem State.loosen_src (s : State) (a : Nat) (cs : List Claim) : (s.loosen a cs).src = s.src := by
  induction cs generalizing s with
  | nil => rfl
  | cons c cs ih => rw [State.loosen, ih]; split <;> simp
@[simp] theorem State.loosen_srclen (s : State) (a : Nat) (cs : List Claim) : (s.loosen a cs).srclen = s.srclen := by
  induction cs generalizing s with
  | nil => rfl
  | cons c cs ih => rw [State.loosen, ih]; split <;> simp
@[simp] theorem State.loosen_cmd (s : State) (a : Nat) (cs : List Claim) : (s.loosen a cs).cmd = s.cmd := by
  induction cs generalizing s with
  | nil => rfl
  | cons c cs ih => rw [State.loosen, ih]; split <;> simp
@[simp] theorem State.loosen_done (s : State) (a : Nat) (cs : List Claim) : (s.loosen a cs).done = s.done := by
  induction cs generalizing s with
  | nil => rfl
  | cons c cs ih => rw [State.loosen, ih]; split <;> simp
@[simp] theorem State.loosen_errv (s : State) (a : Nat) (cs : List Claim) : (s.loosen a cs).errv = s.errv := by
  induction cs generalizing s with
  | nil => rfl
  | cons c cs ih => rw [State.loosen, ih]; split <;> simp
@[simp] theorem State.loosen_rej (s : State) (a : Nat) (cs : List Claim) : (s.loosen a cs).rej = s.rej := by
  induction cs generalizing s with
  | nil => rfl
  | cons c cs ih => rw [State.loosen, ih]; split <;> simp
@[simp] theorem State.loosen_ecode (s : State) (a : Nat) (cs : List Claim) : (s.loosen a cs).ecode = s.ecode := by
  induction cs generalizing s with
  | nil => rfl
  | cons c cs ih => rw [State.loosen, ih]; split <;> simp
@[simp] theorem State.loosen_ie (s : State) (a : Nat) (cs : List Claim) : (s.loosen a cs).ie = s.ie := by
  induction cs generalizing s with
  | nil => rfl
  | cons c cs ih => rw [State.loosen, ih]; split <;> simp
@[simp] theorem State.loosen_erow (s : State) (a : Nat) (cs : List Claim) : (s.loosen a cs).erow = s.erow := by
  induction cs generalizing s with
  | nil => rfl
  | cons c cs ih => rw [State.loosen, ih]; split <;> simp
@[simp] theorem State.loosen_epos (s : State) (a : Nat) (cs : List Claim) : (s.loosen a cs).epos = s.epos := by
  induction cs generalizing s with
  | nil => rfl
  | cons c cs ih => rw [State.loosen, ih]; split <;> simp
@[simp] theorem State.loosen_phase (s : State) (a : Nat) (cs : List Claim) : (s.loosen a cs).phase = s.phase := by
  induction cs generalizing s with
  | nil => rfl
  | cons c cs ih => rw [State.loosen, ih]; split <;> simp
@[simp] theorem State.loosen_op (s : State) (a : Nat) (cs : List Claim) : (s.loosen a cs).op = s.op := by
  induction cs generalizing s with
  | nil => rfl
  | cons c cs ih => rw [State.loosen, ih]; split <;> simp
@[simp] theorem State.loosen_cur (s : State) (a : Nat) (cs : List Claim) : (s.loosen a cs).cur = s.cur := by
  induction cs generalizing s with
  | nil => rfl
  | cons c cs ih => rw [State.loosen, ih]; split <;> simp
@[simp] theorem State.loosen_todo (s : State) (a : Nat) (cs : List Claim) : (s.loosen a cs).todo = s.todo := by
  induction cs generalizing s with
  | nil => rfl
  | cons c cs ih => rw [State.loosen, ih]; split <;> simp
@[simp] theorem State.loosen_lanes (s : State) (a : Nat) (cs : List Claim) : (s.loosen a cs).lanes = s.lanes := by
  induction cs generalizing s with
  | nil => rfl
  | cons c cs ih => rw [State.loosen, ih]; split <;> simp
@[simp] theorem State.loosen_owned (s : State) (a : Nat) (cs : List Claim) : (s.loosen a cs).owned = s.owned := by
  induction cs generalizing s with
  | nil => rfl
  | cons c cs ih => rw [State.loosen, ih]; split <;> simp
@[simp] theorem State.loosen_breach (s : State) (a : Nat) (cs : List Claim) : (s.loosen a cs).breach = s.breach := by
  induction cs generalizing s with
  | nil => rfl
  | cons c cs ih => rw [State.loosen, ih]; split <;> simp
@[simp] theorem State.loosen_inputs (s : State) (a : Nat) (cs : List Claim) : (s.loosen a cs).inputs = s.inputs := by
  induction cs generalizing s with
  | nil => rfl
  | cons c cs ih => rw [State.loosen, ih]; split <;> simp
@[simp] theorem State.loosen_reply (s : State) (a : Nat) (cs : List Claim) : (s.loosen a cs).reply = s.reply := by
  induction cs generalizing s with
  | nil => rfl
  | cons c cs ih => rw [State.loosen, ih]; split <;> simp

/-! ### `retire` -/

@[simp] theorem State.retire_params (s : State) : (s.retire).params = s.params := rfl
@[simp] theorem State.retire_mem (s : State) : (s.retire).mem = s.mem := rfl
@[simp] theorem State.retire_base (s : State) : (s.retire).base = s.base := rfl
@[simp] theorem State.retire_width (s : State) : (s.retire).width = s.width := rfl
@[simp] theorem State.retire_height (s : State) : (s.retire).height = s.height := rfl
@[simp] theorem State.retire_src (s : State) : (s.retire).src = s.src := rfl
@[simp] theorem State.retire_srclen (s : State) : (s.retire).srclen = s.srclen := rfl
@[simp] theorem State.retire_cmd (s : State) : (s.retire).cmd = s.cmd := rfl
@[simp] theorem State.retire_done (s : State) : (s.retire).done = true := rfl
@[simp] theorem State.retire_errv (s : State) : (s.retire).errv = s.errv := rfl
@[simp] theorem State.retire_rej (s : State) : (s.retire).rej = s.rej := rfl
@[simp] theorem State.retire_ecode (s : State) : (s.retire).ecode = s.ecode := rfl
@[simp] theorem State.retire_ie (s : State) : (s.retire).ie = s.ie := rfl
@[simp] theorem State.retire_erow (s : State) : (s.retire).erow = s.erow := rfl
@[simp] theorem State.retire_epos (s : State) : (s.retire).epos = s.epos := rfl
@[simp] theorem State.retire_phase (s : State) : (s.retire).phase = .idle := rfl
@[simp] theorem State.retire_op (s : State) : (s.retire).op = s.op := rfl
@[simp] theorem State.retire_cur (s : State) : (s.retire).cur = Cursor.absent := rfl
@[simp] theorem State.retire_todo (s : State) : (s.retire).todo = [] := rfl
@[simp] theorem State.retire_lanes (s : State) : (s.retire).lanes = [] := rfl
@[simp] theorem State.retire_owned (s : State) : (s.retire).owned = s.owned := rfl
@[simp] theorem State.retire_breach (s : State) : (s.retire).breach = false := rfl
@[simp] theorem State.retire_inputs (s : State) : (s.retire).inputs = s.inputs := rfl
@[simp] theorem State.retire_reply (s : State) : (s.retire).reply = s.reply := rfl
@[simp] theorem State.retire_draws (s : State) : (s.retire).draws = s.draws := rfl

/-! ### `finish` -/

@[simp] theorem State.finish_params (s : State) (e : Ending) : (s.finish e).params = s.params := by cases e <;> rfl
@[simp] theorem State.finish_mem (s : State) (e : Ending) : (s.finish e).mem = s.mem := by cases e <;> rfl
@[simp] theorem State.finish_base (s : State) (e : Ending) : (s.finish e).base = s.base := by cases e <;> rfl
@[simp] theorem State.finish_width (s : State) (e : Ending) : (s.finish e).width = s.width := by cases e <;> rfl
@[simp] theorem State.finish_height (s : State) (e : Ending) : (s.finish e).height = s.height := by cases e <;> rfl
@[simp] theorem State.finish_src (s : State) (e : Ending) : (s.finish e).src = s.src := by cases e <;> rfl
@[simp] theorem State.finish_srclen (s : State) (e : Ending) : (s.finish e).srclen = s.srclen := by cases e <;> rfl
@[simp] theorem State.finish_cmd (s : State) (e : Ending) : (s.finish e).cmd = s.cmd := by cases e <;> rfl
@[simp] theorem State.finish_done (s : State) (e : Ending) : (s.finish e).done = true := by cases e <;> rfl
@[simp] theorem State.finish_rej (s : State) (e : Ending) : (s.finish e).rej = s.rej := by cases e <;> rfl
@[simp] theorem State.finish_ie (s : State) (e : Ending) : (s.finish e).ie = s.ie := by cases e <;> rfl
@[simp] theorem State.finish_phase (s : State) (e : Ending) : (s.finish e).phase = .idle := by cases e <;> rfl
@[simp] theorem State.finish_op (s : State) (e : Ending) : (s.finish e).op = s.op := by cases e <;> rfl
@[simp] theorem State.finish_cur (s : State) (e : Ending) : (s.finish e).cur = Cursor.absent := by cases e <;> rfl
@[simp] theorem State.finish_todo (s : State) (e : Ending) : (s.finish e).todo = [] := by cases e <;> rfl
@[simp] theorem State.finish_lanes (s : State) (e : Ending) : (s.finish e).lanes = [] := by cases e <;> rfl
@[simp] theorem State.finish_owned (s : State) (e : Ending) : (s.finish e).owned = s.owned := by cases e <;> rfl
@[simp] theorem State.finish_breach (s : State) (e : Ending) : (s.finish e).breach = false := by cases e <;> rfl
@[simp] theorem State.finish_inputs (s : State) (e : Ending) : (s.finish e).inputs = s.inputs := by cases e <;> rfl
@[simp] theorem State.finish_reply (s : State) (e : Ending) : (s.finish e).reply = s.reply := by cases e <;> rfl
@[simp] theorem State.finish_draws (s : State) (e : Ending) : (s.finish e).draws = s.draws := by cases e <;> rfl

/-! ### `endCommand` -/

@[simp] theorem State.endCommand_params (s : State) (n : Nat) (e : Ending) : (s.endCommand n e).params = s.params := by
  unfold State.endCommand; split <;> simp
@[simp] theorem State.endCommand_base (s : State) (n : Nat) (e : Ending) : (s.endCommand n e).base = s.base := by
  unfold State.endCommand; split <;> simp
@[simp] theorem State.endCommand_width (s : State) (n : Nat) (e : Ending) : (s.endCommand n e).width = s.width := by
  unfold State.endCommand; split <;> simp
@[simp] theorem State.endCommand_height (s : State) (n : Nat) (e : Ending) : (s.endCommand n e).height = s.height := by
  unfold State.endCommand; split <;> simp
@[simp] theorem State.endCommand_src (s : State) (n : Nat) (e : Ending) : (s.endCommand n e).src = s.src := by
  unfold State.endCommand; split <;> simp
@[simp] theorem State.endCommand_srclen (s : State) (n : Nat) (e : Ending) : (s.endCommand n e).srclen = s.srclen := by
  unfold State.endCommand; split <;> simp
@[simp] theorem State.endCommand_cmd (s : State) (n : Nat) (e : Ending) : (s.endCommand n e).cmd = s.cmd := by
  unfold State.endCommand; split <;> simp
@[simp] theorem State.endCommand_done (s : State) (n : Nat) (e : Ending) : (s.endCommand n e).done = true := by
  unfold State.endCommand; split <;> simp
@[simp] theorem State.endCommand_rej (s : State) (n : Nat) (e : Ending) : (s.endCommand n e).rej = s.rej := by
  unfold State.endCommand; split <;> simp
@[simp] theorem State.endCommand_ie (s : State) (n : Nat) (e : Ending) : (s.endCommand n e).ie = s.ie := by
  unfold State.endCommand; split <;> simp
@[simp] theorem State.endCommand_phase (s : State) (n : Nat) (e : Ending) : (s.endCommand n e).phase = .idle := by
  unfold State.endCommand; split <;> simp
@[simp] theorem State.endCommand_op (s : State) (n : Nat) (e : Ending) : (s.endCommand n e).op = s.op := by
  unfold State.endCommand; split <;> simp
@[simp] theorem State.endCommand_cur (s : State) (n : Nat) (e : Ending) : (s.endCommand n e).cur = Cursor.absent := by
  unfold State.endCommand; split <;> simp
@[simp] theorem State.endCommand_todo (s : State) (n : Nat) (e : Ending) : (s.endCommand n e).todo = [] := by
  unfold State.endCommand; split <;> simp
@[simp] theorem State.endCommand_lanes (s : State) (n : Nat) (e : Ending) : (s.endCommand n e).lanes = [] := by
  unfold State.endCommand; split <;> simp
@[simp] theorem State.endCommand_owned (s : State) (n : Nat) (e : Ending) : (s.endCommand n e).owned = s.owned := by
  unfold State.endCommand; split <;> simp
@[simp] theorem State.endCommand_breach (s : State) (n : Nat) (e : Ending) : (s.endCommand n e).breach = false := by
  unfold State.endCommand; split <;> simp
@[simp] theorem State.endCommand_inputs (s : State) (n : Nat) (e : Ending) : (s.endCommand n e).inputs = s.inputs := by
  unfold State.endCommand; split <;> simp
@[simp] theorem State.endCommand_reply (s : State) (n : Nat) (e : Ending) : (s.endCommand n e).reply = s.reply := by
  unfold State.endCommand; split <;> simp

/-! ### `looseEnd` -/

@[simp] theorem State.looseEnd_params (s : State) (n : Nat) : (s.looseEnd n).params = s.params := by
  simp [State.looseEnd]
@[simp] theorem State.looseEnd_base (s : State) (n : Nat) : (s.looseEnd n).base = s.base := by
  simp [State.looseEnd]
@[simp] theorem State.looseEnd_width (s : State) (n : Nat) : (s.looseEnd n).width = s.width := by
  simp [State.looseEnd]
@[simp] theorem State.looseEnd_height (s : State) (n : Nat) : (s.looseEnd n).height = s.height := by
  simp [State.looseEnd]
@[simp] theorem State.looseEnd_src (s : State) (n : Nat) : (s.looseEnd n).src = s.src := by
  simp [State.looseEnd]
@[simp] theorem State.looseEnd_srclen (s : State) (n : Nat) : (s.looseEnd n).srclen = s.srclen := by
  simp [State.looseEnd]
@[simp] theorem State.looseEnd_cmd (s : State) (n : Nat) : (s.looseEnd n).cmd = s.cmd := by
  simp [State.looseEnd]
@[simp] theorem State.looseEnd_done (s : State) (n : Nat) : (s.looseEnd n).done = true := by
  simp [State.looseEnd]
@[simp] theorem State.looseEnd_rej (s : State) (n : Nat) : (s.looseEnd n).rej = s.rej := by
  simp [State.looseEnd]
@[simp] theorem State.looseEnd_ie (s : State) (n : Nat) : (s.looseEnd n).ie = s.ie := by
  simp [State.looseEnd]
@[simp] theorem State.looseEnd_phase (s : State) (n : Nat) : (s.looseEnd n).phase = .idle := by
  simp [State.looseEnd]
@[simp] theorem State.looseEnd_op (s : State) (n : Nat) : (s.looseEnd n).op = s.op := by
  simp [State.looseEnd]
@[simp] theorem State.looseEnd_cur (s : State) (n : Nat) : (s.looseEnd n).cur = Cursor.absent := by
  simp [State.looseEnd]
@[simp] theorem State.looseEnd_todo (s : State) (n : Nat) : (s.looseEnd n).todo = [] := by
  simp [State.looseEnd]
@[simp] theorem State.looseEnd_lanes (s : State) (n : Nat) : (s.looseEnd n).lanes = [] := by
  simp [State.looseEnd]
@[simp] theorem State.looseEnd_owned (s : State) (n : Nat) : (s.looseEnd n).owned = s.owned := by
  simp [State.looseEnd]
@[simp] theorem State.looseEnd_breach (s : State) (n : Nat) : (s.looseEnd n).breach = false := by
  simp [State.looseEnd]
@[simp] theorem State.looseEnd_inputs (s : State) (n : Nat) : (s.looseEnd n).inputs = s.inputs := by
  simp [State.looseEnd]
@[simp] theorem State.looseEnd_reply (s : State) (n : Nat) : (s.looseEnd n).reply = s.reply := by
  simp [State.looseEnd]

/-! ### `endRleStart` -/

@[simp] theorem State.endRleStart_params (s : State) (n : Nat) (e : Ending) :
    (s.endRleStart n e).params = s.params := by
  unfold State.endRleStart; split <;> simp
@[simp] theorem State.endRleStart_base (s : State) (n : Nat) (e : Ending) : (s.endRleStart n e).base = s.base := by
  unfold State.endRleStart; split <;> simp
@[simp] theorem State.endRleStart_width (s : State) (n : Nat) (e : Ending) : (s.endRleStart n e).width = s.width := by
  unfold State.endRleStart; split <;> simp
@[simp] theorem State.endRleStart_height (s : State) (n : Nat) (e : Ending) :
    (s.endRleStart n e).height = s.height := by
  unfold State.endRleStart; split <;> simp
@[simp] theorem State.endRleStart_src (s : State) (n : Nat) (e : Ending) : (s.endRleStart n e).src = s.src := by
  unfold State.endRleStart; split <;> simp
@[simp] theorem State.endRleStart_srclen (s : State) (n : Nat) (e : Ending) :
    (s.endRleStart n e).srclen = s.srclen := by
  unfold State.endRleStart; split <;> simp
@[simp] theorem State.endRleStart_cmd (s : State) (n : Nat) (e : Ending) : (s.endRleStart n e).cmd = s.cmd := by
  unfold State.endRleStart; split <;> simp
@[simp] theorem State.endRleStart_done (s : State) (n : Nat) (e : Ending) : (s.endRleStart n e).done = true := by
  unfold State.endRleStart; split <;> simp
@[simp] theorem State.endRleStart_rej (s : State) (n : Nat) (e : Ending) : (s.endRleStart n e).rej = s.rej := by
  unfold State.endRleStart; split <;> simp
@[simp] theorem State.endRleStart_ie (s : State) (n : Nat) (e : Ending) : (s.endRleStart n e).ie = s.ie := by
  unfold State.endRleStart; split <;> simp
@[simp] theorem State.endRleStart_phase (s : State) (n : Nat) (e : Ending) : (s.endRleStart n e).phase = .idle := by
  unfold State.endRleStart; split <;> simp
@[simp] theorem State.endRleStart_op (s : State) (n : Nat) (e : Ending) : (s.endRleStart n e).op = s.op := by
  unfold State.endRleStart; split <;> simp
@[simp] theorem State.endRleStart_cur (s : State) (n : Nat) (e : Ending) : (s.endRleStart n e).cur = Cursor.absent := by
  unfold State.endRleStart; split <;> simp
@[simp] theorem State.endRleStart_todo (s : State) (n : Nat) (e : Ending) : (s.endRleStart n e).todo = [] := by
  unfold State.endRleStart; split <;> simp
@[simp] theorem State.endRleStart_lanes (s : State) (n : Nat) (e : Ending) : (s.endRleStart n e).lanes = [] := by
  unfold State.endRleStart; split <;> simp
@[simp] theorem State.endRleStart_owned (s : State) (n : Nat) (e : Ending) : (s.endRleStart n e).owned = s.owned := by
  unfold State.endRleStart; split <;> simp
@[simp] theorem State.endRleStart_breach (s : State) (n : Nat) (e : Ending) : (s.endRleStart n e).breach = false := by
  unfold State.endRleStart; split <;> simp
@[simp] theorem State.endRleStart_inputs (s : State) (n : Nat) (e : Ending) :
    (s.endRleStart n e).inputs = s.inputs := by
  unfold State.endRleStart; split <;> simp
@[simp] theorem State.endRleStart_reply (s : State) (n : Nat) (e : Ending) : (s.endRleStart n e).reply = s.reply := by
  unfold State.endRleStart; split <;> simp

/-! ### `endRle` -/

@[simp] theorem State.endRle_params (s : State) (n : Nat) (e : Ending) : (s.endRle n e).params = s.params := by
  unfold State.endRle; split
  · simp
  · cases e <;> simp
@[simp] theorem State.endRle_base (s : State) (n : Nat) (e : Ending) : (s.endRle n e).base = s.base := by
  unfold State.endRle; split
  · simp
  · cases e <;> simp
@[simp] theorem State.endRle_width (s : State) (n : Nat) (e : Ending) : (s.endRle n e).width = s.width := by
  unfold State.endRle; split
  · simp
  · cases e <;> simp
@[simp] theorem State.endRle_height (s : State) (n : Nat) (e : Ending) : (s.endRle n e).height = s.height := by
  unfold State.endRle; split
  · simp
  · cases e <;> simp
@[simp] theorem State.endRle_src (s : State) (n : Nat) (e : Ending) : (s.endRle n e).src = s.src := by
  unfold State.endRle; split
  · simp
  · cases e <;> simp
@[simp] theorem State.endRle_srclen (s : State) (n : Nat) (e : Ending) : (s.endRle n e).srclen = s.srclen := by
  unfold State.endRle; split
  · simp
  · cases e <;> simp
@[simp] theorem State.endRle_cmd (s : State) (n : Nat) (e : Ending) : (s.endRle n e).cmd = s.cmd := by
  unfold State.endRle; split
  · simp
  · cases e <;> simp
@[simp] theorem State.endRle_done (s : State) (n : Nat) (e : Ending) : (s.endRle n e).done = true := by
  unfold State.endRle; split
  · simp
  · cases e <;> simp
@[simp] theorem State.endRle_rej (s : State) (n : Nat) (e : Ending) : (s.endRle n e).rej = s.rej := by
  unfold State.endRle; split
  · simp
  · cases e <;> simp
@[simp] theorem State.endRle_ie (s : State) (n : Nat) (e : Ending) : (s.endRle n e).ie = s.ie := by
  unfold State.endRle; split
  · simp
  · cases e <;> simp
@[simp] theorem State.endRle_phase (s : State) (n : Nat) (e : Ending) : (s.endRle n e).phase = .idle := by
  unfold State.endRle; split
  · simp
  · cases e <;> simp
@[simp] theorem State.endRle_op (s : State) (n : Nat) (e : Ending) : (s.endRle n e).op = s.op := by
  unfold State.endRle; split
  · simp
  · cases e <;> simp
@[simp] theorem State.endRle_cur (s : State) (n : Nat) (e : Ending) : (s.endRle n e).cur = Cursor.absent := by
  unfold State.endRle; split
  · simp
  · cases e <;> simp
@[simp] theorem State.endRle_todo (s : State) (n : Nat) (e : Ending) : (s.endRle n e).todo = [] := by
  unfold State.endRle; split
  · simp
  · cases e <;> simp
@[simp] theorem State.endRle_lanes (s : State) (n : Nat) (e : Ending) : (s.endRle n e).lanes = [] := by
  unfold State.endRle; split
  · simp
  · cases e <;> simp
@[simp] theorem State.endRle_owned (s : State) (n : Nat) (e : Ending) : (s.endRle n e).owned = s.owned := by
  unfold State.endRle; split
  · simp
  · cases e <;> simp
@[simp] theorem State.endRle_breach (s : State) (n : Nat) (e : Ending) : (s.endRle n e).breach = false := by
  unfold State.endRle; split
  · simp
  · cases e <;> simp
@[simp] theorem State.endRle_inputs (s : State) (n : Nat) (e : Ending) : (s.endRle n e).inputs = s.inputs := by
  unfold State.endRle; split
  · simp
  · cases e <;> simp
@[simp] theorem State.endRle_reply (s : State) (n : Nat) (e : Ending) : (s.endRle n e).reply = s.reply := by
  unfold State.endRle; split
  · simp
  · cases e <;> simp

/-! ### `rleRaise` -/

@[simp] theorem State.rleRaise_params (s : State) (k : ErrorKind) (r p : Nat) :
    (s.rleRaise k r p).params = s.params := by
  simp [State.rleRaise]
@[simp] theorem State.rleRaise_base (s : State) (k : ErrorKind) (r p : Nat) : (s.rleRaise k r p).base = s.base := by
  simp [State.rleRaise]
@[simp] theorem State.rleRaise_width (s : State) (k : ErrorKind) (r p : Nat) : (s.rleRaise k r p).width = s.width := by
  simp [State.rleRaise]
@[simp] theorem State.rleRaise_height (s : State) (k : ErrorKind) (r p : Nat) :
    (s.rleRaise k r p).height = s.height := by
  simp [State.rleRaise]
@[simp] theorem State.rleRaise_src (s : State) (k : ErrorKind) (r p : Nat) : (s.rleRaise k r p).src = s.src := by
  simp [State.rleRaise]
@[simp] theorem State.rleRaise_srclen (s : State) (k : ErrorKind) (r p : Nat) :
    (s.rleRaise k r p).srclen = s.srclen := by
  simp [State.rleRaise]
@[simp] theorem State.rleRaise_cmd (s : State) (k : ErrorKind) (r p : Nat) : (s.rleRaise k r p).cmd = s.cmd := by
  simp [State.rleRaise]
@[simp] theorem State.rleRaise_done (s : State) (k : ErrorKind) (r p : Nat) : (s.rleRaise k r p).done = true := by
  simp [State.rleRaise]
@[simp] theorem State.rleRaise_rej (s : State) (k : ErrorKind) (r p : Nat) : (s.rleRaise k r p).rej = s.rej := by
  simp [State.rleRaise]
@[simp] theorem State.rleRaise_ie (s : State) (k : ErrorKind) (r p : Nat) : (s.rleRaise k r p).ie = s.ie := by
  simp [State.rleRaise]
@[simp] theorem State.rleRaise_phase (s : State) (k : ErrorKind) (r p : Nat) : (s.rleRaise k r p).phase = .idle := by
  simp [State.rleRaise]
@[simp] theorem State.rleRaise_op (s : State) (k : ErrorKind) (r p : Nat) : (s.rleRaise k r p).op = s.op := by
  simp [State.rleRaise]
@[simp] theorem State.rleRaise_cur (s : State) (k : ErrorKind) (r p : Nat) :
    (s.rleRaise k r p).cur = Cursor.absent := by
  simp [State.rleRaise]
@[simp] theorem State.rleRaise_todo (s : State) (k : ErrorKind) (r p : Nat) : (s.rleRaise k r p).todo = [] := by
  simp [State.rleRaise]
@[simp] theorem State.rleRaise_lanes (s : State) (k : ErrorKind) (r p : Nat) : (s.rleRaise k r p).lanes = [] := by
  simp [State.rleRaise]
@[simp] theorem State.rleRaise_owned (s : State) (k : ErrorKind) (r p : Nat) : (s.rleRaise k r p).owned = s.owned := by
  simp [State.rleRaise]
@[simp] theorem State.rleRaise_breach (s : State) (k : ErrorKind) (r p : Nat) : (s.rleRaise k r p).breach = false := by
  simp [State.rleRaise]
@[simp] theorem State.rleRaise_inputs (s : State) (k : ErrorKind) (r p : Nat) :
    (s.rleRaise k r p).inputs = s.inputs := by
  simp [State.rleRaise]
@[simp] theorem State.rleRaise_reply (s : State) (k : ErrorKind) (r p : Nat) : (s.rleRaise k r p).reply = s.reply := by
  simp [State.rleRaise]

/-! ### `rleEnd` -/

@[simp] theorem State.rleEnd_params (s : State) : (s.rleEnd).params = s.params := by
  unfold State.rleEnd; split <;> simp
@[simp] theorem State.rleEnd_base (s : State) : (s.rleEnd).base = s.base := by
  unfold State.rleEnd; split <;> simp
@[simp] theorem State.rleEnd_width (s : State) : (s.rleEnd).width = s.width := by
  unfold State.rleEnd; split <;> simp
@[simp] theorem State.rleEnd_height (s : State) : (s.rleEnd).height = s.height := by
  unfold State.rleEnd; split <;> simp
@[simp] theorem State.rleEnd_src (s : State) : (s.rleEnd).src = s.src := by
  unfold State.rleEnd; split <;> simp
@[simp] theorem State.rleEnd_srclen (s : State) : (s.rleEnd).srclen = s.srclen := by
  unfold State.rleEnd; split <;> simp
@[simp] theorem State.rleEnd_cmd (s : State) : (s.rleEnd).cmd = s.cmd := by
  unfold State.rleEnd; split <;> simp
@[simp] theorem State.rleEnd_done (s : State) : (s.rleEnd).done = true := by
  unfold State.rleEnd; split <;> simp
@[simp] theorem State.rleEnd_rej (s : State) : (s.rleEnd).rej = s.rej := by
  unfold State.rleEnd; split <;> simp
@[simp] theorem State.rleEnd_ie (s : State) : (s.rleEnd).ie = s.ie := by
  unfold State.rleEnd; split <;> simp
@[simp] theorem State.rleEnd_phase (s : State) : (s.rleEnd).phase = .idle := by
  unfold State.rleEnd; split <;> simp
@[simp] theorem State.rleEnd_op (s : State) : (s.rleEnd).op = s.op := by
  unfold State.rleEnd; split <;> simp
@[simp] theorem State.rleEnd_cur (s : State) : (s.rleEnd).cur = Cursor.absent := by
  unfold State.rleEnd; split <;> simp
@[simp] theorem State.rleEnd_todo (s : State) : (s.rleEnd).todo = [] := by
  unfold State.rleEnd; split <;> simp
@[simp] theorem State.rleEnd_lanes (s : State) : (s.rleEnd).lanes = [] := by
  unfold State.rleEnd; split <;> simp
@[simp] theorem State.rleEnd_owned (s : State) : (s.rleEnd).owned = s.owned := by
  unfold State.rleEnd; split <;> simp
@[simp] theorem State.rleEnd_breach (s : State) : (s.rleEnd).breach = false := by
  unfold State.rleEnd; split <;> simp
@[simp] theorem State.rleEnd_inputs (s : State) : (s.rleEnd).inputs = s.inputs := by
  unfold State.rleEnd; split <;> simp
@[simp] theorem State.rleEnd_reply (s : State) : (s.rleEnd).reply = s.reply := by
  unfold State.rleEnd; split <;> simp

/-! ### `unsupported` -/

@[simp] theorem State.unsupported_params (s : State) : (s.unsupported).params = s.params := by
  simp [State.unsupported]
@[simp] theorem State.unsupported_base (s : State) : (s.unsupported).base = s.base := by
  simp [State.unsupported]
@[simp] theorem State.unsupported_width (s : State) : (s.unsupported).width = s.width := by
  simp [State.unsupported]
@[simp] theorem State.unsupported_height (s : State) : (s.unsupported).height = s.height := by
  simp [State.unsupported]
@[simp] theorem State.unsupported_src (s : State) : (s.unsupported).src = s.src := by
  simp [State.unsupported]
@[simp] theorem State.unsupported_srclen (s : State) : (s.unsupported).srclen = s.srclen := by
  simp [State.unsupported]
@[simp] theorem State.unsupported_cmd (s : State) : (s.unsupported).cmd = s.cmd := by
  simp [State.unsupported]
@[simp] theorem State.unsupported_done (s : State) : (s.unsupported).done = true := by
  simp [State.unsupported]
@[simp] theorem State.unsupported_rej (s : State) : (s.unsupported).rej = s.rej := by
  simp [State.unsupported]
@[simp] theorem State.unsupported_ie (s : State) : (s.unsupported).ie = s.ie := by
  simp [State.unsupported]
@[simp] theorem State.unsupported_phase (s : State) : (s.unsupported).phase = .idle := by
  simp [State.unsupported]
@[simp] theorem State.unsupported_op (s : State) : (s.unsupported).op = s.op := by
  simp [State.unsupported]
@[simp] theorem State.unsupported_cur (s : State) : (s.unsupported).cur = Cursor.absent := by
  simp [State.unsupported]
@[simp] theorem State.unsupported_todo (s : State) : (s.unsupported).todo = [] := by
  simp [State.unsupported]
@[simp] theorem State.unsupported_lanes (s : State) : (s.unsupported).lanes = [] := by
  simp [State.unsupported]
@[simp] theorem State.unsupported_owned (s : State) : (s.unsupported).owned = s.owned := by
  simp [State.unsupported]
@[simp] theorem State.unsupported_breach (s : State) : (s.unsupported).breach = false := by
  simp [State.unsupported]
@[simp] theorem State.unsupported_inputs (s : State) : (s.unsupported).inputs = s.inputs := by
  simp [State.unsupported]
@[simp] theorem State.unsupported_reply (s : State) : (s.unsupported).reply = s.reply := by
  simp [State.unsupported]

/-! ### `nextRow` -/

@[simp] theorem State.nextRow_params (s : State) : (s.nextRow).params = s.params := rfl
@[simp] theorem State.nextRow_mem (s : State) : (s.nextRow).mem = s.mem := rfl
@[simp] theorem State.nextRow_base (s : State) : (s.nextRow).base = s.base := rfl
@[simp] theorem State.nextRow_width (s : State) : (s.nextRow).width = s.width := rfl
@[simp] theorem State.nextRow_height (s : State) : (s.nextRow).height = s.height := rfl
@[simp] theorem State.nextRow_src (s : State) : (s.nextRow).src = s.src := rfl
@[simp] theorem State.nextRow_srclen (s : State) : (s.nextRow).srclen = s.srclen := rfl
@[simp] theorem State.nextRow_cmd (s : State) : (s.nextRow).cmd = s.cmd := rfl
@[simp] theorem State.nextRow_done (s : State) : (s.nextRow).done = s.done := rfl
@[simp] theorem State.nextRow_errv (s : State) : (s.nextRow).errv = s.errv := rfl
@[simp] theorem State.nextRow_rej (s : State) : (s.nextRow).rej = s.rej := rfl
@[simp] theorem State.nextRow_ecode (s : State) : (s.nextRow).ecode = s.ecode := rfl
@[simp] theorem State.nextRow_ie (s : State) : (s.nextRow).ie = s.ie := rfl
@[simp] theorem State.nextRow_erow (s : State) : (s.nextRow).erow = s.erow := rfl
@[simp] theorem State.nextRow_epos (s : State) : (s.nextRow).epos = s.epos := rfl
@[simp] theorem State.nextRow_phase (s : State) : (s.nextRow).phase = s.phase := rfl
@[simp] theorem State.nextRow_op (s : State) : (s.nextRow).op = s.op := rfl
@[simp] theorem State.nextRow_cur (s : State) : (s.nextRow).cur = { s.cur with row := s.cur.row + 1, out := 0 } := rfl
@[simp] theorem State.nextRow_todo (s : State) : (s.nextRow).todo = s.todo := rfl
@[simp] theorem State.nextRow_lanes (s : State) : (s.nextRow).lanes = s.lanes := rfl
@[simp] theorem State.nextRow_owned (s : State) : (s.nextRow).owned = s.owned := rfl
@[simp] theorem State.nextRow_breach (s : State) : (s.nextRow).breach = s.breach := rfl
@[simp] theorem State.nextRow_inputs (s : State) : (s.nextRow).inputs = s.inputs := rfl
@[simp] theorem State.nextRow_reply (s : State) : (s.nextRow).reply = s.reply := rfl
@[simp] theorem State.nextRow_draws (s : State) : (s.nextRow).draws = s.draws := rfl

/-! ### `packetDone` -/

@[simp] theorem State.packetDone_params (s : State) (p : Packet) (m : Memory) :
    (s.packetDone p m).params = s.params := rfl
@[simp] theorem State.packetDone_mem (s : State) (p : Packet) (m : Memory) : (s.packetDone p m).mem = m := rfl
@[simp] theorem State.packetDone_base (s : State) (p : Packet) (m : Memory) : (s.packetDone p m).base = s.base := rfl
@[simp] theorem State.packetDone_width (s : State) (p : Packet) (m : Memory) : (s.packetDone p m).width = s.width := rfl
@[simp] theorem State.packetDone_height (s : State) (p : Packet) (m : Memory) :
    (s.packetDone p m).height = s.height := rfl
@[simp] theorem State.packetDone_src (s : State) (p : Packet) (m : Memory) : (s.packetDone p m).src = s.src := rfl
@[simp] theorem State.packetDone_srclen (s : State) (p : Packet) (m : Memory) :
    (s.packetDone p m).srclen = s.srclen := rfl
@[simp] theorem State.packetDone_cmd (s : State) (p : Packet) (m : Memory) : (s.packetDone p m).cmd = s.cmd := rfl
@[simp] theorem State.packetDone_done (s : State) (p : Packet) (m : Memory) : (s.packetDone p m).done = s.done := rfl
@[simp] theorem State.packetDone_errv (s : State) (p : Packet) (m : Memory) : (s.packetDone p m).errv = s.errv := rfl
@[simp] theorem State.packetDone_rej (s : State) (p : Packet) (m : Memory) : (s.packetDone p m).rej = s.rej := rfl
@[simp] theorem State.packetDone_ecode (s : State) (p : Packet) (m : Memory) : (s.packetDone p m).ecode = s.ecode := rfl
@[simp] theorem State.packetDone_ie (s : State) (p : Packet) (m : Memory) : (s.packetDone p m).ie = s.ie := rfl
@[simp] theorem State.packetDone_erow (s : State) (p : Packet) (m : Memory) : (s.packetDone p m).erow = s.erow := rfl
@[simp] theorem State.packetDone_epos (s : State) (p : Packet) (m : Memory) : (s.packetDone p m).epos = s.epos := rfl
@[simp] theorem State.packetDone_phase (s : State) (p : Packet) (m : Memory) : (s.packetDone p m).phase = s.phase := rfl
@[simp] theorem State.packetDone_op (s : State) (p : Packet) (m : Memory) : (s.packetDone p m).op = s.op := rfl
@[simp] theorem State.packetDone_cur (s : State) (p : Packet) (m : Memory) :
    (s.packetDone p m).cur = { s.cur with sp := s.cur.sp + packetNeed p, out := s.cur.out + packetCount p } := rfl
@[simp] theorem State.packetDone_todo (s : State) (p : Packet) (m : Memory) : (s.packetDone p m).todo = s.todo := rfl
@[simp] theorem State.packetDone_lanes (s : State) (p : Packet) (m : Memory) : (s.packetDone p m).lanes = s.lanes := rfl
@[simp] theorem State.packetDone_owned (s : State) (p : Packet) (m : Memory) : (s.packetDone p m).owned = s.owned := rfl
@[simp] theorem State.packetDone_breach (s : State) (p : Packet) (m : Memory) :
    (s.packetDone p m).breach = s.breach := rfl
@[simp] theorem State.packetDone_inputs (s : State) (p : Packet) (m : Memory) :
    (s.packetDone p m).inputs = s.inputs := rfl
@[simp] theorem State.packetDone_reply (s : State) (p : Packet) (m : Memory) : (s.packetDone p m).reply = s.reply := rfl
@[simp] theorem State.packetDone_draws (s : State) (p : Packet) (m : Memory) : (s.packetDone p m).draws = s.draws := rfl

/-! ### `beginStream` -/

@[simp] theorem State.beginStream_params (s : State) (d : Depth) : (s.beginStream d).params = s.params := rfl
@[simp] theorem State.beginStream_mem (s : State) (d : Depth) : (s.beginStream d).mem = s.mem := rfl
@[simp] theorem State.beginStream_base (s : State) (d : Depth) : (s.beginStream d).base = s.base := rfl
@[simp] theorem State.beginStream_width (s : State) (d : Depth) : (s.beginStream d).width = s.width := rfl
@[simp] theorem State.beginStream_height (s : State) (d : Depth) : (s.beginStream d).height = s.height := rfl
@[simp] theorem State.beginStream_src (s : State) (d : Depth) : (s.beginStream d).src = s.src := rfl
@[simp] theorem State.beginStream_srclen (s : State) (d : Depth) : (s.beginStream d).srclen = s.srclen := rfl
@[simp] theorem State.beginStream_cmd (s : State) (d : Depth) : (s.beginStream d).cmd = s.cmd := rfl
@[simp] theorem State.beginStream_done (s : State) (d : Depth) : (s.beginStream d).done = s.done := rfl
@[simp] theorem State.beginStream_errv (s : State) (d : Depth) : (s.beginStream d).errv = s.errv := rfl
@[simp] theorem State.beginStream_rej (s : State) (d : Depth) : (s.beginStream d).rej = s.rej := rfl
@[simp] theorem State.beginStream_ecode (s : State) (d : Depth) : (s.beginStream d).ecode = s.ecode := rfl
@[simp] theorem State.beginStream_ie (s : State) (d : Depth) : (s.beginStream d).ie = s.ie := rfl
@[simp] theorem State.beginStream_erow (s : State) (d : Depth) : (s.beginStream d).erow = s.erow := rfl
@[simp] theorem State.beginStream_epos (s : State) (d : Depth) : (s.beginStream d).epos = s.epos := rfl
@[simp] theorem State.beginStream_phase (s : State) (d : Depth) : (s.beginStream d).phase = .stream := rfl
@[simp] theorem State.beginStream_op (s : State) (d : Depth) : (s.beginStream d).op = s.op := rfl
@[simp] theorem State.beginStream_cur (s : State) (d : Depth) :
    (s.beginStream d).cur = ⟨0, 0, 0, rowBytes d s.op.W⟩ := rfl
@[simp] theorem State.beginStream_todo (s : State) (d : Depth) : (s.beginStream d).todo = s.todo := rfl
@[simp] theorem State.beginStream_lanes (s : State) (d : Depth) : (s.beginStream d).lanes = s.lanes := rfl
@[simp] theorem State.beginStream_owned (s : State) (d : Depth) : (s.beginStream d).owned = s.owned := rfl
@[simp] theorem State.beginStream_breach (s : State) (d : Depth) : (s.beginStream d).breach = s.breach := rfl
@[simp] theorem State.beginStream_inputs (s : State) (d : Depth) : (s.beginStream d).inputs = s.inputs := rfl
@[simp] theorem State.beginStream_reply (s : State) (d : Depth) : (s.beginStream d).reply = s.reply := rfl
@[simp] theorem State.beginStream_draws (s : State) (d : Depth) : (s.beginStream d).draws = s.draws := rfl

/-! ### `accept` -/

@[simp] theorem State.accept_params (s : State) (v : Word) : (s.accept v).params = s.params := rfl
@[simp] theorem State.accept_mem (s : State) (v : Word) : (s.accept v).mem = s.mem := rfl
@[simp] theorem State.accept_base (s : State) (v : Word) : (s.accept v).base = s.base := rfl
@[simp] theorem State.accept_width (s : State) (v : Word) : (s.accept v).width = s.width := rfl
@[simp] theorem State.accept_height (s : State) (v : Word) : (s.accept v).height = s.height := rfl
@[simp] theorem State.accept_src (s : State) (v : Word) : (s.accept v).src = s.src := rfl
@[simp] theorem State.accept_srclen (s : State) (v : Word) : (s.accept v).srclen = s.srclen := rfl
@[simp] theorem State.accept_cmd (s : State) (v : Word) : (s.accept v).cmd = v := rfl
@[simp] theorem State.accept_done (s : State) (v : Word) : (s.accept v).done = false := rfl
@[simp] theorem State.accept_errv (s : State) (v : Word) : (s.accept v).errv = s.errv := rfl
@[simp] theorem State.accept_rej (s : State) (v : Word) : (s.accept v).rej = s.rej := rfl
@[simp] theorem State.accept_ecode (s : State) (v : Word) : (s.accept v).ecode = s.ecode := rfl
@[simp] theorem State.accept_ie (s : State) (v : Word) : (s.accept v).ie = s.ie := rfl
@[simp] theorem State.accept_erow (s : State) (v : Word) : (s.accept v).erow = 0#32 := rfl
@[simp] theorem State.accept_epos (s : State) (v : Word) : (s.accept v).epos = 0#32 := rfl
@[simp] theorem State.accept_phase (s : State) (v : Word) : (s.accept v).phase = .start := rfl
@[simp] theorem State.accept_op (s : State) (v : Word) : (s.accept v).op = s.latch v := rfl
@[simp] theorem State.accept_cur (s : State) (v : Word) : (s.accept v).cur = s.cur := rfl
@[simp] theorem State.accept_todo (s : State) (v : Word) : (s.accept v).todo = s.todo := rfl
@[simp] theorem State.accept_lanes (s : State) (v : Word) : (s.accept v).lanes = s.lanes := rfl
@[simp] theorem State.accept_owned (s : State) (v : Word) :
    (s.accept v).owned = s.owned ++ [⟨(s.latch v).regions⟩] := rfl
@[simp] theorem State.accept_breach (s : State) (v : Word) : (s.accept v).breach = false := rfl
@[simp] theorem State.accept_inputs (s : State) (v : Word) : (s.accept v).inputs = s.inputs := rfl
@[simp] theorem State.accept_reply (s : State) (v : Word) : (s.accept v).reply = s.reply := rfl
@[simp] theorem State.accept_draws (s : State) (v : Word) : (s.accept v).draws = s.draws := rfl

/-! ### `writeStatus` -/

@[simp] theorem State.writeStatus_params (s : State) (v : Word) : (s.writeStatus v).params = s.params := rfl
@[simp] theorem State.writeStatus_mem (s : State) (v : Word) : (s.writeStatus v).mem = s.mem := rfl
@[simp] theorem State.writeStatus_base (s : State) (v : Word) : (s.writeStatus v).base = s.base := rfl
@[simp] theorem State.writeStatus_width (s : State) (v : Word) : (s.writeStatus v).width = s.width := rfl
@[simp] theorem State.writeStatus_height (s : State) (v : Word) : (s.writeStatus v).height = s.height := rfl
@[simp] theorem State.writeStatus_src (s : State) (v : Word) : (s.writeStatus v).src = s.src := rfl
@[simp] theorem State.writeStatus_srclen (s : State) (v : Word) : (s.writeStatus v).srclen = s.srclen := rfl
@[simp] theorem State.writeStatus_cmd (s : State) (v : Word) : (s.writeStatus v).cmd = s.cmd := rfl
@[simp] theorem State.writeStatus_ie (s : State) (v : Word) : (s.writeStatus v).ie = s.ie := rfl
@[simp] theorem State.writeStatus_erow (s : State) (v : Word) : (s.writeStatus v).erow = s.erow := rfl
@[simp] theorem State.writeStatus_epos (s : State) (v : Word) : (s.writeStatus v).epos = s.epos := rfl
@[simp] theorem State.writeStatus_phase (s : State) (v : Word) : (s.writeStatus v).phase = s.phase := rfl
@[simp] theorem State.writeStatus_op (s : State) (v : Word) : (s.writeStatus v).op = s.op := rfl
@[simp] theorem State.writeStatus_cur (s : State) (v : Word) : (s.writeStatus v).cur = s.cur := rfl
@[simp] theorem State.writeStatus_todo (s : State) (v : Word) : (s.writeStatus v).todo = s.todo := rfl
@[simp] theorem State.writeStatus_lanes (s : State) (v : Word) : (s.writeStatus v).lanes = s.lanes := rfl
@[simp] theorem State.writeStatus_owned (s : State) (v : Word) : (s.writeStatus v).owned = s.owned := rfl
@[simp] theorem State.writeStatus_breach (s : State) (v : Word) : (s.writeStatus v).breach = s.breach := rfl
@[simp] theorem State.writeStatus_inputs (s : State) (v : Word) : (s.writeStatus v).inputs = s.inputs := rfl
@[simp] theorem State.writeStatus_reply (s : State) (v : Word) : (s.writeStatus v).reply = s.reply := rfl
@[simp] theorem State.writeStatus_draws (s : State) (v : Word) : (s.writeStatus v).draws = s.draws := rfl

/-! ### `rst` -/

@[simp] theorem State.rst_params (s : State) : (s.rst).params = s.params := rfl
@[simp] theorem State.rst_base (s : State) : (s.rst).base = 0#32 := rfl
@[simp] theorem State.rst_width (s : State) : (s.rst).width = 0#32 := rfl
@[simp] theorem State.rst_height (s : State) : (s.rst).height = 0#32 := rfl
@[simp] theorem State.rst_src (s : State) : (s.rst).src = 0#32 := rfl
@[simp] theorem State.rst_srclen (s : State) : (s.rst).srclen = 0#32 := rfl
@[simp] theorem State.rst_cmd (s : State) : (s.rst).cmd = 0#32 := rfl
@[simp] theorem State.rst_done (s : State) : (s.rst).done = false := rfl
@[simp] theorem State.rst_errv (s : State) : (s.rst).errv = false := rfl
@[simp] theorem State.rst_rej (s : State) : (s.rst).rej = false := rfl
@[simp] theorem State.rst_ecode (s : State) : (s.rst).ecode = 0#4 := rfl
@[simp] theorem State.rst_ie (s : State) : (s.rst).ie = false := rfl
@[simp] theorem State.rst_erow (s : State) : (s.rst).erow = 0#32 := rfl
@[simp] theorem State.rst_epos (s : State) : (s.rst).epos = 0#32 := rfl
@[simp] theorem State.rst_phase (s : State) : (s.rst).phase = .idle := rfl
@[simp] theorem State.rst_op (s : State) : (s.rst).op = Op.unset := rfl
@[simp] theorem State.rst_cur (s : State) : (s.rst).cur = Cursor.absent := rfl
@[simp] theorem State.rst_todo (s : State) : (s.rst).todo = [] := rfl
@[simp] theorem State.rst_lanes (s : State) : (s.rst).lanes = [] := rfl
@[simp] theorem State.rst_owned (s : State) : (s.rst).owned = [] := rfl
@[simp] theorem State.rst_breach (s : State) : (s.rst).breach = false := rfl
@[simp] theorem State.rst_inputs (s : State) : (s.rst).inputs = s.inputs := rfl
@[simp] theorem State.rst_reply (s : State) : (s.rst).reply = .none := rfl

/-! ### `observe` -/

@[simp] theorem State.observe_params (s : State) : (s.observe).params = s.params := by
  unfold State.observe; split <;> rfl
@[simp] theorem State.observe_mem (s : State) : (s.observe).mem = s.mem := by
  unfold State.observe; split <;> rfl
@[simp] theorem State.observe_base (s : State) : (s.observe).base = s.base := by
  unfold State.observe; split <;> rfl
@[simp] theorem State.observe_width (s : State) : (s.observe).width = s.width := by
  unfold State.observe; split <;> rfl
@[simp] theorem State.observe_height (s : State) : (s.observe).height = s.height := by
  unfold State.observe; split <;> rfl
@[simp] theorem State.observe_src (s : State) : (s.observe).src = s.src := by
  unfold State.observe; split <;> rfl
@[simp] theorem State.observe_srclen (s : State) : (s.observe).srclen = s.srclen := by
  unfold State.observe; split <;> rfl
@[simp] theorem State.observe_cmd (s : State) : (s.observe).cmd = s.cmd := by
  unfold State.observe; split <;> rfl
@[simp] theorem State.observe_done (s : State) : (s.observe).done = s.done := by
  unfold State.observe; split <;> rfl
@[simp] theorem State.observe_errv (s : State) : (s.observe).errv = s.errv := by
  unfold State.observe; split <;> rfl
@[simp] theorem State.observe_rej (s : State) : (s.observe).rej = s.rej := by
  unfold State.observe; split <;> rfl
@[simp] theorem State.observe_ecode (s : State) : (s.observe).ecode = s.ecode := by
  unfold State.observe; split <;> rfl
@[simp] theorem State.observe_ie (s : State) : (s.observe).ie = s.ie := by
  unfold State.observe; split <;> rfl
@[simp] theorem State.observe_erow (s : State) : (s.observe).erow = s.erow := by
  unfold State.observe; split <;> rfl
@[simp] theorem State.observe_epos (s : State) : (s.observe).epos = s.epos := by
  unfold State.observe; split <;> rfl
@[simp] theorem State.observe_phase (s : State) : (s.observe).phase = s.phase := by
  unfold State.observe; split <;> rfl
@[simp] theorem State.observe_op (s : State) : (s.observe).op = s.op := by
  unfold State.observe; split <;> rfl
@[simp] theorem State.observe_cur (s : State) : (s.observe).cur = s.cur := by
  unfold State.observe; split <;> rfl
@[simp] theorem State.observe_todo (s : State) : (s.observe).todo = s.todo := by
  unfold State.observe; split <;> rfl
@[simp] theorem State.observe_lanes (s : State) : (s.observe).lanes = s.lanes := by
  unfold State.observe; split <;> rfl
@[simp] theorem State.observe_breach (s : State) : (s.observe).breach = s.breach := by
  unfold State.observe; split <;> rfl
@[simp] theorem State.observe_inputs (s : State) : (s.observe).inputs = s.inputs := by
  unfold State.observe; split <;> rfl
@[simp] theorem State.observe_reply (s : State) : (s.observe).reply = s.reply := by
  unfold State.observe; split <;> rfl
@[simp] theorem State.observe_draws (s : State) : (s.observe).draws = s.draws := by
  unfold State.observe; split <;> rfl

end Sys2Proof.Machine
end

