-- ==== Sys2Proof/Laws/Ops.lean ====
section
/-! SUPPORT. What the shared operations can do to memory and to the status flags, said once each. -/

namespace Sys2Proof.Machine

/-! ### Relations on memories -/

theorem Memory.Same.refl (m : Memory) : Memory.Same m m := fun _ => rfl

theorem Memory.SameOutside.refl (m : Memory) (a n : Nat) : Memory.SameOutside m m a n := fun _ _ => rfl

theorem Memory.SameOutside.trans {m k l : Memory} {a n : Nat} (h1 : Memory.SameOutside m k a n)
    (h2 : Memory.SameOutside k l a n) : Memory.SameOutside m l a n := fun x hx => (h2 x hx).trans (h1 x hx)

/-- Nothing changes outside a range that lies inside another. -/
theorem Memory.SameOutside.mono {m k : Memory} {a n b l : Nat} (h : Memory.SameOutside m k a n)
    (hn : n = 0 ∨ (b ≤ a ∧ a + n ≤ b + l)) : Memory.SameOutside m k b l := by
  intro x hx
  rcases Nat.lt_or_ge x a with h1 | h1
  · exact h x (.inl h1)
  · rcases hn with rfl | ⟨h2, h3⟩
    · exact h x (by omega)
    · exact h x (by omega)

/-! ### Unspecified bytes -/

theorem State.havocBut_read (s : State) (keep : Nat → Bool) (a n x : Nat)
    (h : x < a ∨ a + n ≤ x ∨ keep x = true) : Memory.read (s.havocBut keep a n).mem x = Memory.read s.mem x :=
  Memory.read_fillFree _ _ _ _ _ _ (h.imp_right (.imp_left (by omega)))

theorem State.havocBut_wf {s : State} (keep : Nat → Bool) (a n : Nat) (h : Memory.wf s.mem = true) :
    Memory.wf (s.havocBut keep a n).mem = true :=
  Memory.wf_fillFree _ _ _ _ h

theorem State.havocBut_within {s : State} (keep : Nat → Bool) (a n : Nat)
    (h : Memory.within s.params.memSize s.mem = true) :
    Memory.within s.params.memSize (s.havocBut keep a n).mem = true :=
  Memory.within_fillFree _ _ _ _ (by omega) h

theorem State.havoc_sameOutside (s : State) (a n : Nat) : Memory.SameOutside s.mem (s.havoc a n).mem a n :=
  fun x hx => s.havocBut_read _ a n x (by omega)

theorem State.havoc_wf {s : State} (a n : Nat) (h : Memory.wf s.mem = true) : Memory.wf (s.havoc a n).mem = true :=
  State.havocBut_wf _ _ _ h

theorem State.havoc_within {s : State} (a n : Nat) (h : Memory.within s.params.memSize s.mem = true) :
    Memory.within s.params.memSize (s.havoc a n).mem = true :=
  State.havocBut_within _ _ _ h

/-- Bytes outside every written region, and the bytes kept, stay. -/
theorem State.havocWritten_read (s : State) (keep : Nat → Bool) (rs : List Region) (x : Nat)
    (h : keep x = true ∨ ∀ g ∈ rs, g.written = true → g.contains x = false) :
    Memory.read (s.havocWritten keep rs).mem x = Memory.read s.mem x := by
  induction rs generalizing s with
  | nil => rfl
  | cons r rs ih =>
    rw [State.havocWritten, ih _ (h.imp_right (fun h g hg => h g (List.mem_cons_of_mem _ hg)))]
    split
    · next hw =>
      refine s.havocBut_read _ _ _ x ?_
      rcases h with h | h
      · exact .inr (.inr h)
      · have hr := h r (by simp) hw
        simp only [Region.contains, Bool.and_eq_false_iff, decide_eq_false_iff_not] at hr
        omega
    · rfl

theorem State.havocWritten_shape (s : State) (keep : Nat → Bool) (rs : List Region) : s.havocWritten keep rs =
    { s with mem := (s.havocWritten keep rs).mem, draws := (s.havocWritten keep rs).draws } := by
  induction rs generalizing s with
  | nil => rfl
  | cons r rs ih => rw [State.havocWritten, ih]; split <;> rfl

theorem State.havocWritten_wf {s : State} (keep : Nat → Bool) (rs : List Region) (h : Memory.wf s.mem = true) :
    Memory.wf (s.havocWritten keep rs).mem = true := by
  induction rs generalizing s with
  | nil => exact h
  | cons r rs ih =>
    rw [State.havocWritten]; split
    · exact ih (State.havocBut_wf _ _ _ h)
    · exact ih h

theorem State.havocWritten_within {s : State} (keep : Nat → Bool) (rs : List Region)
    (h : Memory.within s.params.memSize s.mem = true) :
    Memory.within s.params.memSize (s.havocWritten keep rs).mem = true := by
  induction rs generalizing s with
  | nil => exact h
  | cons r rs ih =>
    rw [State.havocWritten]; split
    · exact ih (State.havocBut_within _ _ _ h)
    · exact ih h

/-! ### A breach of ownership -/

theorem Claim.writes_eq_false {c : Claim} {x : Nat} :
    c.writes x = false ↔ ∀ g ∈ c.regions, g.written = true → g.contains x = false := by
  simp [Claim.writes]

/-- A byte stays when no command that owns `a` writes it. -/
theorem State.loosen_read (s : State) (a : Nat) (cs : List Claim) (x : Nat)
    (h : ∀ c ∈ cs, c.contains a = true → c.writes x = false) :
    Memory.read (s.loosen a cs).mem x = Memory.read s.mem x := by
  induction cs generalizing s with
  | nil => rfl
  | cons c cs ih =>
    rw [State.loosen, ih _ (fun d hd => h d (List.mem_cons_of_mem _ hd))]
    split
    · next hc => exact State.havocWritten_read _ _ _ _ (.inr (Claim.writes_eq_false.1 (h c (by simp) hc)))
    · rfl

/-- A byte of a command that does not own `a` stays, unless a later command that owns `a` writes it. -/
theorem State.loosen_read_claimed (s : State) (a : Nat) (before after : List Claim) (c : Claim) (x : Nat)
    (ha : c.contains a = false) (hx : c.contains x = true)
    (h : ∀ d ∈ after, d.contains a = true → d.writes x = false) :
    Memory.read (s.loosen a (before ++ c :: after)).mem x = Memory.read s.mem x := by
  induction before generalizing s with
  | nil =>
    refine State.loosen_read s a _ x (fun d hd hda => ?_)
    rcases List.mem_cons.1 hd with rfl | hd
    · rw [ha] at hda; simp at hda
    · exact h d hd hda
  | cons b before ih =>
    rw [List.cons_append, State.loosen, ih]
    split
    · refine State.havocWritten_read _ _ _ _ (.inl ?_)
      simp [claimedApartFrom, ha, hx]
    · rfl

theorem State.loosen_shape (s : State) (a : Nat) (cs : List Claim) :
    s.loosen a cs = { s with mem := (s.loosen a cs).mem, draws := (s.loosen a cs).draws } := by
  induction cs generalizing s with
  | nil => rfl
  | cons c cs ih =>
    rw [State.loosen, ih]; split
    · rw [State.havocWritten_shape]
    · rfl

theorem State.loosen_wf {s : State} (a : Nat) (cs : List Claim) (h : Memory.wf s.mem = true) :
    Memory.wf (s.loosen a cs).mem = true := by
  induction cs generalizing s with
  | nil => exact h
  | cons c cs ih =>
    rw [State.loosen]; split
    · exact ih (State.havocWritten_wf _ _ h)
    · exact ih h

theorem State.loosen_within {s : State} (a : Nat) (cs : List Claim)
    (h : Memory.within s.params.memSize s.mem = true) :
    Memory.within s.params.memSize (s.loosen a cs).mem = true := by
  induction cs generalizing s with
  | nil => exact h
  | cons c cs ih =>
    rw [State.loosen]; split
    · have := ih (s := s.havocWritten (claimedApartFrom cs a) c.regions)
      rw [State.havocWritten_params] at this
      exact this (State.havocWritten_within _ _ h)
    · exact ih h

/-! ### Completions -/

/-- Without a breach of ownership a command just ends. -/
theorem State.endCommand_of_no_breach {s : State} (n : Nat) (e : Ending) (h : s.breach = false) :
    s.endCommand n e = s.finish e := by simp [State.endCommand, h]

theorem State.endRleStart_of_no_breach {s : State} (n : Nat) (e : Ending) (h : s.breach = false) :
    s.endRleStart n e = s.finish e := by simp [State.endRleStart, h]

theorem State.endRle_ok_of_no_breach {s : State} (n : Nat) (h : s.breach = false) :
    s.endRle n .ok = s.finish .ok := by simp [State.endRle, h]

theorem State.endRle_error_of_no_breach {s : State} (n : Nat) (k : ErrorKind) (r p : Word) (h : s.breach = false) :
    s.endRle n (.error k r p) = (s.havoc s.op.B n).finish (.error k r p) := by simp [State.endRle, h]

/-- Every ending of a command is a completion event on a state in which only memory and the draws differ. -/
inductive State.EndsAs (s t : State) (n : Nat) : Prop
  | intro (u : State) (e : Ending) (shape : u = { s with mem := u.mem, draws := u.draws })
      (outside : Memory.SameOutside s.mem u.mem s.op.B n)
      (wf : Memory.wf s.mem = true → Memory.wf u.mem = true)
      (within : Memory.within s.params.memSize s.mem = true → Memory.within s.params.memSize u.mem = true)
      (result : t = u.finish e)

theorem State.endsAs_self (s : State) (n : Nat) (e : Ending) : State.EndsAs s (s.finish e) n :=
  ⟨s, e, rfl, .refl _ _ _, id, id, rfl⟩

theorem State.endsAs_havoc (s : State) (n d : Nat) (e : Ending) :
    State.EndsAs s ({ s.havoc s.op.B n with draws := d }.finish e) n :=
  ⟨{ s.havoc s.op.B n with draws := d }, e, rfl, State.havoc_sameOutside s _ _, State.havoc_wf _ _,
    State.havoc_within _ _, rfl⟩

theorem State.endCommand_endsAs (s : State) (n : Nat) (e : Ending) : State.EndsAs s (s.endCommand n e) n := by
  unfold State.endCommand; split
  · exact State.endsAs_havoc s n _ e
  · exact State.endsAs_self s n e

theorem State.looseEnd_endsAs (s : State) (n : Nat) : State.EndsAs s (s.looseEnd n) n := State.endsAs_havoc s n _ _

theorem State.endRleStart_endsAs (s : State) (n : Nat) (e : Ending) : State.EndsAs s (s.endRleStart n e) n := by
  unfold State.endRleStart; split
  · exact State.looseEnd_endsAs s n
  · exact State.endsAs_self s n e

theorem State.endRle_endsAs (s : State) (n : Nat) (e : Ending) : State.EndsAs s (s.endRle n e) n := by
  unfold State.endRle; split
  · exact State.looseEnd_endsAs s n
  · split
    · exact State.endsAs_self s n _
    · exact State.endsAs_havoc s n _ _

theorem State.unsupported_endsAs (s : State) (n : Nat) : State.EndsAs s s.unsupported n := by
  obtain ⟨u, e, h1, h2, h3, h4, h5⟩ := State.endCommand_endsAs s 0 (.error .unsupportedCombination 0#32 0#32)
  exact ⟨u, e, h1, h2.mono (.inl rfl), h3, h4, h5⟩

/-- What an ending leaves alone. -/
theorem State.EndsAs.keepsHostSide {s t : State} {n : Nat} (h : State.EndsAs s t n) : State.KeepsHostSide s t := by
  obtain ⟨u, e, hu, -, -, -, rfl⟩ := h
  rw [hu]
  simp [State.KeepsHostSide]

/-- What an ending does to memory. -/
theorem State.EndsAs.sameOutside {s t : State} {n : Nat} (h : State.EndsAs s t n) :
    Memory.SameOutside s.mem t.mem s.op.B n := by
  obtain ⟨u, e, -, ho, -, -, rfl⟩ := h
  simpa using ho

/-- After an ending the block is idle and nothing of the command is left. -/
theorem State.EndsAs.over {s t : State} {n : Nat} (h : State.EndsAs s t n) :
    t.phase = .idle ∧ t.done = true ∧ t.cur = Cursor.absent ∧ t.todo = [] ∧ t.lanes = [] ∧ t.breach = false := by
  obtain ⟨u, e, -, -, -, -, rfl⟩ := h
  simp

theorem ErrorKind.code_ne_zero (k : ErrorKind) : k.code ≠ 0#4 := by cases k <;> decide

/-- An ending of a command that ran with no unacknowledged error meets the `STATUS` invariants. -/
theorem State.EndsAs.statusInv {s t : State} {n : Nat} (h : State.EndsAs s t n) (he : s.errv = false)
    (hc : s.ecode = 0#4) : t.StatusInv := by
  obtain ⟨u, e, hu, -, -, -, rfl⟩ := h
  have h1 : u.errv = false := by rw [hu]; exact he
  have h2 : u.ecode = 0#4 := by rw [hu]; exact hc
  cases e with
  | ok => simp [State.StatusInv, State.busy, State.finish, State.retire, h1, h2]
  | error k r p => simp [State.StatusInv, State.busy, State.finish, State.retire, ErrorKind.code_ne_zero]

theorem State.EndsAs.memInv {s t : State} {n : Nat} (h : State.EndsAs s t n) (hw : Memory.wf s.mem = true)
    (hb : Memory.within s.params.memSize s.mem = true) : t.MemInv := by
  have hover := h.over
  have hk := h.keepsHostSide
  obtain ⟨u, e, -, -, h3, h4, rfl⟩ := h
  refine ⟨by simpa using h3 hw, by rw [hk.1]; simpa using h4 hb, ?_⟩
  rw [hover.2.2.2.2.1]
  simp

end Sys2Proof.Machine
end

