-- ==== Sys2Proof/Laws/Items.lean ====
section
/-! SUPPORT. Locality of the in-place commands: a byte operation changes and depends on the bytes it touches only, every
item stays in its own block of the buffer, so items do not disturb each other. -/

namespace Sys2Proof.Machine

/-! ### One byte operation -/

/-- A byte operation changes no byte it does not touch. -/
theorem ByteOp.run_frame (b : ByteOp) (m t : Memory) (x : Nat) (h : x ∉ b.touched) :
    Memory.read (b.run (m, t)).1 x = Memory.read m x := by
  cases b <;>
    simp only [ByteOp.touched, List.mem_cons, List.not_mem_nil, or_false, not_or, not_false_eq_true] at h <;>
    simp only [ByteOp.run, Memory.read_write, Memory.read_write16] <;>
    simp [h]

/-- What a byte operation does depends on the bytes it touches and on the staging copy. -/
theorem ByteOp.run_congr (b : ByteOp) (m k t : Memory) (h : ∀ a ∈ b.touched, Memory.read m a = Memory.read k a) :
    (b.run (m, t)).2 = (b.run (k, t)).2 ∧
      ∀ a ∈ b.touched, Memory.read (b.run (m, t)).1 a = Memory.read (b.run (k, t)).1 a := by
  have low : ∀ a, (a - 2) + 1 = a - 1 ∨ (a - 2) + 1 = a ∨ (a - 2) + 1 = a + 1 := by omega
  cases b with
  | add16 a =>
    simp only [ByteOp.touched, List.mem_cons, List.not_mem_nil, or_false, forall_eq_or_imp, forall_eq] at h ⊢
    obtain ⟨h1, h2, h3, h4⟩ := h
    have h5 : Memory.read m (a - 2 + 1) = Memory.read k (a - 2 + 1) := by
      rcases low a with e | e | e <;> rw [e] <;> assumption
    simp only [ByteOp.run, Memory.read16, Memory.read_write16, h1, h2, h3, h4, h5, and_self]
  | sub16 a =>
    simp only [ByteOp.touched, List.mem_cons, List.not_mem_nil, or_false, forall_eq_or_imp, forall_eq] at h ⊢
    obtain ⟨h1, h2, h3, h4⟩ := h
    have h5 : Memory.read m (a - 2 + 1) = Memory.read k (a - 2 + 1) := by
      rcases low a with e | e | e <;> rw [e] <;> assumption
    simp only [ByteOp.run, Memory.read16, Memory.read_write16, h1, h2, h3, h4, h5, and_self]
  | _ =>
    simp only [ByteOp.touched, List.mem_cons, List.not_mem_nil, or_false, forall_eq_or_imp, forall_eq,
      false_imp_iff, implies_true] at h ⊢
    simp only [ByteOp.run, Memory.read_write, h, and_self]

theorem ByteOp.run_wf (b : ByteOp) {m t : Memory} (h : Memory.wf m = true) (ht : Memory.wf t = true) :
    Memory.wf (b.run (m, t)).1 = true ∧ Memory.wf (b.run (m, t)).2 = true := by
  cases b with
  | swap4 a => exact ⟨Memory.wf_write _ _ (Memory.wf_write _ _ (Memory.wf_write _ _ (Memory.wf_write _ _ h))), ht⟩
  | _ => simp [ByteOp.run, Memory.write16, Memory.wf_write, h, ht]

theorem ByteOp.run_within (b : ByteOp) {m t : Memory} {n : Nat} (hb : ∀ a ∈ b.touched, a < n)
    (h : Memory.within n m = true) : Memory.within n (b.run (m, t)).1 = true := by
  cases b with
  | swap4 a =>
    simp only [ByteOp.touched, List.mem_cons, List.not_mem_nil, or_false, forall_eq_or_imp, forall_eq] at hb
    exact Memory.within_write _ hb.2.2.2 (Memory.within_write _ hb.2.2.1 (Memory.within_write _ hb.2.1
      (Memory.within_write _ hb.1 h)))
  | _ =>
    simp only [ByteOp.touched, List.mem_cons, List.not_mem_nil, or_false, forall_eq_or_imp, forall_eq,
      false_imp_iff, implies_true] at hb
    simp [ByteOp.run, Memory.write16, Memory.within_write, h, hb]

/-! ### Lists of byte operations inside a set of addresses -/

theorem runOps_cons (b : ByteOp) (ops : List ByteOp) (x : Memory × Memory) :
    runOps (b :: ops) x = runOps ops (b.run x) := rfl

theorem runOps_append (xs ys : List ByteOp) (x : Memory × Memory) :
    runOps (xs ++ ys) x = runOps ys (runOps xs x) := by simp [runOps]

theorem runOps_frame {P : Nat → Prop} (ops : List ByteOp) (hP : ∀ b ∈ ops, ∀ a ∈ b.touched, P a)
    (y : Memory × Memory) (x : Nat) (hx : ¬ P x) : Memory.read (runOps ops y).1 x = Memory.read y.1 x := by
  induction ops generalizing y with
  | nil => rfl
  | cons b ops ih =>
    rw [runOps_cons, ih (fun c hc => hP c (by simp [hc]))]
    exact ByteOp.run_frame b y.1 y.2 x (fun h => hx (hP b (by simp) x h))

theorem runOps_congr {P : Nat → Prop} (ops : List ByteOp) (hP : ∀ b ∈ ops, ∀ a ∈ b.touched, P a)
    (m k t : Memory) (h : ∀ a, P a → Memory.read m a = Memory.read k a) :
    (runOps ops (m, t)).2 = (runOps ops (k, t)).2 ∧
      ∀ a, P a → Memory.read (runOps ops (m, t)).1 a = Memory.read (runOps ops (k, t)).1 a := by
  induction ops generalizing m k t with
  | nil => exact ⟨rfl, h⟩
  | cons b ops ih =>
    obtain ⟨h1, h2⟩ := ByteOp.run_congr b m k t (fun a ha => h a (hP b (by simp) a ha))
    rw [runOps_cons, runOps_cons, show b.run (m, t) = ((b.run (m, t)).1, (b.run (m, t)).2) from rfl,
      show b.run (k, t) = ((b.run (k, t)).1, (b.run (k, t)).2) from rfl, h1]
    refine ih (fun c hc => hP c (by simp [hc])) _ _ _ (fun a ha => ?_)
    by_cases hb : a ∈ b.touched
    · exact h2 a hb
    · rw [ByteOp.run_frame b m t a hb, ByteOp.run_frame b k t a hb, h a ha]

theorem runOps_wf (ops : List ByteOp) (y : Memory × Memory) (h : Memory.wf y.1 = true) (ht : Memory.wf y.2 = true) :
    Memory.wf (runOps ops y).1 = true ∧ Memory.wf (runOps ops y).2 = true := by
  induction ops generalizing y with
  | nil => exact ⟨h, ht⟩
  | cons b ops ih => exact ih _ (b.run_wf h ht).1 (b.run_wf h ht).2

theorem runOps_within (ops : List ByteOp) (n : Nat) (hn : ∀ b ∈ ops, ∀ a ∈ b.touched, a < n)
    (y : Memory × Memory) (h : Memory.within n y.1 = true) : Memory.within n (runOps ops y).1 = true := by
  induction ops generalizing y with
  | nil => exact h
  | cons b ops ih =>
    exact ih (fun c hc => hn c (by simp [hc])) _ (ByteOp.run_within b (hn b (by simp)) h)

/-! ### Items in blocks of their own -/

/-- Address `x` lies in block `i` of blocks of `size` bytes laid out from `base`. -/
def InBlock (base size i x : Nat) : Prop := base + i * size ≤ x ∧ x < base + (i + 1) * size

theorem InBlock.unique {base size i j x : Nat} (hi : InBlock base size i x) (hj : InBlock base size j x) : i = j := by
  obtain ⟨h1, h2⟩ := hi
  obtain ⟨h3, h4⟩ := hj
  rcases Nat.lt_trichotomy i j with h | h | h
  · have := Nat.mul_le_mul_right size (show i + 1 ≤ j by omega)
    omega
  · exact h
  · have := Nat.mul_le_mul_right size (show j + 1 ≤ i by omega)
    omega

theorem InBlock.in_region {base size i x count : Nat} (h : InBlock base size i x) (hi : i < count) :
    base ≤ x ∧ x < base + count * size := by
  have := Nat.mul_le_mul_right size (show i + 1 ≤ count by omega)
  exact ⟨by have := h.1; omega, by have := h.2; omega⟩

/-- Every address of the region lies in one of its blocks. -/
theorem InBlock.exists_of_region {base size count x : Nat} (h1 : base ≤ x) (h2 : x < base + count * size) :
    ∃ i, i < count ∧ InBlock base size i x := by
  have hs : 0 < size := by
    rcases Nat.eq_zero_or_pos size with h | h
    · rw [h] at h2; omega
    · exact h
  refine ⟨(x - base) / size, ?_, ?_, ?_⟩
  · exact (Nat.div_lt_iff_lt_mul hs).2 (by omega)
  · have := Nat.div_mul_le_self (x - base) size
    omega
  · have := Nat.lt_mul_div_succ (x - base) hs
    rw [Nat.mul_comm] at this
    omega

/-- The items of a command stay in their blocks of the buffer. -/
def Work.Local (w : Work) (base size : Nat) : Prop :=
  ∀ i, ∀ b ∈ w.prog i, ∀ a ∈ b.touched, InBlock base size i a

theorem runItem_frame {w : Work} {base size : Nat} (hl : w.Local base size) (i : Nat) (m : Memory) (x : Nat)
    (hx : ¬ InBlock base size i x) : Memory.read (runItem (w.prog i) m) x = Memory.read m x :=
  runOps_frame (w.prog i) (hl i) (m, []) x hx

theorem runItem_congr {w : Work} {base size : Nat} (hl : w.Local base size) (i : Nat) (m k : Memory)
    (h : ∀ a, InBlock base size i a → Memory.read m a = Memory.read k a) (x : Nat) (hx : InBlock base size i x) :
    Memory.read (runItem (w.prog i) m) x = Memory.read (runItem (w.prog i) k) x :=
  (runOps_congr (w.prog i) (hl i) m k [] h).2 x hx

/-- Taking distinct items in any order: a block whose item was taken holds what that item alone makes of it. -/
theorem runItems_read {w : Work} {base size : Nat} (hl : w.Local base size) (l : List Nat) (hn : l.Nodup)
    (m : Memory) (i x : Nat) (hx : InBlock base size i x) :
    Memory.read (runItems w.prog l m) x =
      if i ∈ l then Memory.read (runItem (w.prog i) m) x else Memory.read m x := by
  induction l generalizing m with
  | nil => simp [runItems]
  | cons j l ih =>
    obtain ⟨hj, hn'⟩ := List.nodup_cons.1 hn
    rw [show runItems w.prog (j :: l) m = runItems w.prog l (runItem (w.prog j) m) from rfl, ih hn']
    by_cases hij : i = j
    · subst hij
      simp [hj]
    · have hframe : ∀ y, InBlock base size i y → Memory.read (runItem (w.prog j) m) y = Memory.read m y :=
        fun y hy => runItem_frame hl j m y (fun h => hij (hy.unique h))
      simp only [List.mem_cons, hij, false_or]
      split
      · exact runItem_congr hl i _ _ hframe x hx
      · exact hframe x hx

/-- Outside the blocks of the items taken nothing changes. -/
theorem runItems_outside {w : Work} {base size : Nat} (hl : w.Local base size) (l : List Nat) (m : Memory) (x : Nat)
    (hx : ∀ i ∈ l, ¬ InBlock base size i x) : Memory.read (runItems w.prog l m) x = Memory.read m x := by
  induction l generalizing m with
  | nil => rfl
  | cons j l ih =>
    rw [show runItems w.prog (j :: l) m = runItems w.prog l (runItem (w.prog j) m) from rfl,
      ih _ (fun i hi => hx i (by simp [hi]))]
    exact runItem_frame hl j m x (hx j (by simp))

theorem runItems_wf (prog : Nat → List ByteOp) (l : List Nat) (m : Memory) (h : Memory.wf m = true) :
    Memory.wf (runItems prog l m) = true := by
  induction l generalizing m with
  | nil => exact h
  | cons j l ih => exact ih _ (runOps_wf _ _ h rfl).1

theorem runItems_within {w : Work} {base size count n : Nat} (hl : w.Local base size) (l : List Nat)
    (hc : ∀ i ∈ l, i < count) (hb : count * size = 0 ∨ base + count * size ≤ n) (m : Memory) (h : Memory.within n m = true) :
    Memory.within n (runItems w.prog l m) = true := by
  induction l generalizing m with
  | nil => exact h
  | cons j l ih =>
    refine ih (fun i hi => hc i (by simp [hi])) _ (runOps_within _ n (fun b hb' a ha => ?_) _ h)
    have := (hl j b hb' a ha).in_region (hc j (by simp))
    omega

/-! ### The commands -/

theorem mem_columnsUp {n j : Nat} : j ∈ columnsUp n ↔ 1 ≤ j ∧ j < n := by
  simp only [columnsUp, List.mem_map, List.mem_range]
  constructor
  · rintro ⟨k, hk, rfl⟩; omega
  · rintro ⟨h1, h2⟩; exact ⟨j - 1, by omega, by omega⟩

theorem mem_columnsDown {n j : Nat} : j ∈ columnsDown n ↔ 1 ≤ j ∧ j < n := by
  rw [columnsDown, List.mem_reverse, mem_columnsUp]

theorem passThrough_local (d : Depth) (base : Nat) : (passThrough d).Local base 0 := by
  intro i b hb; simp [passThrough] at hb

theorem swap16Work_local (o : Op) : (swap16Work o).Local o.B 2 := by
  intro i b hb a ha
  simp only [swap16Work, List.mem_singleton] at hb
  subst hb
  simp only [ByteOp.touched, List.mem_cons, List.not_mem_nil, or_false] at ha
  constructor <;> omega

theorem swap32Work_local (o : Op) : (swap32Work o).Local o.B 4 := by
  intro i b hb a ha
  simp only [swap32Work, List.mem_singleton] at hb
  subst hb
  simp only [ByteOp.touched, List.mem_cons, List.not_mem_nil, or_false] at ha
  constructor <;> omega

theorem unpred8Work_local (o : Op) : (unpred8Work o).Local o.B o.W := by
  intro i b hb a ha
  simp only [unpred8Work, unpred8Row, List.mem_map] at hb
  obtain ⟨j, hj, rfl⟩ := hb
  have := mem_columnsUp.1 hj
  simp only [ByteOp.touched, List.mem_cons, List.not_mem_nil, or_false] at ha
  unfold InBlock
  rw [show (i + 1) * o.W = i * o.W + o.W by ring]
  omega

theorem pred8Work_local (o : Op) : (pred8Work o).Local o.B o.W := by
  intro i b hb a ha
  simp only [pred8Work, pred8Row, List.mem_map] at hb
  obtain ⟨j, hj, rfl⟩ := hb
  have := mem_columnsDown.1 hj
  simp only [ByteOp.touched, List.mem_cons, List.not_mem_nil, or_false] at ha
  unfold InBlock
  rw [show (i + 1) * o.W = i * o.W + o.W by ring]
  omega

theorem unpred16Work_local (o : Op) : (unpred16Work o).Local o.B (2 * o.W) := by
  intro i b hb a ha
  simp only [unpred16Work, unpred16Row, List.mem_map] at hb
  obtain ⟨j, hj, rfl⟩ := hb
  have := mem_columnsUp.1 hj
  simp only [ByteOp.touched, List.mem_cons, List.not_mem_nil, or_false] at ha
  unfold InBlock
  rw [show (i + 1) * (2 * o.W) = 2 * (i * o.W) + 2 * o.W by ring, show i * (2 * o.W) = 2 * (i * o.W) by ring]
  omega

theorem pred16Work_local (o : Op) : (pred16Work o).Local o.B (2 * o.W) := by
  intro i b hb a ha
  simp only [pred16Work, pred16Row, List.mem_map] at hb
  obtain ⟨j, hj, rfl⟩ := hb
  have := mem_columnsDown.1 hj
  simp only [ByteOp.touched, List.mem_cons, List.not_mem_nil, or_false] at ha
  unfold InBlock
  rw [show (i + 1) * (2 * o.W) = 2 * (i * o.W) + 2 * o.W by ring, show i * (2 * o.W) = 2 * (i * o.W) by ring]
  omega

/-- Byte `i` of row `r` at depth 32 lies in that row's block. -/
theorem inBlock_row32 (o : Op) (r i : Nat) (h : i < 4 * o.W) : InBlock o.B (4 * o.W) r (rowBase32 o r + i) := by
  unfold InBlock rowBase32
  rw [show (r + 1) * (4 * o.W) = 4 * r * o.W + 4 * o.W by ring, show r * (4 * o.W) = 4 * r * o.W by ring]
  omega

theorem unpred32Work_local (p : Params) (o : Op) : (unpred32Work p o).Local o.B (4 * o.W) := by
  intro r b hb a ha
  simp only [unpred32Work, unpred32Row, loadRow, storePlanes, List.mem_append, List.mem_map, List.mem_flatMap,
    List.mem_range] at hb
  rcases hb with (⟨i, hi, rfl⟩ | ⟨i, _, rfl⟩) | ⟨j, hj, k, hk, rfl⟩
  · simp only [ByteOp.touched, List.mem_singleton] at ha
    subst ha; exact inBlock_row32 o r i hi
  · simp [ByteOp.touched] at ha
  · simp only [ByteOp.touched, List.mem_singleton] at ha
    subst ha
    rw [Nat.add_assoc]
    exact inBlock_row32 o r _ (by omega)

theorem pred32Work_local (p : Params) (o : Op) : (pred32Work p o).Local o.B (4 * o.W) := by
  intro r b hb a ha
  simp only [pred32Work, pred32Row, loadPlanes, storeRow, List.mem_append, List.mem_map, List.mem_flatMap,
    List.mem_range] at hb
  rcases hb with (⟨j, hj, k, hk, rfl⟩ | ⟨i, _, rfl⟩) | ⟨i, hi, rfl⟩
  · simp only [ByteOp.touched, List.mem_singleton] at ha
    subst ha
    rw [Nat.add_assoc]
    exact inBlock_row32 o r _ (by omega)
  · simp [ByteOp.touched] at ha
  · simp only [ByteOp.touched, List.mem_singleton] at ha
    subst ha; exact inBlock_row32 o r i hi

/-- Every in-place command: the size of its blocks, its written region, and the depth its range check uses. -/
theorem inPlaceWork_shape {p : Params} {o : Op} {i : Instr} {w : Work} (h : inPlaceWork p o i = some w) :
    ∃ size, w.Local o.B size ∧ w.count * size = w.written ∧ w.written = writtenBytes o i ∧
      checkedDepth i = some w.depth ∧ (w.written = 0 ∨ w.written = o.bufferBytes w.depth) := by
  cases i <;> simp only [inPlaceWork, reduceCtorEq, Option.some.injEq] at h <;> subst h
  · exact ⟨0, passThrough_local _ _, rfl, rfl, rfl, .inl rfl⟩
  · exact ⟨0, passThrough_local _ _, rfl, rfl, rfl, .inl rfl⟩
  · exact ⟨2, swap16Work_local o, by simp [swap16Work, Op.bufferBytes, planeBytes, rowBytes]; ring, rfl, rfl, .inr rfl⟩
  · exact ⟨4, swap32Work_local o, by simp [swap32Work, Op.bufferBytes, planeBytes, rowBytes]; ring, rfl, rfl, .inr rfl⟩
  · exact ⟨o.W, unpred8Work_local o, rfl, rfl, rfl, .inr rfl⟩
  · exact ⟨2 * o.W, unpred16Work_local o, rfl, rfl, rfl, .inr rfl⟩
  · exact ⟨4 * o.W, unpred32Work_local p o, rfl, rfl, rfl, .inr rfl⟩
  · exact ⟨o.W, pred8Work_local o, rfl, rfl, rfl, .inr rfl⟩
  · exact ⟨2 * o.W, pred16Work_local o, rfl, rfl, rfl, .inr rfl⟩
  · exact ⟨4 * o.W, pred32Work_local p o, rfl, rfl, rfl, .inr rfl⟩

/-- An in-place command is its work, run as one event. -/
theorem exec_inPlace {s : State} {i : Instr} {w : Work} (h : inPlaceWork s.params s.op i = some w) :
    exec i s = .next (s.runWork w) := by
  cases i <;> simp only [inPlaceWork, reduceCtorEq, Option.some.injEq] at h <;> subst h <;> rfl

end Sys2Proof.Machine
end

