-- ==== Sys2Proof/Laws/PerInstr.lean ====
section
/-! SUPPORT. One lemma per instruction: its encoding matches its row of spec/opcode_table.json, whose numbers are
written here as the table writes them. -/

namespace Sys2Proof.Laws

/-- A coded unit as the table counts it: how many bits, and their number. -/
def codedBits : Coded → Nat × Nat
  | .command w => (32, w.toNat)
  | .header h => (8, h.toNat)

/-- The number of bits, the mask and the match of an instruction's row. -/
def tableRow : Instr → Nat × Nat × Nat
  | .rledec1 => (32, 0xFFFFFFFF, 0x00000001)
  | .rledec8 => (32, 0xFFFFFFFF, 0x00000011)
  | .rledec16 => (32, 0xFFFFFFFF, 0x00000021)
  | .rledec32 => (32, 0xFFFFFFFF, 0x00000031)
  | .swap1 => (32, 0xFFFFFFFF, 0x00000002)
  | .swap8 => (32, 0xFFFFFFFF, 0x00000012)
  | .swap16 => (32, 0xFFFFFFFF, 0x00000022)
  | .swap32 => (32, 0xFFFFFFFF, 0x00000032)
  | .unpred1 => (32, 0xFFFFFFFF, 0x00000003)
  | .unpred8 => (32, 0xFFFFFFFF, 0x00000013)
  | .unpred16 => (32, 0xFFFFFFFF, 0x00000023)
  | .unpred32 => (32, 0xFFFFFFFF, 0x00000033)
  | .pred1 => (32, 0xFFFFFFFF, 0x00000004)
  | .pred8 => (32, 0xFFFFFFFF, 0x00000014)
  | .pred16 => (32, 0xFFFFFFFF, 0x00000024)
  | .pred32 => (32, 0xFFFFFFFF, 0x00000034)
  | .nop => (8, 0xFF, 0x80)
  | .lit _ => (8, 0x80, 0x00)
  | .rpt _ => (8, 0x80, 0x80)

/-- The encoding of an instruction has its row's length and, under its row's mask, its row's bits. -/
def TableRow.Statement (i : Instr) : Prop :=
  (codedBits (encode i)).1 = (tableRow i).1 ∧ (codedBits (encode i)).2 &&& (tableRow i).2.1 = (tableRow i).2.2

theorem TableRow.rledec1 : TableRow.Statement .rledec1 := ⟨rfl, rfl⟩
theorem TableRow.rledec8 : TableRow.Statement .rledec8 := ⟨rfl, rfl⟩
theorem TableRow.rledec16 : TableRow.Statement .rledec16 := ⟨rfl, rfl⟩
theorem TableRow.rledec32 : TableRow.Statement .rledec32 := ⟨rfl, rfl⟩
theorem TableRow.swap1 : TableRow.Statement .swap1 := ⟨rfl, rfl⟩
theorem TableRow.swap8 : TableRow.Statement .swap8 := ⟨rfl, rfl⟩
theorem TableRow.swap16 : TableRow.Statement .swap16 := ⟨rfl, rfl⟩
theorem TableRow.swap32 : TableRow.Statement .swap32 := ⟨rfl, rfl⟩
theorem TableRow.unpred1 : TableRow.Statement .unpred1 := ⟨rfl, rfl⟩
theorem TableRow.unpred8 : TableRow.Statement .unpred8 := ⟨rfl, rfl⟩
theorem TableRow.unpred16 : TableRow.Statement .unpred16 := ⟨rfl, rfl⟩
theorem TableRow.unpred32 : TableRow.Statement .unpred32 := ⟨rfl, rfl⟩
theorem TableRow.pred1 : TableRow.Statement .pred1 := ⟨rfl, rfl⟩
theorem TableRow.pred8 : TableRow.Statement .pred8 := ⟨rfl, rfl⟩
theorem TableRow.pred16 : TableRow.Statement .pred16 := ⟨rfl, rfl⟩
theorem TableRow.pred32 : TableRow.Statement .pred32 := ⟨rfl, rfl⟩
theorem TableRow.nop : TableRow.Statement .nop := ⟨rfl, rfl⟩

theorem TableRow.lit (c7 : BitVec 7) : TableRow.Statement (.lit c7) := by
  revert c7; unfold TableRow.Statement; decide

theorem TableRow.rpt (c7 : BitVec 7) : TableRow.Statement (.rpt c7) := by
  revert c7; unfold TableRow.Statement; decide

end Sys2Proof.Laws
end

