-- ==== Sys2Proof/Laws/Rle.lean ====
section
/-! SUPPORT. What a packet, a turn of the stream and a whole `RLEDEC` can do. -/

namespace Sys2Proof.Machine

/-! ### Packets -/

theorem firstAbsent_eq_none {n a k : Nat} : firstAbsent n a k = none ↔ k = 0 ∨ a + k ≤ n := by
  simp only [firstAbsent, inRange, ite_eq_left_iff, reduceCtorEq, imp_false, Decidable.not_not, Bool.or_eq_true,
    decide_eq_true_eq]

/-- How a packet with data is written: as many bytes as it produces, at the destination. -/
def WritesAt (write : Memory → (src dst cnt : Nat) → Memory) : Prop :=
  ∀ m src dst cnt, Memory.SameOutside m (write m src dst cnt) dst cnt ∧
    (Memory.wf m = true → Memory.wf (write m src dst cnt) = true) ∧
    ∀ n, (cnt = 0 ∨ dst + cnt ≤ n) → Memory.within n m = true → Memory.within n (write m src dst cnt) = true

theorem writesAt_copy : WritesAt Memory.copy := fun m src dst cnt =>
  ⟨fun x hx => Memory.read_copy_outside m src dst cnt x hx, Memory.wf_copy _ _ _,
    fun _ h => Memory.within_copy _ _ _ h⟩

theorem writesAt_fill : WritesAt (fun m src dst cnt => Memory.fill m (Memory.read m src) dst cnt) :=
  fun m src dst cnt =>
  ⟨fun x hx => by rw [Memory.read_fill, if_neg (by omega)], Memory.wf_fill _ _ _,
    fun _ h => Memory.within_fill _ _ _ h⟩

/-- A packet runs when it fits the row and the source and its addresses exist. -/
theorem State.runData_ok {s : State} {p : Packet} {write : Memory → (src dst cnt : Nat) → Memory}
    (h1 : s.cur.out + packetCount p ≤ s.cur.rb) (h2 : s.cur.sp + packetNeed p ≤ s.op.L)
    (h3 : packetNeed p = 0 ∨ s.rleSrc + packetNeed p ≤ s.params.memSize)
    (h4 : packetCount p = 0 ∨ s.rleDst + packetCount p ≤ s.params.memSize) :
    s.runData p write = .next (s.packetDone p (write s.mem (s.rleSrc + 1) s.rleDst (packetCount p))) := by
  have e : s.packetError p = none := by
    rw [State.packetError, if_neg (by omega), if_neg (by omega)]
  rw [State.runData, e]
  simp only [firstAbsent_eq_none.2 h3, firstAbsent_eq_none.2 h4]

theorem State.runData_row {s : State} {p : Packet} {write : Memory → (src dst cnt : Nat) → Memory}
    (h : s.cur.rb < s.cur.out + packetCount p) :
    s.runData p write = .next (s.rleRaise .malformedChannelData s.cur.row s.cur.sp) := by
  have e : s.packetError p = some .malformedChannelData := by rw [State.packetError, if_pos h]
  rw [State.runData, e]

theorem State.runData_source {s : State} {p : Packet} {write : Memory → (src dst cnt : Nat) → Memory}
    (h : s.cur.out + packetCount p ≤ s.cur.rb) (h2 : s.op.L < s.cur.sp + packetNeed p) :
    s.runData p write = .next (s.rleRaise .corruptCompressedStream s.cur.row s.cur.sp) := by
  have e : s.packetError p = some .corruptCompressedStream := by
    rw [State.packetError, if_neg (by omega), if_pos h2]
  rw [State.runData, e]

/-- Everything a packet with data can do. -/
theorem State.runData_cases (s : State) (p : Packet) (write : Memory → (src dst cnt : Nat) → Memory) :
    (∃ k, s.runData p write = .next (s.rleRaise k s.cur.row s.cur.sp)) ∨
    (∃ a, s.runData p write = .fault (.noSuchAddress a)) ∨
    (s.cur.out + packetCount p ≤ s.cur.rb ∧ s.cur.sp + packetNeed p ≤ s.op.L ∧
      (packetCount p = 0 ∨ s.rleDst + packetCount p ≤ s.params.memSize) ∧
      s.runData p write = .next (s.packetDone p (write s.mem (s.rleSrc + 1) s.rleDst (packetCount p)))) := by
  by_cases h1 : s.cur.rb < s.cur.out + packetCount p
  · exact .inl ⟨_, State.runData_row h1⟩
  by_cases h2 : s.op.L < s.cur.sp + packetNeed p
  · exact .inl ⟨_, State.runData_source (by omega) h2⟩
  have e : s.packetError p = none := by
    rw [State.packetError, if_neg h1, if_neg h2]
  cases h3 : firstAbsent s.params.memSize s.rleSrc (packetNeed p) with
  | some a => exact .inr (.inl ⟨a, by simp only [State.runData, e, h3]⟩)
  | none =>
    cases h4 : firstAbsent s.params.memSize s.rleDst (packetCount p) with
    | some a => exact .inr (.inl ⟨a, by simp only [State.runData, e, h3, h4]⟩)
    | none =>
      exact .inr (.inr ⟨by omega, by omega, firstAbsent_eq_none.1 h4,
        State.runData_ok (by omega) (by omega) (firstAbsent_eq_none.1 h3) (firstAbsent_eq_none.1 h4)⟩)

/-- A packet whose addresses exist does not fault. -/
theorem runPacket_ne_fault {s : State} {p : Packet}
    (h : s.cur.out + packetCount p ≤ s.cur.rb → s.cur.sp + packetNeed p ≤ s.op.L →
      (packetNeed p = 0 ∨ s.rleSrc + packetNeed p ≤ s.params.memSize) ∧
      (packetCount p = 0 ∨ s.rleDst + packetCount p ≤ s.params.memSize)) {r : Fault} :
    runPacket p s ≠ .fault r := by
  have key : ∀ write, s.runData p write ≠ .fault r := by
    intro write
    by_cases h1 : s.cur.rb < s.cur.out + packetCount p
    · simp [State.runData_row h1]
    by_cases h2 : s.op.L < s.cur.sp + packetNeed p
    · simp [State.runData_source (by omega) h2]
    obtain ⟨h3, h4⟩ := h (by omega) (by omega)
    simp [State.runData_ok (write := write) (by omega) (by omega) h3 h4]
  cases p with
  | nop => simp [runPacket, execNop]
  | lit c => exact key _
  | rpt c => exact key (fun m src dst cnt => Memory.fill m (Memory.read m src) dst cnt)

/-- What a packet that ran did: its cursors, and memory only at the destination. -/
structure State.PacketRan (s t : State) (p : Packet) : Prop where
  shape : t = s.packetDone p t.mem
  outside : Memory.SameOutside s.mem t.mem s.rleDst (packetCount p)
  wf : Memory.wf s.mem = true → Memory.wf t.mem = true
  within : Memory.within s.params.memSize s.mem = true → Memory.within s.params.memSize t.mem = true

theorem State.packetRan_of_writesAt {s : State} {p : Packet} {write : Memory → (src dst cnt : Nat) → Memory}
    (hw : WritesAt write) (h4 : packetCount p = 0 ∨ s.rleDst + packetCount p ≤ s.params.memSize) :
    State.PacketRan s (s.packetDone p (write s.mem (s.rleSrc + 1) s.rleDst (packetCount p))) p :=
  ⟨rfl, (hw _ _ _ _).1, (hw _ _ _ _).2.1, (hw _ _ _ _).2.2 _ h4⟩

/-- Everything a packet can do: end the command, fault, or run. -/
theorem runPacket_cases (s : State) (p : Packet) :
    (∃ k, runPacket p s = .next (s.rleRaise k s.cur.row s.cur.sp)) ∨
    (∃ a, runPacket p s = .fault (.noSuchAddress a)) ∨
    (∃ t, runPacket p s = .next t ∧ State.PacketRan s t p ∧
      (p ≠ .nop → s.cur.out + packetCount p ≤ s.cur.rb ∧ s.cur.sp + packetNeed p ≤ s.op.L)) := by
  cases p with
  | nop =>
    exact .inr (.inr ⟨_, rfl, ⟨rfl, .refl _ _ _, id, id⟩, fun h => absurd rfl h⟩)
  | lit c =>
    rcases s.runData_cases (.lit c) Memory.copy with h | h | ⟨h1, h2, h3, h4⟩
    · exact .inl h
    · exact .inr (.inl h)
    · exact .inr (.inr ⟨_, h4, State.packetRan_of_writesAt writesAt_copy h3, fun _ => ⟨h1, h2⟩⟩)
  | rpt c =>
    rcases s.runData_cases (.rpt c) (fun m src dst cnt => Memory.fill m (Memory.read m src) dst cnt) with
      h | h | ⟨h1, h2, h3, h4⟩
    · exact .inl h
    · exact .inr (.inl h)
    · exact .inr (.inr ⟨_, h4, State.packetRan_of_writesAt writesAt_fill h3, fun _ => ⟨h1, h2⟩⟩)

/-- `exec` of a packet is the decoder's own run of it. -/
theorem exec_packet (p : Packet) (s : State) : exec p.instr s = runPacket p s := by cases p <;> rfl

theorem State.stepStream_eq (s : State) : s.stepStream = s.streamTurn runPacket := by
  unfold State.stepStream
  congr 1
  funext p t
  exact exec_packet p t

theorem State.rleRaise_endsAs (s : State) (k : ErrorKind) (r p : Nat) : State.EndsAs s (s.rleRaise k r p) s.rleLen :=
  State.endRle_endsAs s _ _

theorem State.rleEnd_endsAs (s : State) : State.EndsAs s s.rleEnd s.rleLen := by
  unfold State.rleEnd; split
  · exact State.rleRaise_endsAs s _ _ _
  · exact State.endRle_endsAs s _ _

/-! ### Turns -/

/-- The cursors of a running stream (R33, R34), for an `RLEDEC.d` that passed its start checks. -/
structure State.StreamOk (s : State) (d : Depth) : Prop where
  fits : rleFits s.params.memSize d s.op = true
  rb : s.cur.rb = rowBytes d s.op.W
  row : s.cur.row ≤ s.op.H
  out : s.cur.out ≤ s.cur.rb
  sp : s.cur.sp ≤ s.op.L
  last : s.cur.row = s.op.H → s.cur.out = 0

/-- How many turns a stream has left at most. -/
def State.turnsLeft (s : State) : Nat := (s.op.L - s.cur.sp) + (s.op.H - s.cur.row)

theorem rleFits_iff {n : Nat} {d : Depth} {o : Op} : rleFits n d o = true ↔
    (o.bufferBytes d = 0 ∨ o.B + o.bufferBytes d ≤ n) ∧ (o.L = 0 ∨ o.S + o.L ≤ n) ∧
    ¬ (0 < o.L ∧ 0 < o.bufferBytes d ∧ o.S < o.B + o.bufferBytes d ∧ o.B < o.S + o.L) := by
  simp only [rleFits, inRange, overlap, Bool.and_eq_true, Bool.or_eq_true, decide_eq_true_eq, Bool.not_eq_true',
    Bool.and_eq_false_iff, decide_eq_false_iff_not]
  constructor
  · rintro ⟨⟨h1, h2⟩, h3⟩; exact ⟨h1, h2, by omega⟩
  · rintro ⟨h1, h2, h3⟩; exact ⟨⟨h1, h2⟩, by omega⟩

/-- The destination of a packet that fits its row lies in the destination region. -/
theorem State.StreamOk.dst {s : State} {d : Depth} (h : s.StreamOk d) (hr : s.cur.row < s.op.H) {n : Nat}
    (hn : s.cur.out + n ≤ s.cur.rb) : s.op.B ≤ s.rleDst ∧ s.rleDst + n ≤ s.op.B + s.op.bufferBytes d := by
  have h1 := Nat.mul_le_mul_right (rowBytes d s.op.W) (show s.cur.row + 1 ≤ s.op.H by omega)
  rw [Nat.add_mul] at h1
  have h2 := h.rb
  unfold State.rleDst Op.bufferBytes planeBytes
  rw [h2] at hn ⊢
  omega

/-- What one turn of a running stream can do: end the command, or go on with the cursors in range, one turn nearer to
the end. -/
theorem State.StreamOk.turn {s : State} {d : Depth} (h : s.StreamOk d) :
    ∃ t, s.streamTurn runPacket = .next t ∧
      (State.EndsAs s t (s.op.bufferBytes d) ∨
        (t = { s with mem := t.mem, cur := t.cur } ∧ t.StreamOk d ∧ t.turnsLeft < s.turnsLeft ∧
          Memory.SameOutside s.mem t.mem s.op.B (s.op.bufferBytes d) ∧
          (Memory.wf s.mem = true → Memory.wf t.mem = true) ∧
          (Memory.within s.params.memSize s.mem = true → Memory.within s.params.memSize t.mem = true))) := by
  have hlen : s.rleLen = s.op.bufferBytes d := by rw [State.rleLen, h.rb]; rfl
  obtain ⟨f1, f2, f3⟩ := rleFits_iff.1 h.fits
  have hrow := h.row
  have hout := h.out
  have hsp := h.sp
  by_cases c1 : s.cur.row < s.op.H
  · by_cases c2 : s.cur.out < s.cur.rb
    · by_cases c3 : s.cur.sp < s.op.L
      · have ht : s.rleTurn = .packet := by simp [State.rleTurn, c1, c2, c3]
        have hsrc : firstAbsent s.params.memSize s.rleSrc 1 = none := by
          rw [firstAbsent_eq_none]; unfold State.rleSrc; omega
        have e : s.streamTurn runPacket = runPacket s.fetchPacket s := by
          simp only [State.streamTurn, ht, hsrc]
        rw [e]
        rcases runPacket_cases s s.fetchPacket with ⟨k, hk⟩ | ⟨a, ha⟩ | ⟨t, htt, hran, hfit⟩
        · exact ⟨_, hk, .inl (hlen ▸ State.rleRaise_endsAs s k _ _)⟩
        · exfalso
          refine runPacket_ne_fault (fun g1 g2 => ?_) ha
          have := h.dst c1 g1
          unfold State.rleSrc
          omega
        · refine ⟨t, htt, .inr ?_⟩
          have hneed : 1 ≤ packetNeed s.fetchPacket := by cases s.fetchPacket <;> simp [packetNeed]
          have hfit' : s.cur.out + packetCount s.fetchPacket ≤ s.cur.rb ∧
              s.cur.sp + packetNeed s.fetchPacket ≤ s.op.L := by
            by_cases hn : s.fetchPacket = .nop
            · rw [hn]; simp only [packetCount, packetNeed]; omega
            · exact hfit hn
          have hcur : t.cur = { s.cur with
              sp := s.cur.sp + packetNeed s.fetchPacket, out := s.cur.out + packetCount s.fetchPacket } := by
            rw [hran.shape]; rfl
          have hop : t.op = s.op := by rw [hran.shape]; rfl
          have hparams : t.params = s.params := by rw [hran.shape]; rfl
          have hdst := h.dst c1 hfit'.1
          refine ⟨by rw [hran.shape]; rfl, ⟨?_, ?_, ?_, ?_, ?_, ?_⟩, ?_, ?_, hran.wf, hran.within⟩
          · rw [hop, hparams]; exact h.fits
          · rw [hcur, hop]; exact h.rb
          · rw [hcur, hop]; exact hrow
          · rw [hcur]; exact hfit'.1
          · rw [hcur, hop]; exact hfit'.2
          · rw [hcur, hop]; intro heq; exact absurd heq (Nat.ne_of_lt c1)
          · unfold State.turnsLeft; rw [hcur, hop]; simp only; omega
          · exact hran.outside.mono (.inr hdst)
      · have ht : s.rleTurn = .sourceUsedUp := by simp [State.rleTurn, c1, c2, c3]
        exact ⟨s.rleRaise .malformedChannelData s.cur.row s.cur.sp, by simp only [State.streamTurn, ht],
          .inl (hlen ▸ State.rleRaise_endsAs s _ _ _)⟩
    · have ht : s.rleTurn = .rowEnd := by simp [State.rleTurn, c1, c2]
      refine ⟨s.nextRow, by simp only [State.streamTurn, ht], .inr ⟨rfl, ⟨h.fits, h.rb, ?_, ?_, hsp, ?_⟩, ?_,
        .refl _ _ _, id, id⟩⟩
      · simp only [State.nextRow]; omega
      · simp only [State.nextRow]; omega
      · simp [State.nextRow]
      · simp only [State.turnsLeft, State.nextRow]; omega
  · have ht : s.rleTurn = .finish := by simp [State.rleTurn, c1]
    exact ⟨_, by simp only [State.streamTurn, ht], .inl (hlen ▸ State.rleEnd_endsAs s)⟩

/-! ### The whole body -/

/-- An ending reached from a later state of the same command is an ending of the command. -/
theorem State.EndsAs.of_later {s u t : State} {n m : Nat} (h : State.EndsAs u t n)
    (hu : u = { s with mem := u.mem, phase := u.phase, cur := u.cur, todo := u.todo, lanes := u.lanes })
    (ho : Memory.SameOutside s.mem u.mem s.op.B m) (hn : n = 0 ∨ n = m)
    (hw : Memory.wf s.mem = true → Memory.wf u.mem = true)
    (hb : Memory.within s.params.memSize s.mem = true → Memory.within s.params.memSize u.mem = true) :
    State.EndsAs s t m := by
  obtain ⟨v, e, hv, h2, h3, h4, rfl⟩ := h
  have hop : u.op = s.op := by rw [hu]
  have hpar : u.params = s.params := by rw [hu]
  rw [hop] at h2
  rw [hpar] at h4
  refine ⟨{ s with mem := v.mem, draws := v.draws }, e, rfl, ?_, fun h => h3 (hw h), fun h => h4 (hb h), ?_⟩
  · refine ho.trans (h2.mono ?_)
    rcases hn with rfl | rfl
    · exact .inl rfl
    · exact .inr ⟨le_rfl, le_rfl⟩
  · have : v = { s with
        mem := v.mem, draws := v.draws, phase := v.phase, cur := v.cur, todo := v.todo, lanes := v.lanes } := by
      rw [hv, hu]
    rw [this]
    cases e <;> rfl

/-- Enough turns end the stream. -/
theorem rleLoop_ends (fuel : Nat) {s : State} {d : Depth} (h : s.StreamOk d) (hp : s.phase = .stream)
    (hf : s.turnsLeft < fuel) :
    ∃ t, rleLoop fuel s = .next t ∧ State.EndsAs s t (s.op.bufferBytes d) := by
  induction fuel generalizing s with
  | zero => omega
  | succ fuel ih =>
    obtain ⟨t, ht, hc⟩ := h.turn
    rw [rleLoop, if_neg (by simp [hp]), ht]
    rcases hc with he | ⟨hshape, hok, hleft, hout, hwf, hwi⟩
    · refine ⟨t, ?_, he⟩
      have := he.over.1
      cases fuel with
      | zero => rfl
      | succ fuel => simp only [rleLoop, this]; rfl
    · have hop : t.op = s.op := by rw [hshape]
      have hp' : t.phase = .stream := by rw [hshape]; exact hp
      obtain ⟨u, hu, hue⟩ := ih hok hp' (by omega)
      refine ⟨u, hu, ?_⟩
      rw [hop] at hue
      exact hue.of_later (by rw [hshape]) hout (.inr rfl) hwf hwi

theorem State.beginStream_ok {s : State} {d : Depth} (h : rleFits s.params.memSize d s.op = true) :
    (s.beginStream d).StreamOk d :=
  ⟨h, rfl, Nat.zero_le _, Nat.zero_le _, Nat.zero_le _, fun _ => rfl⟩

/-- Everything `RLEDEC.d` does, said roughly: it always ends, changing no memory outside its destination. -/
theorem State.runRledec_ends (s : State) (d : Depth) :
    ∃ t, s.runRledec d = .next t ∧ State.EndsAs s t (s.op.bufferBytes d) := by
  unfold State.runRledec State.rleStart
  by_cases h : rleFits s.params.memSize d s.op = true
  · rw [if_pos h]
    obtain ⟨t, ht, he⟩ := rleLoop_ends s.rleFuel (State.beginStream_ok h) rfl
      (by simp [State.turnsLeft, State.rleFuel, State.beginStream])
    exact ⟨t, ht, he.of_later rfl (.refl _ _ _) (.inr rfl) id id⟩
  · rw [if_neg h]
    exact ⟨_, rfl, State.endRleStart_endsAs s _ _⟩

theorem exec_rledec (d : Depth) (s : State) : exec (.rledec d) s = s.runRledec d := by cases d <;> rfl

end Sys2Proof.Machine
end

