-- ==== Sys2Proof/Laws/Rows.lean ====
section
/-! SUPPORT. What one row of each prediction command and one sample of each swap leaves in its bytes, without the loops. -/

namespace Sys2Proof.Machine

/-! ### Loops over columns -/

/-- The sum of `g 0 .. g n`. -/
def prefixSum {w : Nat} (g : Nat → BitVec w) : Nat → BitVec w
  | 0 => g 0
  | n + 1 => prefixSum g n + g (n + 1)

theorem sum8_eq_prefixSum (m : Memory) (a n : Nat) :
    Memory.sum8 m a n = prefixSum (fun j => Memory.read m (a + j)) n := by
  induction n with
  | zero => rfl
  | succ n ih => rw [Memory.sum8, prefixSum, ih]

theorem sum16_eq_prefixSum (m : Memory) (a n : Nat) :
    Memory.sum16 m a n = prefixSum (fun j => Memory.read16 m (a + 2 * j)) n := by
  induction n with
  | zero => rfl
  | succ n ih => rw [Memory.sum16, prefixSum, ih]

/-- An upward loop that adds to each column the column before it leaves the running sums. -/
theorem foldl_columnsUp {X : Type} {w : Nat} (get : X → Nat → BitVec w) (up : Nat → X → X) (N : Nat)
    (hup : ∀ j x i, 1 ≤ j → j < N → i < N →
      get (up j x) i = if i = j then get x j + get x (j - 1) else get x i)
    (x : X) (i : Nat) (hi : i < N) :
    get ((columnsUp N).foldl (fun y j => up j y) x) i = prefixSum (get x) i := by
  have aux : ∀ k, k + 1 ≤ N → ∀ i, i < N →
      get (((List.range k).map (fun q => q + 1)).foldl (fun y j => up j y) x) i =
        if i ≤ k then prefixSum (get x) i else get x i := by
    intro k
    induction k with
    | zero =>
      intro _ i _
      by_cases h : i ≤ 0
      · rw [if_pos h, show i = 0 by omega]; rfl
      · rw [if_neg h]; rfl
    | succ k ih =>
      intro hk i hi
      rw [List.range_succ, List.map_append, List.foldl_append]
      simp only [List.map_cons, List.map_nil, List.foldl_cons, List.foldl_nil]
      rw [hup _ _ _ (by omega) (by omega) hi]
      by_cases h : i = k + 1
      · rw [if_pos h, if_pos (by omega), ih (by omega) (k + 1) (by omega), if_neg (by omega),
          ih (by omega) (k + 1 - 1) (by omega), if_pos (by omega), h, prefixSum, BitVec.add_comm]
        rfl
      · rw [if_neg h, ih (by omega) i hi]
        by_cases h2 : i ≤ k
        · rw [if_pos h2, if_pos (by omega)]
        · rw [if_neg h2, if_neg (by omega)]
  rw [columnsUp, aux (N - 1) (by omega) i hi, if_pos (by omega)]

/-- A downward loop that takes from each column the column before it leaves the differences of the old columns. -/
theorem foldl_columnsDown {X : Type} {w : Nat} (get : X → Nat → BitVec w) (down : Nat → X → X) (N : Nat)
    (hdown : ∀ j x i, 1 ≤ j → j < N → i < N →
      get (down j x) i = if i = j then get x j - get x (j - 1) else get x i)
    (x : X) (i : Nat) (hi : i < N) :
    get ((columnsDown N).foldl (fun y j => down j y) x) i = if i = 0 then get x i else get x i - get x (i - 1) := by
  have aux : ∀ k, k + 1 ≤ N → ∀ x i, i < N →
      get (((List.range k).map (fun q => q + 1)).reverse.foldl (fun y j => down j y) x) i =
        if 1 ≤ i ∧ i ≤ k then get x i - get x (i - 1) else get x i := by
    intro k
    induction k with
    | zero => intro _ x i _; rw [if_neg (by omega)]; rfl
    | succ k ih =>
      intro hk x i hi
      rw [List.range_succ, List.map_append, List.reverse_append]
      simp only [List.map_cons, List.map_nil, List.reverse_cons, List.reverse_nil, List.nil_append,
        List.foldl_append, List.foldl_cons, List.foldl_nil]
      rw [ih (by omega) _ i hi, hdown _ _ _ (by omega) (by omega) hi]
      by_cases h : i = k + 1
      · rw [if_neg (by omega), if_pos h, if_pos (by omega), h]
      · rw [if_neg h]
        by_cases h2 : 1 ≤ i ∧ i ≤ k
        · rw [if_pos h2, if_pos (by omega), hdown _ _ _ (by omega) (by omega) (by omega), if_neg (by omega)]
        · rw [if_neg h2, if_neg (by omega)]
  rw [columnsDown, columnsUp]
  by_cases h0 : N = 0
  · omega
  · rw [aux (N - 1) (by omega) x i hi]
    by_cases h : i = 0
    · rw [if_pos h, if_neg (by omega)]
    · rw [if_neg h, if_pos (by omega)]

theorem runOps_map {α : Type} (f : α → ByteOp) (l : List α) (y : Memory × Memory) :
    runOps (l.map f) y = l.foldl (fun z j => (f j).run z) y := by
  rw [runOps, List.foldl_map]

/-! ### Samples of a swap -/

theorem swap16_item (o : Op) (i : Nat) (m : Memory) :
    Memory.read (runItem ((swap16Work o).prog i) m) (o.B + 2 * i) = Memory.read m (o.B + 2 * i + 1) ∧
    Memory.read (runItem ((swap16Work o).prog i) m) (o.B + 2 * i + 1) = Memory.read m (o.B + 2 * i) := by
  simp [swap16Work, runItem, runOps, ByteOp.run]

theorem swap32_item (o : Op) (i k : Nat) (hk : k < 4) (m : Memory) :
    Memory.read (runItem ((swap32Work o).prog i) m) (o.B + 4 * i + k) = Memory.read m (o.B + 4 * i + (3 - k)) := by
  have : k = 0 ∨ k = 1 ∨ k = 2 ∨ k = 3 := by omega
  rcases this with rfl | rfl | rfl | rfl <;> simp [swap32Work, runItem, runOps, ByteOp.run]

/-! ### Rows at depths 8 and 16 -/

theorem unpred8_row (o : Op) (r j : Nat) (hj : j < o.W) (m : Memory) :
    Memory.read (runItem (unpred8Row o r) m) (o.B + r * o.W + j) = Memory.sum8 m (o.B + r * o.W) j := by
  rw [sum8_eq_prefixSum, runItem, unpred8Row, runOps_map]
  refine foldl_columnsUp (fun (y : Memory × Memory) i => Memory.read y.1 (o.B + r * o.W + i))
    (fun j z => (ByteOp.add8 (o.B + r * o.W + j)).run z) o.W ?_ (m, []) j hj
  intro j x i h1 _ _
  obtain ⟨x1, x2⟩ := x
  simp only [ByteOp.run, Memory.read_write]
  rw [show o.B + r * o.W + j - 1 = o.B + r * o.W + (j - 1) by omega]
  by_cases h : i = j
  · rw [if_pos h, if_pos (by omega)]
  · rw [if_neg h, if_neg (by omega)]

theorem pred8_row (o : Op) (r j : Nat) (hj : j < o.W) (m : Memory) :
    Memory.read (runItem (pred8Row o r) m) (o.B + r * o.W + j) =
      if j = 0 then Memory.read m (o.B + r * o.W + j)
      else Memory.read m (o.B + r * o.W + j) - Memory.read m (o.B + r * o.W + (j - 1)) := by
  rw [runItem, pred8Row, runOps_map]
  refine foldl_columnsDown (fun (y : Memory × Memory) i => Memory.read y.1 (o.B + r * o.W + i))
    (fun j z => (ByteOp.sub8 (o.B + r * o.W + j)).run z) o.W ?_ (m, []) j hj
  intro j x i h1 _ _
  obtain ⟨x1, x2⟩ := x
  simp only [ByteOp.run, Memory.read_write]
  rw [show o.B + r * o.W + j - 1 = o.B + r * o.W + (j - 1) by omega]
  by_cases h : i = j
  · rw [if_pos h, if_pos (by omega)]
  · rw [if_neg h, if_neg (by omega)]

theorem unpred16_row (o : Op) (r j : Nat) (hj : j < o.W) (m : Memory) :
    Memory.read16 (runItem (unpred16Row o r) m) (o.B + 2 * (r * o.W + j)) =
      Memory.sum16 m (o.B + 2 * (r * o.W)) j := by
  rw [sum16_eq_prefixSum, runItem, unpred16Row, runOps_map]
  rw [show o.B + 2 * (r * o.W + j) = o.B + 2 * (r * o.W) + 2 * j by ring]
  refine foldl_columnsUp (fun (y : Memory × Memory) i => Memory.read16 y.1 (o.B + 2 * (r * o.W) + 2 * i))
    (fun j z => (ByteOp.add16 (o.B + 2 * (r * o.W + j))).run z) o.W ?_ (m, []) j hj
  intro j x i h1 _ _
  obtain ⟨x1, x2⟩ := x
  simp only [ByteOp.run]
  rw [show o.B + 2 * (r * o.W + j) = o.B + 2 * (r * o.W) + 2 * j by ring,
    show o.B + 2 * (r * o.W) + 2 * j - 2 = o.B + 2 * (r * o.W) + 2 * (j - 1) by omega]
  by_cases h : i = j
  · rw [if_pos h, h, Memory.read16_write16_self]
  · rw [if_neg h, Memory.read16_write16_apart _ _ _ _ (by omega)]

theorem pred16_row (o : Op) (r j : Nat) (hj : j < o.W) (m : Memory) :
    Memory.read16 (runItem (pred16Row o r) m) (o.B + 2 * (r * o.W + j)) =
      if j = 0 then Memory.read16 m (o.B + 2 * (r * o.W + j))
      else Memory.read16 m (o.B + 2 * (r * o.W + j)) - Memory.read16 m (o.B + 2 * (r * o.W + (j - 1))) := by
  rw [runItem, pred16Row, runOps_map]
  rw [show o.B + 2 * (r * o.W + j) = o.B + 2 * (r * o.W) + 2 * j by ring,
    show o.B + 2 * (r * o.W + (j - 1)) = o.B + 2 * (r * o.W) + 2 * (j - 1) by ring]
  refine foldl_columnsDown (fun (y : Memory × Memory) i => Memory.read16 y.1 (o.B + 2 * (r * o.W) + 2 * i))
    (fun j z => (ByteOp.sub16 (o.B + 2 * (r * o.W + j))).run z) o.W ?_ (m, []) j hj
  intro j x i h1 _ _
  obtain ⟨x1, x2⟩ := x
  simp only [ByteOp.run]
  rw [show o.B + 2 * (r * o.W + j) = o.B + 2 * (r * o.W) + 2 * j by ring,
    show o.B + 2 * (r * o.W) + 2 * j - 2 = o.B + 2 * (r * o.W) + 2 * (j - 1) by omega]
  by_cases h : i = j
  · rw [if_pos h, h, Memory.read16_write16_self]
  · rw [if_neg h, Memory.read16_write16_apart _ _ _ _ (by omega)]

/-! ### Rows at depth 32: staging, sums, writing back -/

/-- Loads into the staging copy, each place from one source only. -/
theorem runOps_loads (l : List (Nat × Nat)) (hl : ∀ p ∈ l, ∀ q ∈ l, p.1 = q.1 → p.2 = q.2) (m t : Memory) :
    (runOps (l.map (fun p => ByteOp.load p.1 p.2)) (m, t)).1 = m ∧
    (∀ p ∈ l, Memory.read (runOps (l.map (fun p => ByteOp.load p.1 p.2)) (m, t)).2 p.1 = Memory.read m p.2) ∧
    (∀ x, (∀ p ∈ l, p.1 ≠ x) →
      Memory.read (runOps (l.map (fun p => ByteOp.load p.1 p.2)) (m, t)).2 x = Memory.read t x) := by
  induction l generalizing t with
  | nil => exact ⟨rfl, by simp, fun _ _ => rfl⟩
  | cons p l ih =>
    obtain ⟨h1, h2, h3⟩ := ih (fun a ha b hb => hl a (by simp [ha]) b (by simp [hb]))
      (Memory.write t p.1 (Memory.read m p.2))
    refine ⟨h1, ?_, ?_⟩
    · intro q hq
      rcases List.mem_cons.1 hq with rfl | hq
      · by_cases hm : ∃ p' ∈ l, p'.1 = q.1
        · obtain ⟨p', hp', he⟩ := hm
          have := h2 p' hp'
          rw [he] at this
          rw [hl q (by simp) p' (by simp [hp']) he.symm]
          exact this
        · have := h3 q.1 (fun a ha he => hm ⟨a, ha, he⟩)
          rw [Memory.read_write, if_pos rfl] at this
          exact this
      · exact h2 q hq
    · intro x hx
      have := h3 x (fun a ha => hx a (by simp [ha]))
      rw [Memory.read_write, if_neg (Ne.symm (hx p (by simp)))] at this
      exact this

/-- Stores from the staging copy, each address from one place only. -/
theorem runOps_stores (l : List (Nat × Nat)) (hl : ∀ p ∈ l, ∀ q ∈ l, p.1 = q.1 → p.2 = q.2) (m t : Memory) :
    (∀ p ∈ l, Memory.read (runOps (l.map (fun p => ByteOp.store p.1 p.2)) (m, t)).1 p.1 = Memory.read t p.2) ∧
    (∀ x, (∀ p ∈ l, p.1 ≠ x) →
      Memory.read (runOps (l.map (fun p => ByteOp.store p.1 p.2)) (m, t)).1 x = Memory.read m x) := by
  induction l generalizing m with
  | nil => exact ⟨by simp, fun _ _ => rfl⟩
  | cons p l ih =>
    obtain ⟨h2, h3⟩ := ih (fun a ha b hb => hl a (by simp [ha]) b (by simp [hb]))
      (Memory.write m p.1 (Memory.read t p.2))
    refine ⟨?_, ?_⟩
    · intro q hq
      rcases List.mem_cons.1 hq with rfl | hq
      · by_cases hm : ∃ p' ∈ l, p'.1 = q.1
        · obtain ⟨p', hp', he⟩ := hm
          have := h2 p' hp'
          rw [he] at this
          rw [hl q (by simp) p' (by simp [hp']) he.symm]
          exact this
        · have := h3 q.1 (fun a ha he => hm ⟨a, ha, he⟩)
          rw [Memory.read_write, if_pos rfl] at this
          exact this
      · exact h2 q hq
    · intro x hx
      have := h3 x (fun a ha => hx a (by simp [ha]))
      rw [Memory.read_write, if_neg (Ne.symm (hx p (by simp)))] at this
      exact this

/-- Loops over a row in word layout, as one list of pairs. -/
def wordPairs (W : Nat) (f : Nat → Nat → Nat × Nat) : List (Nat × Nat) :=
  (List.range W).flatMap (fun j => (List.range 4).map (fun k => f j k))

theorem mem_wordPairs {W : Nat} {f : Nat → Nat → Nat × Nat} {p : Nat × Nat} :
    p ∈ wordPairs W f ↔ ∃ j k, j < W ∧ k < 4 ∧ f j k = p := by
  simp only [wordPairs, List.mem_flatMap, List.mem_map, List.mem_range]
  constructor
  · rintro ⟨j, hj, k, hk, rfl⟩; exact ⟨j, k, hj, hk, rfl⟩
  · rintro ⟨j, k, hj, hk, rfl⟩; exact ⟨j, hj, k, hk, rfl⟩

theorem loadRow_eq (o : Op) (r : Nat) :
    loadRow o r = ((List.range (4 * o.W)).map (fun i => (i, rowBase32 o r + i))).map
      (fun p => ByteOp.load p.1 p.2) := by simp [loadRow, Function.comp_def]

theorem storeRow_eq (o : Op) (r : Nat) :
    storeRow o r = ((List.range (4 * o.W)).map (fun i => (rowBase32 o r + i, i))).map
      (fun p => ByteOp.store p.1 p.2) := by simp [storeRow, Function.comp_def]

theorem loadPlanes_eq (p : Params) (o : Op) (r : Nat) :
    loadPlanes p o r = (wordPairs o.W
      (fun j k => (p.planeOrder.plane k * o.W + j, rowBase32 o r + 4 * j + k))).map
      (fun q => ByteOp.load q.1 q.2) := by simp [loadPlanes, wordPairs, List.map_flatMap, Function.comp_def]

theorem storePlanes_eq (p : Params) (o : Op) (r : Nat) :
    storePlanes p o r = (wordPairs o.W
      (fun j k => (rowBase32 o r + 4 * j + k, p.planeOrder.plane k * o.W + j))).map
      (fun q => ByteOp.store q.1 q.2) := by simp [storePlanes, wordPairs, List.map_flatMap, Function.comp_def]

/-- The sums (`addT`) and differences (`subT`) leave data memory alone. -/
theorem runOps_addT_mem (l : List Nat) (m t : Memory) : (runOps (l.map ByteOp.addT) (m, t)).1 = m := by
  induction l generalizing t with
  | nil => rfl
  | cons i l ih => exact ih _

theorem runOps_subT_mem (l : List Nat) (m t : Memory) : (runOps (l.map ByteOp.subT) (m, t)).1 = m := by
  induction l generalizing t with
  | nil => rfl
  | cons i l ih => exact ih _

theorem runOps_addT_outside (l : List Nat) (y : Memory × Memory) (x : Nat) (hx : x ∉ l) :
    Memory.read (runOps (l.map ByteOp.addT) y).2 x = Memory.read y.2 x := by
  induction l generalizing y with
  | nil => rfl
  | cons i l ih =>
    obtain ⟨m, t⟩ := y
    simp only [List.mem_cons, not_or] at hx
    rw [List.map_cons, runOps_cons, ih _ hx.2]
    simp [ByteOp.run, hx.1]

theorem runOps_subT_outside (l : List Nat) (y : Memory × Memory) (x : Nat) (hx : x ∉ l) :
    Memory.read (runOps (l.map ByteOp.subT) y).2 x = Memory.read y.2 x := by
  induction l generalizing y with
  | nil => rfl
  | cons i l ih =>
    obtain ⟨m, t⟩ := y
    simp only [List.mem_cons, not_or] at hx
    rw [List.map_cons, runOps_cons, ih _ hx.2]
    simp [ByteOp.run, hx.1]

/-- One chain of sums over the `N` staged bytes from `c` upward. -/
theorem addT_chain (c N i : Nat) (hi : i < N) (y : Memory × Memory) :
    Memory.read (runOps (((columnsUp N).map (fun j => c + j)).map ByteOp.addT) y).2 (c + i) =
      prefixSum (fun q => Memory.read y.2 (c + q)) i := by
  rw [List.map_map, runOps_map]
  refine foldl_columnsUp (fun (z : Memory × Memory) i => Memory.read z.2 (c + i))
    (fun j z => (ByteOp.addT (c + j)).run z) N ?_ y i hi
  intro j x i h1 _ _
  obtain ⟨x1, x2⟩ := x
  simp only [ByteOp.run, Memory.read_write]
  rw [show c + j - 1 = c + (j - 1) by omega]
  by_cases h : i = j
  · rw [if_pos h, if_pos (by omega)]
  · rw [if_neg h, if_neg (by omega)]

/-- One chain of differences over the `N` staged bytes from `c` upward. -/
theorem subT_chain (c N i : Nat) (hi : i < N) (y : Memory × Memory) :
    Memory.read (runOps (((columnsDown N).map (fun j => c + j)).map ByteOp.subT) y).2 (c + i) =
      if i = 0 then Memory.read y.2 (c + i) else Memory.read y.2 (c + i) - Memory.read y.2 (c + (i - 1)) := by
  rw [List.map_map, runOps_map]
  refine foldl_columnsDown (fun (z : Memory × Memory) i => Memory.read z.2 (c + i))
    (fun j z => (ByteOp.subT (c + j)).run z) N ?_ y i hi
  intro j x i h1 _ _
  obtain ⟨x1, x2⟩ := x
  simp only [ByteOp.run, Memory.read_write]
  rw [show c + j - 1 = c + (j - 1) by omega]
  by_cases h : i = j
  · rw [if_pos h, if_pos (by omega)]
  · rw [if_neg h, if_neg (by omega)]

/-- An index of plane `q` is no index of another plane. -/
theorem plane_index_ne {W p q i j : Nat} (hi : i < W) (hj : j < W) (h : p * W + i = q * W + j) : p = q ∧ i = j := by
  rcases Nat.lt_trichotomy p q with h1 | h1 | h1
  · have := Nat.mul_le_mul_right W (show p + 1 ≤ q by omega)
    rw [Nat.add_mul] at this; omega
  · subst h1; omega
  · have := Nat.mul_le_mul_right W (show q + 1 ≤ p by omega)
    rw [Nat.add_mul] at this; omega

/-- Loops over the planes one after the other act on each plane by itself. -/
theorem planes_sequential (W : Nat) (mk : Nat → ByteOp) (cols : List Nat)
    (f : (Nat → Byte) → Nat → Byte) (hcols : ∀ j ∈ cols, j < W)
    (hout : ∀ (l : List Nat) (y : Memory × Memory) (x : Nat), x ∉ l →
      Memory.read (runOps (l.map mk) y).2 x = Memory.read y.2 x)
    (hin : ∀ (c i : Nat), i < W → ∀ y : Memory × Memory,
      Memory.read (runOps ((cols.map (fun j => c + j)).map mk) y).2 (c + i) =
        f (fun q => Memory.read y.2 (c + q)) i)
    (hf : ∀ g g' i, i < W → (∀ q, q < W → g q = g' q) → f g i = f g' i)
    (Q p i : Nat) (hi : i < W) (y : Memory × Memory) :
    Memory.read (runOps (((List.range Q).flatMap (fun q => cols.map (fun j => q * W + j))).map mk) y).2 (p * W + i) =
      if p < Q then f (fun q => Memory.read y.2 (p * W + q)) i else Memory.read y.2 (p * W + i) := by
  induction Q generalizing i with
  | zero => simp [runOps]
  | succ Q ih =>
    rw [List.range_succ, List.flatMap_append, List.map_append, runOps_append]
    simp only [List.flatMap_cons, List.flatMap_nil, List.append_nil]
    by_cases hp : p = Q
    · subst hp
      rw [hin _ _ hi, if_pos (by omega)]
      refine hf _ _ i hi (fun q hq => ?_)
      rw [ih q hq, if_neg (by omega)]
    · rw [hout _ _ _ (fun hmem => ?_), ih i hi]
      · by_cases h : p < Q
        · rw [if_pos h, if_pos (by omega)]
        · rw [if_neg h, if_neg (by omega)]
      · obtain ⟨j, hj, he⟩ := List.mem_map.1 hmem
        exact hp (plane_index_ne (hcols j hj) hi he).1.symm

theorem prefixSum_congr {w : Nat} (g g' : Nat → BitVec w) (W i : Nat) (hi : i < W) (h : ∀ q, q < W → g q = g' q) :
    prefixSum g i = prefixSum g' i := by
  induction i with
  | zero => exact h 0 hi
  | succ i ih => rw [prefixSum, prefixSum, ih (by omega), h _ hi]

theorem chainUp_sums (p : Params) (o : Op) (q j : Nat) (hq : q < 4) (hj : j < o.W) (y : Memory × Memory) :
    Memory.read (runOps ((chainUp p o).map ByteOp.addT) y).2 (q * o.W + j) =
      if p.planeCarry then prefixSum (fun i => Memory.read y.2 i) (q * o.W + j)
      else prefixSum (fun i => Memory.read y.2 (q * o.W + i)) j := by
  unfold chainUp
  split
  · have := addT_chain 0 (4 * o.W) (q * o.W + j)
      (by have := Nat.mul_le_mul_right o.W (show q + 1 ≤ 4 by omega); rw [Nat.add_mul] at this; omega) y
    simpa using this
  · have := planes_sequential o.W ByteOp.addT (columnsUp o.W) prefixSum (fun j hj => (mem_columnsUp.1 hj).2)
      runOps_addT_outside (fun c i hi y => addT_chain c o.W i hi y)
      (fun g g' i hi h => prefixSum_congr g g' o.W i hi h) 4 q j hj y
    rw [this, if_pos hq]

theorem chainDown_diffs (p : Params) (o : Op) (q j : Nat) (hq : q < 4) (hj : j < o.W) (y : Memory × Memory) :
    Memory.read (runOps ((chainDown p o).map ByteOp.subT) y).2 (q * o.W + j) =
      if j = 0 ∧ (p.planeCarry = false ∨ q = 0) then Memory.read y.2 (q * o.W + j)
      else Memory.read y.2 (q * o.W + j) - Memory.read y.2 (q * o.W + j - 1) := by
  unfold chainDown
  split
  · next hc =>
    have := subT_chain 0 (4 * o.W) (q * o.W + j)
      (by have := Nat.mul_le_mul_right o.W (show q + 1 ≤ 4 by omega); rw [Nat.add_mul] at this; omega) y
    simp only [Nat.zero_add, hc] at this ⊢
    simp only [List.map_id'] at this
    rw [this]
    by_cases h : q * o.W + j = 0
    · have hq0 : q = 0 := by
        have : q * o.W = 0 := by omega
        rcases Nat.mul_eq_zero.1 this with h | h
        · exact h
        · omega
      rw [if_pos h, if_pos ⟨by omega, .inr hq0⟩]
    · rw [if_neg h, if_neg (by
        rintro ⟨rfl, h2 | rfl⟩
        · simp at h2
        · simp at h)]
  · next hc =>
    have := planes_sequential o.W ByteOp.subT (columnsDown o.W)
      (fun g i => if i = 0 then g i else g i - g (i - 1)) (fun j hj => (mem_columnsDown.1 hj).2)
      runOps_subT_outside (fun c i hi y => subT_chain c o.W i hi y)
      (fun g g' i hi h => by
        by_cases h0 : i = 0
        · simp only [if_pos h0]; exact h i hi
        · simp only [if_neg h0]; rw [h i hi, h (i - 1) (by omega)]) 4 q j hj y
    rw [this, if_pos hq]
    have hc' : p.planeCarry = false := by simpa using hc
    by_cases h : j = 0
    · simp [h, hc']
    · rw [if_neg h, if_neg (by tauto), show q * o.W + j - 1 = q * o.W + (j - 1) by omega]

theorem PlaneOrder.plane_lt (p : PlaneOrder) (k : Nat) : p.plane k < 4 := by
  unfold PlaneOrder.plane; split <;> exact Fin.isLt _

/-- A legal `PLANE_ORDER` puts different bytes into different planes. -/
theorem PlaneOrder.plane_inj {p : PlaneOrder} (h : p.wf = true) {j k : Nat} (hj : j < 4) (hk : k < 4)
    (he : p.plane j = p.plane k) : j = k := by
  simp only [PlaneOrder.wf, Bool.and_eq_true, bne_iff_ne, ne_eq] at h
  obtain ⟨⟨⟨⟨⟨h1, h2⟩, h3⟩, h4⟩, h5⟩, h6⟩ := h
  rcases p with ⟨a, b, c, d⟩
  have hj' : j = 0 ∨ j = 1 ∨ j = 2 ∨ j = 3 := by omega
  have hk' : k = 0 ∨ k = 1 ∨ k = 2 ∨ k = 3 := by omega
  rcases hj' with rfl | rfl | rfl | rfl <;> rcases hk' with rfl | rfl | rfl | rfl <;>
    first
    | rfl
    | (simp only [PlaneOrder.plane] at he; have he' := Fin.ext he; simp_all)

/-- One row of `UNPRED.32`. -/
theorem unpred32_row (p : Params) (o : Op) (r j k : Nat) (hj : j < o.W) (hk : k < 4) (m : Memory) :
    Memory.read (runItem (unpred32Row p o r) m) (rowBase32 o r + 4 * j + k) =
      if p.planeCarry then Memory.sum8 m (rowBase32 o r) (p.planeOrder.plane k * o.W + j)
      else Memory.sum8 m (rowBase32 o r + p.planeOrder.plane k * o.W) j := by
  have hq := PlaneOrder.plane_lt p.planeOrder k
  rw [runItem, unpred32Row, runOps_append, runOps_append, storePlanes_eq]
  have hst := (runOps_stores (wordPairs o.W (fun j k => (rowBase32 o r + 4 * j + k, p.planeOrder.plane k * o.W + j)))
    (by
      intro a ha b hb hab
      obtain ⟨j1, k1, hj1, hk1, rfl⟩ := mem_wordPairs.1 ha
      obtain ⟨j2, k2, hj2, hk2, rfl⟩ := mem_wordPairs.1 hb
      simp only at hab ⊢
      obtain rfl : j1 = j2 := by omega
      obtain rfl : k1 = k2 := by omega
      rfl)
    (runOps ((chainUp p o).map ByteOp.addT) (runOps (loadRow o r) (m, []))).1
    (runOps ((chainUp p o).map ByteOp.addT) (runOps (loadRow o r) (m, []))).2).1
    (rowBase32 o r + 4 * j + k, p.planeOrder.plane k * o.W + j) (mem_wordPairs.2 ⟨j, k, hj, hk, rfl⟩)
  refine hst.trans ?_
  rw [chainUp_sums p o _ _ hq hj]
  have hload : ∀ i, i < 4 * o.W → Memory.read (runOps (loadRow o r) (m, [])).2 i = Memory.read m (rowBase32 o r + i) := by
    intro i hi
    rw [loadRow_eq]
    exact (runOps_loads ((List.range (4 * o.W)).map (fun i => (i, rowBase32 o r + i)))
      (by
        intro a ha b hb hab
        obtain ⟨x, -, rfl⟩ := List.mem_map.1 ha
        obtain ⟨z, -, rfl⟩ := List.mem_map.1 hb
        simp only at hab ⊢; omega) m []).2.1 (i, rowBase32 o r + i)
      (List.mem_map.2 ⟨i, List.mem_range.2 hi, rfl⟩)
  have hlen : p.planeOrder.plane k * o.W + o.W ≤ 4 * o.W := by
    have := Nat.mul_le_mul_right o.W (show p.planeOrder.plane k + 1 ≤ 4 by omega)
    rw [Nat.add_mul] at this; omega
  split
  · rw [sum8_eq_prefixSum]
    exact prefixSum_congr _ _ (4 * o.W) _ (by omega) hload
  · rw [sum8_eq_prefixSum]
    refine prefixSum_congr _ _ o.W _ hj (fun q hq' => ?_)
    rw [hload _ (by omega), Nat.add_assoc]

/-- One row of `PRED.32`, for a legal `PLANE_ORDER`: the staged row `stage` and what is written back. -/
theorem pred32_row (p : Params) (o : Op) (hp : p.planeOrder.wf = true) (r : Nat) (m : Memory) :
    ∃ stage : Memory,
      (∀ j k, j < o.W → k < 4 →
        Memory.read stage (p.planeOrder.plane k * o.W + j) = Memory.read m (rowBase32 o r + 4 * j + k)) ∧
      ∀ q j, q < 4 → j < o.W →
        Memory.read (runItem (pred32Row p o r) m) (rowBase32 o r + (q * o.W + j)) =
          if j = 0 ∧ (p.planeCarry = false ∨ q = 0) then Memory.read stage (q * o.W + j)
          else Memory.read stage (q * o.W + j) - Memory.read stage (q * o.W + j - 1) := by
  refine ⟨(runOps (loadPlanes p o r) (m, [])).2, ?_, ?_⟩
  · intro j k hj hk
    rw [loadPlanes_eq]
    exact (runOps_loads (wordPairs o.W (fun j k => (p.planeOrder.plane k * o.W + j, rowBase32 o r + 4 * j + k)))
      (by
        intro a ha b hb hab
        obtain ⟨j1, k1, hj1, hk1, rfl⟩ := mem_wordPairs.1 ha
        obtain ⟨j2, k2, hj2, hk2, rfl⟩ := mem_wordPairs.1 hb
        simp only at hab ⊢
        obtain ⟨h1, h2⟩ := plane_index_ne hj1 hj2 hab
        have := PlaneOrder.plane_inj hp hk1 hk2 h1
        omega) m []).2.1 (p.planeOrder.plane k * o.W + j, rowBase32 o r + 4 * j + k)
      (mem_wordPairs.2 ⟨j, k, hj, hk, rfl⟩)
  · intro q j hq hj
    rw [runItem, pred32Row, runOps_append, runOps_append, storeRow_eq]
    have hlt : q * o.W + j < 4 * o.W := by
      have := Nat.mul_le_mul_right o.W (show q + 1 ≤ 4 by omega)
      rw [Nat.add_mul] at this; omega
    have hst := (runOps_stores ((List.range (4 * o.W)).map (fun i => (rowBase32 o r + i, i)))
      (by
        intro a ha b hb hab
        obtain ⟨x, -, rfl⟩ := List.mem_map.1 ha
        obtain ⟨z, -, rfl⟩ := List.mem_map.1 hb
        simp only at hab ⊢; omega)
      (runOps ((chainDown p o).map ByteOp.subT) (runOps (loadPlanes p o r) (m, []))).1
      (runOps ((chainDown p o).map ByteOp.subT) (runOps (loadPlanes p o r) (m, []))).2).1
      (rowBase32 o r + (q * o.W + j), q * o.W + j)
      (List.mem_map.2 ⟨q * o.W + j, List.mem_range.2 hlt, rfl⟩)
    refine hst.trans ?_
    rw [chainDown_diffs p o q j hq hj]

end Sys2Proof.Machine
end

