-- ==== Sys2Proof/Laws/Step.lean ====
section
/-! SUPPORT. What a command, a move of the block and a step can do: the case lists every invariant is derived from. -/

namespace Sys2Proof.Machine

/-! ### Commands -/

/-- A command word spells one of the four operations at one of the four depths (R82). -/
theorem decodeCommand_cases {w : Word} {i : Instr} (h : decodeCommand w = .ok i) :
    ∃ d, i = .rledec d ∨ i = .swap d ∨ i = .unpred d ∨ i = .pred d := by
  unfold decodeCommand at h
  refine ⟨depthOf (dselField w), ?_⟩
  split at h
  · simp at h
  split at h
  · exact .inl (Except.ok.inj h).symm
  split at h
  · exact .inr (.inl (Except.ok.inj h).symm)
  split at h
  · exact .inr (.inr (.inl (Except.ok.inj h).symm))
  split at h
  · exact .inr (.inr (.inr (Except.ok.inj h).symm))
  · simp at h

theorem isCommand_of_cases {i : Instr} (h : ∃ d, i = .rledec d ∨ i = .swap d ∨ i = .unpred d ∨ i = .pred d) :
    IsCommand i := by
  obtain ⟨d, rfl | rfl | rfl | rfl⟩ := h <;> cases d <;> exact ⟨_, rfl⟩

theorem bufferFits_iff {n : Nat} {d : Depth} {o : Op} :
    bufferFits n d o = true ↔ o.bufferBytes d = 0 ∨ o.B + o.bufferBytes d ≤ n := by
  simp [bufferFits, inRange]

/-- Everything an in-place command does, said roughly. -/
theorem State.runWork_endsAs {s : State} {i : Instr} {w : Work} (h : inPlaceWork s.params s.op i = some w) :
    State.EndsAs s (s.runWork w) w.written := by
  obtain ⟨size, hl, hc, hw, -, hfit⟩ := inPlaceWork_shape h
  unfold State.runWork
  split
  · next hf =>
    rw [bufferFits_iff] at hf
    refine (State.endCommand_endsAs _ w.written .ok).of_later rfl ?_ (.inr rfl)
      (runItems_wf _ _ _) (fun hm => ?_)
    · intro x hx
      refine runItems_outside hl _ _ x (fun j hj hb => ?_)
      have := hb.in_region (List.mem_range.1 hj)
      rw [hc] at this
      omega
    · exact runItems_within hl _ (fun j hj => List.mem_range.1 hj) (by omega) _ hm
  · exact State.endCommand_endsAs s _ _

/-- What an in-place command does when its buffer exists and the host kept away: every block of the buffer holds what
its item alone makes of it, the rest of memory is as it was, and the command completes without error. -/
theorem exec_inPlace_ok {s : State} {i : Instr} {w : Work} {size : Nat} (h : inPlaceWork s.params s.op i = some w)
    (hl : w.Local s.op.B size) (hb : s.breach = false) (hf : bufferFits s.params.memSize w.depth s.op = true) :
    ∃ t, exec i s = .next t ∧ t = { s with mem := t.mem }.finish .ok ∧
      Memory.SameOutside s.mem t.mem s.op.B w.written ∧
      ∀ r x, r < w.count → InBlock s.op.B size r x →
        Memory.read t.mem x = Memory.read (runItem (w.prog r) s.mem) x := by
  refine ⟨_, exec_inPlace h, ?_, ?_, ?_⟩
  · simp only [State.runWork, hf, if_true]
    rw [State.endCommand_of_no_breach _ _ (by exact hb)]
    rfl
  · exact (State.runWork_endsAs h).sameOutside
  · intro r x hr hx
    simp only [State.runWork, hf, if_true]
    rw [State.endCommand_of_no_breach _ _ (by exact hb)]
    have := runItems_read hl (List.range w.count) List.nodup_range s.mem r x hx
    rw [if_pos (List.mem_range.2 hr)] at this
    simpa using this

/-- Everything a command does, said roughly: it ends, changing no memory outside its written region. -/
theorem exec_command_ends {i : Instr} (hi : IsCommand i) (s : State) :
    ∃ t, exec i s = .next t ∧ State.EndsAs s t (writtenBytes s.op i) := by
  obtain ⟨w, hw⟩ := hi
  have inPlace : ∀ {w : Work}, inPlaceWork s.params s.op i = some w →
      ∃ t, exec i s = .next t ∧ State.EndsAs s t (writtenBytes s.op i) := by
    intro w h
    obtain ⟨_, _, _, hwr, _⟩ := inPlaceWork_shape h
    exact ⟨_, exec_inPlace h, hwr ▸ State.runWork_endsAs h⟩
  cases i with
  | rledec1 => exact s.runRledec_ends .d1
  | rledec8 => exact s.runRledec_ends .d8
  | rledec16 => exact s.runRledec_ends .d16
  | rledec32 => exact s.runRledec_ends .d32
  | unpred1 => exact ⟨_, rfl, State.unsupported_endsAs s _⟩
  | pred1 => exact ⟨_, rfl, State.unsupported_endsAs s _⟩
  | nop => simp [encode] at hw
  | lit c => simp [encode] at hw
  | rpt c => simp [encode] at hw
  | _ => exact inPlace rfl

/-! ### The word of the running command -/

theorem Op.work_eq_some {p : Params} {o : Op} {w : Work} (h : o.work p = some w) :
    ∃ i, decodeCommand o.word = .ok i ∧ inPlaceWork p o i = some w := by
  unfold Op.work at h
  cases hd : decodeCommand o.word with
  | error e => rw [hd] at h; simp at h
  | ok i => rw [hd] at h; cases i <;> exact ⟨_, rfl, h⟩

theorem Op.work_of_decode {p : Params} {o : Op} {i : Instr} (h : decodeCommand o.word = .ok i) :
    o.work p = inPlaceWork p o i := by
  unfold Op.work; rw [h]; cases i <;> rfl

theorem Op.rleDepth_eq_some {o : Op} {d : Depth} : o.rleDepth = some d ↔ decodeCommand o.word = .ok (.rledec d) := by
  unfold Op.rleDepth
  cases hd : decodeCommand o.word with
  | error e => simp
  | ok i => cases i <;> cases d <;> simp [Instr.rledec]

theorem inPlaceWork_rledec (p : Params) (o : Op) (d : Depth) : inPlaceWork p o (.rledec d) = none := by
  cases d <;> rfl

/-- An in-place command has no `RLEDEC` depth. -/
theorem Op.rleDepth_of_work {p : Params} {o : Op} {w : Work} (h : o.work p = some w) : o.rleDepth = none := by
  obtain ⟨i, hd, hw⟩ := Op.work_eq_some h
  cases hr : o.rleDepth with
  | none => rfl
  | some d =>
    rw [Op.rleDepth_eq_some, hd] at hr
    have := Except.ok.inj hr
    rw [this, inPlaceWork_rledec] at hw
    simp at hw

/-! ### Moves of the block -/

/-- The block is at work and stays at work: only memory and the cursors change. -/
structure State.GoesOn (s t : State) : Prop where
  shape : t = { s with mem := t.mem, phase := t.phase, cur := t.cur, todo := t.todo, lanes := t.lanes }
  before : s.phase ≠ .idle
  after : t.phase = .stream ∨ t.phase = .items ∨ t.phase = s.phase

/-- Everything a move of the block can do: nothing when idle, end the command, or go on. -/
inductive State.BlockMove (s t : State) : Prop
  | rest (idle : s.phase = .idle) (same : t = s)
  | ends (busy : s.phase ≠ .idle) (n : Nat) (ending : State.EndsAs s t n)
  | goesOn (h : State.GoesOn s t)

theorem State.runCommand_ends (s : State) : ∃ t n, s.runCommand = .next t ∧ State.EndsAs s t n := by
  unfold State.runCommand
  cases hd : decodeCommand s.op.word with
  | error e => exact ⟨_, 0, rfl, State.unsupported_endsAs s 0⟩
  | ok i =>
    obtain ⟨t, ht, he⟩ := exec_command_ends (isCommand_of_cases (decodeCommand_cases hd)) s
    exact ⟨t, _, ht, he⟩

theorem State.streamTurn_move {s t : State} (hp : s.phase = .stream) (h : s.streamTurn runPacket = .next t) :
    State.BlockMove s t := by
  have hb : s.phase ≠ .idle := by simp [hp]
  unfold State.streamTurn at h
  split at h
  · obtain rfl := Host.Outcome.next.inj h
    exact .ends hb _ s.rleEnd_endsAs
  · obtain rfl := Host.Outcome.next.inj h
    exact .goesOn ⟨rfl, hb, .inr (.inr rfl)⟩
  · obtain rfl := Host.Outcome.next.inj h
    exact .ends hb _ (s.rleRaise_endsAs _ _ _)
  · split at h
    · simp at h
    · rcases runPacket_cases s s.fetchPacket with ⟨k, hk⟩ | ⟨a, ha⟩ | ⟨u, hu, hr, _⟩
      · rw [hk] at h
        obtain rfl := Host.Outcome.next.inj h
        exact .ends hb _ (s.rleRaise_endsAs _ _ _)
      · rw [ha] at h; simp at h
      · rw [hu] at h
        obtain rfl := Host.Outcome.next.inj h
        exact .goesOn ⟨by rw [hr.shape]; rfl, hb, .inr (.inr (by rw [hr.shape]; rfl))⟩

theorem State.laneTurn_move {s t : State} {w : Work} {lane pick : Nat} (hp : s.phase = .items)
    (h : s.laneTurn w lane pick = .next t) : State.BlockMove s t := by
  have hb : s.phase ≠ .idle := by simp [hp]
  unfold State.laneTurn at h
  split at h
  · obtain rfl := Host.Outcome.next.inj h
    exact .ends hb _ (State.endCommand_endsAs s _ _)
  · split at h
    · obtain rfl := Host.Outcome.next.inj h
      exact .goesOn ⟨rfl, hb, .inr (.inr rfl)⟩
    · obtain rfl := Host.Outcome.next.inj h
      unfold State.takeItem
      split <;> exact .goesOn ⟨rfl, hb, .inr (.inr rfl)⟩
    · unfold State.moveLane at h
      split at h
      · obtain rfl := Host.Outcome.next.inj h
        exact .goesOn ⟨rfl, hb, .inr (.inr rfl)⟩
      · split at h
        · simp at h
        · obtain rfl := Host.Outcome.next.inj h
          exact .goesOn ⟨rfl, hb, .inr (.inr rfl)⟩

theorem State.stepItems_move {s t : State} {lane pick : Nat} (hp : s.phase = .items)
    (h : s.stepItems lane pick = .next t) : State.BlockMove s t := by
  unfold State.stepItems at h
  split at h
  · exact State.laneTurn_move hp h
  · obtain rfl := Host.Outcome.next.inj h
    exact .goesOn ⟨rfl, by simp [hp], .inr (.inr rfl)⟩

theorem State.beginCommand_move {s : State} (hp : s.phase = .start) : State.BlockMove s s.beginCommand := by
  have hb : s.phase ≠ .idle := by simp [hp]
  unfold State.beginCommand
  split
  · unfold State.rleStart
    split
    · next h =>
      split at h
      · simp at h
      · obtain rfl := Option.some.inj h
        exact .ends hb _ (State.endRleStart_endsAs s _ _)
    · exact .goesOn ⟨rfl, hb, .inl rfl⟩
  · unfold State.beginWork
    split
    · exact .goesOn ⟨rfl, hb, .inr (.inl rfl)⟩
    · exact .ends hb _ (State.endCommand_endsAs s _ _)
  · exact .ends hb _ (State.unsupported_endsAs s 0)

theorem State.blockStep_move {s t : State} (h : s.blockStep = .next t) : State.BlockMove s t := by
  unfold State.blockStep at h
  split at h
  · next hp => obtain rfl := Host.Outcome.next.inj h; exact .rest hp rfl
  · next hp =>
    obtain ⟨u, n, hu, he⟩ := s.runCommand_ends
    rw [hu] at h
    obtain rfl := Host.Outcome.next.inj h
    exact .ends (by simp [hp]) n he
  · next hp => rw [State.stepStream_eq] at h; exact State.streamTurn_move hp h
  · next hp => exact State.stepItems_move hp h

theorem State.turnStep_move {s t : State} {lane pick : Nat} (h : s.turnStep lane pick = .next t) :
    State.BlockMove s t := by
  unfold State.turnStep at h
  split at h
  · next hp => obtain rfl := Host.Outcome.next.inj h; exact .rest hp rfl
  · next hp => obtain rfl := Host.Outcome.next.inj h; exact State.beginCommand_move hp
  · next hp => rw [State.stepStream_eq] at h; exact State.streamTurn_move hp h
  · next hp => exact State.stepItems_move hp h

/-- What every move of the block leaves alone. -/
theorem State.BlockMove.keepsHostSide {s t : State} (h : State.BlockMove s t) : State.KeepsHostSide s t := by
  cases h with
  | rest _ h => subst h; simp [State.KeepsHostSide]
  | ends _ n h => exact h.keepsHostSide
  | goesOn h => rw [h.shape]; simp [State.KeepsHostSide]

/-! ### Steps -/

theorem step_nil {s : State} (h : s.inputs = []) : step s = s.blockStep := by
  unfold step State.advance; rw [h]

theorem step_cons {s : State} {e : Event} {rest : List Event} (h : s.inputs = e :: rest) :
    step s = { s with inputs := rest }.event e := by
  unfold step State.advance; rw [h]

theorem aligned32_iff {off size : Nat} : aligned32 off size = true ↔ size = 4 ∧ off % 4 = 0 := by
  simp [aligned32]

theorem regAt_eq_cmd {off : Nat} : regAt off = .cmd ↔ off = 0x00 := by
  unfold regAt; split <;> simp_all

theorem regAt_eq_status {off : Nat} : regAt off = .status ↔ off = 0x04 := by
  unfold regAt; split <;> simp_all

theorem regAt_eq_ien {off : Nat} : regAt off = .ien ↔ off = 0x08 := by
  unfold regAt; split <;> simp_all

/-- A host move that touches no register: memory, the ownership and the model's own fields at most. -/
structure State.Looks (s t : State) : Prop where
  shape : t = { s with
    mem := t.mem, owned := t.owned, breach := t.breach, inputs := t.inputs, reply := t.reply, draws := t.draws }
  wf : Memory.wf s.mem = true → Memory.wf t.mem = true
  within : Memory.within s.params.memSize s.mem = true → Memory.within s.params.memSize t.mem = true

theorem State.observe_looks (s : State) : State.Looks s s.observe := by
  unfold State.observe; split <;> exact ⟨rfl, id, id⟩

theorem State.hostRead_looks (s : State) (off : Nat) : State.Looks s (s.hostRead off) := by
  simp only [State.hostRead, State.observe]
  split
  · split <;> exact ⟨rfl, id, id⟩
  · exact ⟨rfl, id, id⟩

theorem State.hostIrq_looks (s : State) : State.Looks s s.hostIrq := by
  simp only [State.hostIrq, State.observe]
  split
  · split <;> exact ⟨rfl, id, id⟩
  · exact ⟨rfl, id, id⟩

theorem State.waited_looks (s : State) (skip : Nat) : State.Looks s (s.waited skip) := by
  have h := s.hostRead_looks 0x04
  simp only [State.waited]
  split
  · exact ⟨by rw [h.shape], h.wf, h.within⟩
  · exact h

theorem State.hostMemRead_looks {s t : State} {a : Nat} (h : s.hostMemRead a = .next t) : State.Looks s t := by
  unfold State.hostMemRead at h
  split at h
  · simp at h
  · split at h <;> (obtain rfl := Host.Outcome.next.inj h; exact ⟨rfl, id, id⟩)

theorem State.hostMemWrite_looks {s t : State} {a : Nat} {v : Byte} (h : s.hostMemWrite a v = .next t) :
    State.Looks s t := by
  unfold State.hostMemWrite at h
  split at h
  · simp at h
  · next ha =>
    have hw := fun g => Memory.within_write (m := s.mem) (n := s.params.memSize) (a := a) v (by omega) g
    split at h <;> obtain rfl := Host.Outcome.next.inj h
    · exact ⟨by rw [State.loosen_shape], fun g => State.loosen_wf _ _ (Memory.wf_write a v g),
        fun g => State.loosen_within
          (s := { s with mem := Memory.write s.mem a v, breach := s.breach || s.runsOn a }) a s.owned (hw g)⟩
    · exact ⟨rfl, Memory.wf_write a v, hw⟩

/-- A register write that starts no command: the operand registers, `IEN.IE` and the status bits at most, `DONE` and
`ERRV` only cleared, `ERRV` and `ECODE` together and only while `BUSY = 0`. -/
structure State.Stores (s t : State) : Prop where
  shape : t = { s with
    base := t.base, width := t.width, height := t.height, src := t.src, srclen := t.srclen
    ie := t.ie, done := t.done, errv := t.errv, ecode := t.ecode, rej := t.rej }
  done : t.done = true → s.done = true
  error : (t.errv = s.errv ∧ t.ecode = s.ecode) ∨ (s.phase = .idle ∧ t.errv = false ∧ t.ecode = 0#4)

theorem State.writeStatus_stores (s : State) (v : Word) : State.Stores s (s.writeStatus v) := by
  refine ⟨rfl, fun h => ?_, ?_⟩
  · simp only [State.writeStatus, Bool.and_eq_true] at h; exact h.1
  · simp only [State.writeStatus]
    cases hb : v.getLsbD 2 && !s.busy with
    | false => exact .inl (by simp)
    | true =>
      refine .inr ⟨?_, by simp, by simp⟩
      simp only [State.busy, Bool.and_eq_true, Bool.not_eq_true', decide_eq_false_iff_not, not_not] at hb
      exact hb.2

/-- What a register write does: it starts a command, or it stores. -/
theorem State.writeReg_cases (s : State) (r : Reg) (v : Word) :
    (r = .cmd ∧ s.phase = .idle ∧ s.errv = false ∧ s.writeReg r v = s.accept v) ∨
    State.Stores s (s.writeReg r v) := by
  cases r with
  | cmd =>
    simp only [State.writeReg, State.writeCmd]
    split
    · next h =>
      simp only [State.busy, Bool.and_eq_true, Bool.not_eq_true', decide_eq_false_iff_not, not_not] at h
      exact .inl ⟨trivial, h.1, h.2, rfl⟩
    · exact .inr ⟨rfl, fun h => h, .inl ⟨rfl, rfl⟩⟩
  | status => exact .inr (s.writeStatus_stores v)
  | _ => exact .inr ⟨rfl, fun h => h, .inl ⟨rfl, rfl⟩⟩

/-- Everything a step can be, in five kinds. Each is stated from `s` with its inputs moved on. -/
inductive StepKind (s t : State) : Prop
  | block (r : List Event)
      (move : { s with inputs := r }.blockStep = .next t ∨
        ∃ lane pick, { s with inputs := r }.turnStep lane pick = .next t)
  | looks (r : List Event) (move : State.Looks { s with inputs := r } t)
  | stores (off : Nat) (v : Word) (r : List Event) (head : s.inputs = .wr off 4 v :: r)
      (result : t = { s with inputs := r }.writeReg (regAt off) v) (move : State.Stores { s with inputs := r } t)
  | accepts (v : Word) (r : List Event) (head : s.inputs = .wr 0x00 4 v :: r) (idle : s.phase = .idle)
      (errv : s.errv = false) (result : t = { s with inputs := r }.accept v)
  | rst (r : List Event) (head : s.inputs = .rst :: r) (result : t = { s with inputs := r }.rst)

theorem step_kinds {s t : State} (h : step s = .next t) : StepKind s t := by
  cases hin : s.inputs with
  | nil =>
    rw [step_nil hin] at h
    exact .block s.inputs (.inl h)
  | cons e rest =>
    rw [step_cons hin] at h
    cases e with
    | rd off size =>
      simp only [State.event] at h
      split at h
      · obtain rfl := Host.Outcome.next.inj h
        exact .looks rest (State.hostRead_looks _ off)
      · simp at h
    | wr off size v =>
      simp only [State.event] at h
      split at h
      · next ok =>
        obtain ⟨rfl, -⟩ := aligned32_iff.1 ok
        obtain rfl := Host.Outcome.next.inj h
        rcases State.writeReg_cases { s with inputs := rest } (regAt off) v with ⟨h1, h2, h3, h4⟩ | h1
        · rw [regAt_eq_cmd] at h1
          subst h1
          exact .accepts v rest hin h2 h3 h4
        · exact .stores off v rest hin rfl h1
      · simp at h
    | irq =>
      obtain rfl := Host.Outcome.next.inj h
      exact .looks rest (State.hostIrq_looks _)
    | memRd a => exact .looks rest (State.hostMemRead_looks h)
    | memWr a v => exact .looks rest (State.hostMemWrite_looks h)
    | rst => exact .rst rest hin (Host.Outcome.next.inj h).symm
    | block => exact .block rest (.inl h)
    | turn lane pick => exact .block rest (.inr ⟨lane, pick, h⟩)
    | wait skip =>
      simp only [State.event] at h
      split at h
      · exact .block _ (.inl h)
      · obtain rfl := Host.Outcome.next.inj h
        exact .looks rest (State.waited_looks _ skip)

theorem State.move_of_either {s t : State}
    (h : s.blockStep = .next t ∨ ∃ lane pick, s.turnStep lane pick = .next t) : State.BlockMove s t := by
  rcases h with h | ⟨lane, pick, h⟩
  · exact State.blockStep_move h
  · exact State.turnStep_move h

end Sys2Proof.Machine
end

