-- ==== Sys2Proof/Laws/Schedule.lean ====
section
/-! SUPPORT. Turns on a schedule: the block's moves do not look at the host moves to come, and the progress of the rows of
a command in the middle of any schedule. -/

namespace Sys2Proof.Machine

/-- A state with other host moves to come. -/
def withInputs (s : State) (l : List Event) : State := { s with inputs := l }

theorem finish_withInputs (s : State) (l) (e : Ending) : (withInputs s l).finish e = withInputs (s.finish e) l := by cases e <;> rfl
theorem endRle_withInputs (s : State) (l) (n) (e : Ending) : (withInputs s l).endRle n e = withInputs (s.endRle n e) l := by
  unfold State.endRle
  cases hb : s.breach with
  | true =>
    have : (withInputs s l).breach = true := hb
    simp only [this, if_true, State.looseEnd]
    exact finish_withInputs { s.havoc s.op.B n with draws := (s.havoc s.op.B n).draws + 1 } l _
  | false =>
    have : (withInputs s l).breach = false := hb
    simp only [this, Bool.false_eq_true, if_false]
    cases e with
    | ok => rfl
    | error k r p => rfl

/-- A turn of the stream does not look at the host moves to come. -/
theorem streamTurn_withInputs (s : State) (l) : (withInputs s l).streamTurn runPacket = (match s.streamTurn runPacket with
   | .next t => .next (withInputs t l) | .fault r => .fault r | .refused r => .refused r) := by
  unfold State.streamTurn
  have e1 : (withInputs s l).rleTurn = s.rleTurn := rfl
  rw [e1]
  cases s.rleTurn with
  | finish => 
    simp only [State.rleEnd, State.rleRaise]
    have : (withInputs s l).cur.sp ≠ (withInputs s l).op.L ↔ s.cur.sp ≠ s.op.L := Iff.rfl
    by_cases h : s.cur.sp ≠ s.op.L
    · rw [if_pos h, if_pos (this.2 h), endRle_withInputs]; rfl
    · rw [if_neg h, if_neg (fun h' => h (this.1 h')), endRle_withInputs]; rfl
  | rowEnd => rfl
  | sourceUsedUp => simp only [State.rleRaise, endRle_withInputs]; rfl
  | packet =>
    have e2 : firstAbsent (withInputs s l).params.memSize (withInputs s l).rleSrc 1 = firstAbsent s.params.memSize s.rleSrc 1 := rfl
    simp only [e2]
    cases firstAbsent s.params.memSize s.rleSrc 1 with
    | some a => rfl
    | none =>
      have e3 : (withInputs s l).fetchPacket = s.fetchPacket := rfl
      simp only [e3]
      have key : ∀ p w, (withInputs s l).runData p w = (match s.runData p w with
         | .next t => .next (withInputs t l) | .fault r => .fault r | .refused r => .refused r) := by
        intro p w
        unfold State.runData
        have f1 : (withInputs s l).packetError p = s.packetError p := rfl
        have f2 : firstAbsent (withInputs s l).params.memSize (withInputs s l).rleSrc (packetNeed p) = firstAbsent s.params.memSize s.rleSrc (packetNeed p) := rfl
        have f3 : firstAbsent (withInputs s l).params.memSize (withInputs s l).rleDst (packetCount p) = firstAbsent s.params.memSize s.rleDst (packetCount p) := rfl
        simp only [f1, f2, f3]
        cases s.packetError p with
        | some k => simp only [State.rleRaise, endRle_withInputs]; rfl
        | none =>
          dsimp only
          cases firstAbsent s.params.memSize s.rleSrc (packetNeed p) with
          | some a => rfl
          | none =>
            dsimp only
            cases firstAbsent s.params.memSize s.rleDst (packetCount p) with
            | some a => rfl
            | none => rfl
      cases s.fetchPacket with
      | nop => rfl
      | lit c => exact key _ _
      | rpt c => exact key (.rpt c) (fun m src dst cnt => Memory.fill m (Memory.read m src) dst cnt)

theorem endCommand_withInputs (s : State) (l) (n) (e : Ending) : (withInputs s l).endCommand n e = withInputs (s.endCommand n e) l := by
  unfold State.endCommand
  have : (withInputs s l).breach = s.breach := rfl
  rw [this]; split
  · exact finish_withInputs (s.havoc s.op.B n) l e
  · exact finish_withInputs s l e

/-- A step whose host move is a turn. -/
theorem step_turn (s : State) (l) (p : Nat × Nat) : step (withInputs s (.turn p.1 p.2 :: l)) = (withInputs s l).turnStep p.1 p.2 := rfl

/-- Where the rows (samples) of a command stand that began on memory `m0`, in the middle of any schedule: waiting items
have their blocks as they were, an item in a lane has done the first `pos` operations of its list, every other item is done. -/
structure Progress (m0 : Memory) (w : Work) (base size : Nat) (u : State) : Prop where
  wf0 : Memory.wf m0 = true
  wf : Memory.wf u.mem = true
  tnodup : u.todo.Nodup
  lnodup : ∀ (k1 k2 : Nat) (a b : Lane), u.lanes[k1]? = some (some a) → u.lanes[k2]? = some (some b) → a.item = b.item → k1 = k2
  apart : ∀ (k : Nat) (a : Lane), u.lanes[k]? = some (some a) → a.item ∉ u.todo
  tlt : ∀ i ∈ u.todo, i < w.count
  llt : ∀ (k : Nat) (a : Lane), u.lanes[k]? = some (some a) → a.item < w.count
  todo : ∀ i ∈ u.todo, ∀ x, InBlock base size i x → Memory.read u.mem x = Memory.read m0 x
  lane : ∀ (k : Nat) (a : Lane), u.lanes[k]? = some (some a) → a.stage = (runOps ((w.prog a.item).take a.pos) (m0, [])).2 ∧
    ∀ x, InBlock base size a.item x → Memory.read u.mem x = Memory.read (runOps ((w.prog a.item).take a.pos) (m0, [])).1 x
  done : ∀ i < w.count, i ∉ u.todo → (∀ (k : Nat) (a : Lane), u.lanes[k]? = some (some a) → a.item ≠ i) → ∀ x, InBlock base size i x →
    Memory.read u.mem x = Memory.read (runItem (w.prog i) m0) x
  outside : ∀ x, (∀ i < w.count, ¬ InBlock base size i x) → Memory.read u.mem x = Memory.read m0 x

theorem lanes_set_lookup {l : List (Option Lane)} {k j : Nat} {v : Option Lane} {a : Lane} (h : (l.set k v)[j]? = some (some a)) :
   (j = k ∧ v = some a) ∨ (j ≠ k ∧ l[j]? = some (some a)) := by
  rw [List.getElem?_set] at h
  split at h
  · next e =>
    split at h
    · left; exact ⟨e.symm, by simpa using h⟩
    · simp at h
  · next e => right; exact ⟨fun h => e h.symm, h⟩

/-- The start of a schedule. -/
theorem Progress.begin {w : Work} {base size : Nat} (u : State) (h : Memory.wf u.mem = true) (n : Nat) 
   (ht : u.todo = List.range w.count) (hl : u.lanes = List.replicate n none) : Progress u.mem w base size u := by
  have nol : ∀ (k : Nat) (a : Lane), ¬ u.lanes[k]? = some (some a) := by
    intro k a e; rw [hl, List.getElem?_replicate] at e; split at e <;> simp at e
  refine ⟨h, h, ht ▸ List.nodup_range, fun k1 k2 a b e => absurd e (nol _ _), fun k a e => absurd e (nol _ _), ?_, fun k a e => absurd e (nol _ _), fun _ _ _ _ => rfl, fun k a e => absurd e (nol _ _), ?_, fun _ _ => rfl⟩
  · rw [ht]; intro i hi; simpa using hi
  · intro i hi h; rw [ht] at h; simp at h; omega

/-- A free lane takes a waiting item. -/
theorem Progress.takeItem {m0 : Memory} {w : Work} {base size : Nat} {u : State} (h : Progress m0 w base size u) (k pick : Nat) (hk : u.lanes[k]? = some none) :
   Progress m0 w base size (u.takeItem k pick) := by
  unfold State.takeItem
  split
  · exact h
  · next item hi =>
    have hmem := List.mem_of_getElem? hi
    have hsub : ∀ i ∈ u.todo.eraseIdx pick, i ∈ u.todo := fun i hi => List.mem_of_mem_eraseIdx hi
    have hnot : item ∉ u.todo.eraseIdx pick := by
      intro hc
      rw [List.mem_eraseIdx_iff_getElem?] at hc
      obtain ⟨j, hj, hj2⟩ := hc
      apply hj
      have a1 := (List.getElem?_eq_some_iff.1 hi)
      have a2 := (List.getElem?_eq_some_iff.1 hj2)
      obtain ⟨b1, b2⟩ := a1
      obtain ⟨b3, b4⟩ := a2
      exact (List.Nodup.getElem_inj_iff h.tnodup).1 (b4.trans b2.symm)
    have hcov : ∀ i ∈ u.todo, i = item ∨ i ∈ u.todo.eraseIdx pick := by
      intro i hi'
      obtain ⟨j, hj, e⟩ := List.getElem_of_mem hi'
      by_cases hjp : j = pick
      · left; subst hjp; rw [List.getElem?_eq_getElem hj] at hi; simp at hi; rw [← e, hi]
      · right; rw [List.mem_eraseIdx_iff_getElem?]; exact ⟨j, hjp, by rw [List.getElem?_eq_getElem hj, e]⟩
    refine ⟨h.wf0, h.wf, h.tnodup.eraseIdx _, ?_, ?_, fun i hi => h.tlt i (hsub i hi), ?_, fun i hi => h.todo i (hsub i hi), ?_, ?_, h.outside⟩
    · intro k1 k2 a b e1 e2 e
      rcases lanes_set_lookup e1 with ⟨r1, r2⟩ | ⟨r1, r2⟩ <;> rcases lanes_set_lookup e2 with ⟨q1, q2⟩ | ⟨q1, q2⟩
      · omega
      · exfalso; obtain rfl := Option.some.inj r2; exact h.apart _ _ q2 (e ▸ hmem)
      · exfalso; obtain rfl := Option.some.inj q2; exact h.apart _ _ r2 (e ▸ hmem)
      · exact h.lnodup _ _ _ _ r2 q2 e
    · intro j a e
      rcases lanes_set_lookup e with ⟨r1, r2⟩ | ⟨r1, r2⟩
      · obtain rfl := Option.some.inj r2; exact hnot
      · exact fun hc => h.apart _ _ r2 (hsub _ hc)
    · intro j a e
      rcases lanes_set_lookup e with ⟨r1, r2⟩ | ⟨r1, r2⟩
      · obtain rfl := Option.some.inj r2; exact h.tlt _ hmem
      · exact h.llt _ _ r2
    · intro j a e
      rcases lanes_set_lookup e with ⟨r1, r2⟩ | ⟨r1, r2⟩
      · obtain rfl := Option.some.inj r2; exact ⟨by simp [runOps], fun x hx => by simpa [runOps] using h.todo _ hmem x hx⟩
      · exact h.lane _ _ r2
    · intro i hi hnt hnl x hx
      have hlt := (List.getElem?_eq_some_iff.1 hk).1
      have hne : item ≠ i := by
        refine hnl k ⟨item, 0, []⟩ ?_
        rw [List.getElem?_set_self hlt]
      refine h.done i hi ?_ ?_ x hx
      · intro hc; rcases hcov i hc with e | e
        · exact hne e.symm
        · exact hnt e
      · intro j a e
        have hjk : j ≠ k := by rintro rfl; rw [hk] at e; simp at e
        exact hnl j a (by rw [List.getElem?_set_ne (Ne.symm hjk)]; exact e)

/-- A lane at the end of its item is free again. -/
theorem Progress.free {m0 : Memory} {w : Work} {base size : Nat} {u : State} (h : Progress m0 w base size u) (k : Nat) (ln : Lane) (hk : u.lanes[k]? = some (some ln))
   (hp : (w.prog ln.item)[ln.pos]? = none) : Progress m0 w base size { u with lanes := u.lanes.set k none } := by
  have back : ∀ j (a : Lane), (u.lanes.set k none)[j]? = some (some a) → j ≠ k ∧ u.lanes[j]? = some (some a) := by
    intro j a e; rcases lanes_set_lookup e with ⟨_, r⟩ | r
    · simp at r
    · exact r
  refine ⟨h.wf0, h.wf, h.tnodup, fun k1 k2 a b e1 e2 => h.lnodup _ _ _ _ (back _ _ e1).2 (back _ _ e2).2, fun j a e => h.apart _ _ (back _ _ e).2, h.tlt,
    fun j a e => h.llt _ _ (back _ _ e).2, h.todo, fun j a e => h.lane _ _ (back _ _ e).2, ?_, h.outside⟩
  intro i hi hnt hnl x hx
  by_cases hil : ln.item = i
  · subst hil
    have := (h.lane k ln hk).2 x hx
    rw [List.getElem?_eq_none_iff] at hp
    rw [List.take_of_length_le hp] at this
    exact this
  · refine h.done i hi hnt (fun j a e => ?_) x hx
    by_cases hj : j = k
    · subst hj; rw [hk] at e; simp at e; rw [← e]; exact hil
    · exact hnl j a (by rw [List.getElem?_set_ne (Ne.symm hj)]; exact e)

/-- A lane does the next byte operation of its item. -/
theorem Progress.move {m0 : Memory} {w : Work} {base size : Nat} {u : State} (hloc : w.Local base size) (h : Progress m0 w base size u) (k : Nat) (ln : Lane) (hk : u.lanes[k]? = some (some ln))
   (b : ByteOp) (hp : (w.prog ln.item)[ln.pos]? = some b) : Progress m0 w base size { u with
        mem := (b.run (u.mem, ln.stage)).1
        lanes := u.lanes.set k (some ⟨ln.item, ln.pos + 1, (b.run (u.mem, ln.stage)).2⟩) } := by
  have hb : b ∈ w.prog ln.item := List.mem_of_getElem? hp
  have hblk := hloc ln.item b hb
  obtain ⟨hst, hrd⟩ := h.lane k ln hk
  have hframe : ∀ x, ¬ InBlock base size ln.item x → Memory.read (b.run (u.mem, ln.stage)).1 x = Memory.read u.mem x :=
    fun x hx => ByteOp.run_frame b _ _ x (fun hc => hx (hblk x hc))
  have hother : ∀ i x, InBlock base size i x → i ≠ ln.item → Memory.read (b.run (u.mem, ln.stage)).1 x = Memory.read u.mem x :=
    fun i x hx hne => hframe x (fun hc => hne (hx.unique hc))
  have htake : runOps ((w.prog ln.item).take (ln.pos + 1)) (m0, []) = b.run (runOps ((w.prog ln.item).take ln.pos) (m0, [])) := by
    rw [List.take_add_one, hp]; simp only [Option.toList]; rw [runOps_append]; rfl
  have stwf : Memory.wf ln.stage = true := by
    rw [hst]; exact (runOps_wf _ (m0, []) h.wf0 rfl).2
  have look : ∀ j (a : Lane), (u.lanes.set k (some ⟨ln.item, ln.pos + 1, (b.run (u.mem, ln.stage)).2⟩))[j]? = some (some a) →
      (j = k ∧ a = ⟨ln.item, ln.pos + 1, (b.run (u.mem, ln.stage)).2⟩) ∨ (j ≠ k ∧ u.lanes[j]? = some (some a)) := by
    intro j a e; rcases lanes_set_lookup e with ⟨r1, r2⟩ | r
    · exact .inl ⟨r1, (Option.some.inj r2).symm⟩
    · exact .inr r
  refine ⟨h.wf0, (ByteOp.run_wf b h.wf stwf).1, h.tnodup, ?_, ?_, h.tlt, ?_, ?_, ?_, ?_, ?_⟩
  · intro k1 k2 a c e1 e2 e
    rcases look _ _ e1 with ⟨r1, r2⟩ | ⟨r1, r2⟩ <;> rcases look _ _ e2 with ⟨q1, q2⟩ | ⟨q1, q2⟩
    · omega
    · subst r2; subst r1; exact h.lnodup _ _ _ _ hk q2 e
    · subst q2; subst q1; exact h.lnodup _ _ _ _ r2 hk e
    · exact h.lnodup _ _ _ _ r2 q2 e
  · intro j a e
    rcases look _ _ e with ⟨r1, r2⟩ | ⟨r1, r2⟩
    · subst r2; exact h.apart k ln hk
    · exact h.apart _ _ r2
  · intro j a e
    rcases look _ _ e with ⟨r1, r2⟩ | ⟨r1, r2⟩
    · subst r2; exact h.llt k ln hk
    · exact h.llt _ _ r2
  · intro i hi x hx
    refine (hother i x hx ?_).trans (h.todo i hi x hx)
    rintro rfl; exact h.apart k ln hk hi
  · intro j a e
    rcases look _ _ e with ⟨r1, r2⟩ | ⟨r1, r2⟩
    · subst r2
      simp only
      rw [htake]
      have cong := ByteOp.run_congr b u.mem (runOps ((w.prog ln.item).take ln.pos) (m0, [])).1 ln.stage (fun a ha => hrd a (hblk a ha))
      have pair : runOps ((w.prog ln.item).take ln.pos) (m0, []) = ((runOps ((w.prog ln.item).take ln.pos) (m0, [])).1, ln.stage) := by rw [hst]
      rw [pair]
      refine ⟨cong.1, fun x hx => ?_⟩
      by_cases ht : x ∈ b.touched
      · exact cong.2 x ht
      · rw [ByteOp.run_frame b _ _ x ht, ByteOp.run_frame b _ _ x ht]; exact hrd x hx
    · obtain ⟨z1, z2⟩ := h.lane _ _ r2
      refine ⟨z1, fun x hx => ?_⟩
      rw [hother a.item x hx (fun e => r1 (h.lnodup _ _ _ _ r2 hk e))]
      exact z2 x hx
  · intro i hi hnt hnl x hx
    have hlt := (List.getElem?_eq_some_iff.1 hk).1
    have hne : ln.item ≠ i := hnl k ⟨ln.item, ln.pos + 1, (b.run (u.mem, ln.stage)).2⟩ (by dsimp only; rw [List.getElem?_set_self hlt])
    rw [hother i x hx (Ne.symm hne)]
    refine h.done i hi hnt (fun j a e => ?_) x hx
    by_cases hj : j = k
    · subst hj; rw [hk] at e; simp at e; rw [← e]; exact hne
    · exact hnl j a (by rw [List.getElem?_set_ne (Ne.symm hj)]; exact e)
  · intro x hx
    rw [hframe x (hx _ (h.llt k ln hk))]; exact h.outside x hx

end Sys2Proof.Machine
end

