-- ==== Sys2Proof/Laws/Stream.lean ====
section
/-! SUPPORT. The RLE stream as assembled packets: what stands at a header is a packet, the turn of a packet, of the packets
of a row, of all rows; and the loop's fuel. -/

namespace Sys2Proof.Machine

/-- The packet kind and count an assembled packet spells. -/
def spelledPacket : SrcPacket → Packet
  | .nop => .nop
  | .lit data => .lit (BitVec.ofNat 7 (data.length - 1))
  | .rpt count _ => .rpt (BitVec.ofNat 7 (129 - count))

/-- Headers 0x00 to 0x7F (R88). -/
theorem decodePacket_lit : ∀ n < 128, decodePacket (BitVec.ofNat 8 n) = .lit (BitVec.ofNat 7 n) := by decide
/-- The headers the assembler writes for a repeat (R93). -/
theorem decodePacket_rpt : ∀ c < 129, 2 ≤ c → decodePacket (BitVec.ofNat 8 (257 - c)) = .rpt (BitVec.ofNat 7 (129 - c)) := by decide

/-- The first byte of an assembled packet decodes to the packet it spells. -/
theorem assemble_header (p : SrcPacket) (h : p.wf = true) : ∃ rest, p.assemble = (p.assemble.headD 0) :: rest ∧ decodePacket (p.assemble.headD 0) = spelledPacket p := by
  cases p with
  | nop => exact ⟨[], rfl, rfl⟩
  | lit data =>
    simp only [SrcPacket.wf, Bool.and_eq_true, decide_eq_true_eq] at h
    exact ⟨data, rfl, decodePacket_lit _ (by omega)⟩
  | rpt c b =>
    simp only [SrcPacket.wf, Bool.and_eq_true, decide_eq_true_eq] at h
    exact ⟨[b], rfl, decodePacket_rpt _ (by omega) h.1⟩

/-- An assembled packet has the produced and source bytes of what it spells. -/
theorem assemble_counts (p : SrcPacket) (h : p.wf = true) : packetCount (spelledPacket p) = p.produced.length ∧ packetNeed (spelledPacket p) = p.assemble.length := by
  cases p with
  | nop => exact ⟨rfl, rfl⟩
  | lit data =>
    simp only [SrcPacket.wf, Bool.and_eq_true, decide_eq_true_eq] at h
    have : (data.length - 1) % 128 = data.length - 1 := Nat.mod_eq_of_lt (by omega)
    simp [spelledPacket, packetCount, packetNeed, SrcPacket.produced, SrcPacket.assemble, this]; omega
  | rpt c b =>
    simp only [SrcPacket.wf, Bool.and_eq_true, decide_eq_true_eq] at h
    have : (129 - c) % 128 = 129 - c := Nat.mod_eq_of_lt (by omega)
    simp [spelledPacket, packetCount, packetNeed, SrcPacket.produced, SrcPacket.assemble, this]; omega

theorem getElem_zero_headD (l : List Byte) (h : 0 < l.length) : l[0] = l.headD 0 := by
  cases l with
  | nil => simp at h
  | cons a l => rfl

/-- The turn of one packet that fits its row and the source. -/
theorem State.StreamOk.packet_turn {s : State} {d : Depth} (h : s.StreamOk d) (hr : s.cur.row < s.op.H) (ho : s.cur.out < s.cur.rb)
    (p : SrcPacket) (hp : p.wf = true) (h1 : s.cur.out + p.produced.length ≤ s.cur.rb)
    (h2 : s.cur.sp + p.assemble.length ≤ s.op.L) (hh : Memory.Holds s.mem (s.op.S + s.cur.sp) p.assemble) :
    ∃ t, s.streamTurn runPacket = .next t ∧ 
      t = { s with mem := t.mem, cur := ⟨s.cur.sp + p.assemble.length, s.cur.row, s.cur.out + p.produced.length, s.cur.rb⟩ } ∧
      Memory.SameOutside s.mem t.mem s.rleDst p.produced.length ∧ Memory.Holds t.mem s.rleDst p.produced := by
  obtain ⟨rest, e1, e2⟩ := assemble_header p hp
  obtain ⟨c1, c2⟩ := assemble_counts p hp
  obtain ⟨f1, f2, f3⟩ := rleFits_iff.1 h.fits
  have hlen : 0 < p.assemble.length := by rw [e1]; simp
  have hrd : Memory.read s.mem s.rleSrc = p.assemble.headD 0 := by
    have := hh 0 hlen
    rw [Nat.add_zero] at this
    rw [State.rleSrc, this, getElem_zero_headD]
  have hf : s.fetchPacket = spelledPacket p := by rw [State.fetchPacket, hrd, e2]
  have ht : s.rleTurn = .packet := by
    have h3 : s.cur.sp < s.op.L := by omega
    simp only [State.rleTurn, hr, ho, h3, not_true, if_false]
  have hsrc : firstAbsent s.params.memSize s.rleSrc 1 = none := by
    rw [firstAbsent_eq_none]; unfold State.rleSrc; omega
  have hst : s.streamTurn runPacket = runPacket (spelledPacket p) s := by simp only [State.streamTurn, ht, hsrc, hf]
  rw [hst]
  have hdst := h.dst hr h1
  have g1 : s.cur.out + packetCount (spelledPacket p) ≤ s.cur.rb := by omega
  have g2 : s.cur.sp + packetNeed (spelledPacket p) ≤ s.op.L := by omega
  have g3 : packetNeed (spelledPacket p) = 0 ∨ s.rleSrc + packetNeed (spelledPacket p) ≤ s.params.memSize := by unfold State.rleSrc; omega
  have g4 : packetCount (spelledPacket p) = 0 ∨ s.rleDst + packetCount (spelledPacket p) ≤ s.params.memSize := by omega
  cases p with
  | nop => 
    refine ⟨_, rfl, rfl, .refl _ _ _, ?_⟩
    intro k hk; simp [SrcPacket.produced] at hk
  | lit data =>
    simp only [spelledPacket] at c1 c2 g1 g2 g3 g4
    have hne : 0 < data.length := by simp only [SrcPacket.wf, Bool.and_eq_true, decide_eq_true_eq] at hp; omega
    refine ⟨_, State.runData_ok (write := Memory.copy) g1 g2 g3 g4, ?_, ?_, ?_⟩
    · simp only [State.packetDone, c1, c2]
    · simp only [State.packetDone, c1]
      intro x hx; exact Memory.read_copy_outside _ _ _ _ _ hx
    · simp only [State.packetDone, c1]
      intro k hk
      rw [Memory.read_copy _ _ _ _ _ hk]
      · have := hh (k+1) (by simp [SrcPacket.assemble]; exact hk)
        simp only [SrcPacket.assemble, List.getElem_cons_succ] at this
        rw [State.rleSrc]; simp only [SrcPacket.produced]; rw [← this]; congr 1; omega
      · simp only [SrcPacket.produced, SrcPacket.assemble, List.length_cons] at *
        unfold State.rleSrc
        omega
  | rpt c b =>
    simp only [spelledPacket] at c1 c2 g1 g2 g3 g4
    refine ⟨_, State.runData_ok (write := fun m src dst cnt => Memory.fill m (Memory.read m src) dst cnt) g1 g2 g3 g4, ?_, ?_, ?_⟩
    · simp only [State.packetDone, c1, c2]
    · simp only [State.packetDone, c1]
      intro x hx; rw [Memory.read_fill, if_neg (by omega)]
    · simp only [State.packetDone, c1]
      intro k hk
      rw [Memory.read_fill, if_pos (by omega)]
      have := hh 1 (by simp [SrcPacket.assemble])
      simp only [SrcPacket.assemble, List.getElem_cons_succ, List.getElem_cons_zero] at this
      rw [State.rleSrc, this]; simp [SrcPacket.produced]

/-- The loop of the body goes on from `s` to `t`. -/
def RleGoes (s t : State) : Prop := ∃ n, ∀ fuel, rleLoop (n + fuel) s = rleLoop fuel t
theorem RleGoes.refl (s : State) : RleGoes s s := ⟨0, fun f => by rw [Nat.zero_add]⟩
theorem RleGoes.trans {s t u : State} (h : RleGoes s t) (k : RleGoes t u) : RleGoes s u := by
  obtain ⟨n, hn⟩ := h
  obtain ⟨m, hm⟩ := k
  exact ⟨n + m, fun f => by rw [Nat.add_assoc, hn, hm]⟩
theorem RleGoes.turn {s t : State} (hp : s.phase = .stream) (h : s.streamTurn runPacket = .next t) : RleGoes s t :=
  ⟨1, fun f => by rw [Nat.add_comm, rleLoop, if_neg (by simp [hp]), h]⟩

/-- Bytes one after the other. -/
theorem Memory.holds_append {m : Memory} {a : Nat} {x y : List Byte} :
    Memory.Holds m a (x ++ y) ↔ Memory.Holds m a x ∧ Memory.Holds m (a + x.length) y := by
  constructor
  · intro h
    refine ⟨fun k hk => ?_, fun k hk => ?_⟩
    · rw [h k (by rw [List.length_append]; omega), List.getElem_append_left hk]
    · have := h (x.length + k) (by rw [List.length_append]; omega)
      rw [List.getElem_append_right (by omega)] at this
      rw [Nat.add_assoc, this]; simp
  · rintro ⟨h1, h2⟩ k hk
    by_cases h : k < x.length
    · rw [List.getElem_append_left h]; exact h1 k h
    · rw [List.getElem_append_right (by omega)]
      rw [List.length_append] at hk
      rw [← h2 (k - x.length) (by omega)]; congr 1; omega

theorem Memory.holds_of_same {m k : Memory} {a : Nat} {x : List Byte} (h : Memory.Holds m a x)
    (hs : ∀ y, a ≤ y → y < a + x.length → Memory.read k y = Memory.read m y) : Memory.Holds k a x :=
  fun i hi => (hs _ (by omega) (by omega)).trans (h i hi)

theorem SrcPacket_produced_pos {p : SrcPacket} (h : p.wf = true) (hn : p ≠ .nop) : 0 < p.produced.length := by
  cases p <;> simp_all [SrcPacket.produced, SrcPacket.wf] <;> omega

theorem producedBytes_cons (p : SrcPacket) (ps) : producedBytes (p :: ps) = p.produced ++ producedBytes ps := rfl
theorem streamBytes_cons (p : SrcPacket) (ps) : streamBytes (p :: ps) = p.assemble ++ streamBytes ps := rfl
theorem producedBytes_append (a b) : producedBytes (a ++ b) = producedBytes a ++ producedBytes b := by simp [producedBytes]
theorem streamBytes_append (a b) : streamBytes (a ++ b) = streamBytes a ++ streamBytes b := by simp [streamBytes]

/-- Packets that do not end in a no-op marker produce at least one byte. -/
theorem producedBytes_pos {ps : List SrcPacket} (hw : ∀ p ∈ ps, p.wf = true) (hn : ps ≠ []) (hl : ps.getLast? ≠ some .nop) :
    0 < (producedBytes ps).length := by
  have hm := List.getLast_mem hn
  have : ps.getLast hn ≠ .nop := by
    intro h; apply hl; rw [List.getLast?_eq_some_getLast hn, h]
  have := SrcPacket_produced_pos (hw _ hm) this
  have h2 := List.length_flatMap (f := SrcPacket.produced) (l := ps)
  unfold producedBytes
  rw [h2]
  have := List.single_le_sum (l := ps.map (fun a => a.produced.length)) (by simp) _ (List.mem_map.2 ⟨_, hm, rfl⟩)
  omega

/-- The destination of a packet that fits its row is apart from the source. -/
theorem State.StreamOk.apart {s : State} {d : Depth} (h : s.StreamOk d) (hr : s.cur.row < s.op.H) {n : Nat} (hn : s.cur.out + n ≤ s.cur.rb) (hn0 : 0 < n)
   {k : Nat} (hk : k < s.op.L) : s.op.S + k < s.rleDst ∨ s.rleDst + n ≤ s.op.S + k := by
  have := h.dst hr hn
  have f := (rleFits_iff.1 h.fits).2.2
  omega

/-- The packets of the rest of a row. -/
theorem State.StreamOk.row_goes {d : Depth} (ps : List SrcPacket) {s : State} (h : s.StreamOk d) (hp : s.phase = .stream) (hr : s.cur.row < s.op.H)
    (hw : ∀ p ∈ ps, p.wf = true) (hlen : s.cur.out + (producedBytes ps).length = s.cur.rb) (hl : ps.getLast? ≠ some .nop)
    (hsp : s.cur.sp + (streamBytes ps).length ≤ s.op.L) (hh : Memory.Holds s.mem (s.op.S + s.cur.sp) (streamBytes ps)) :
    ∃ t, RleGoes s t ∧ t = { s with mem := t.mem, cur := ⟨s.cur.sp + (streamBytes ps).length, s.cur.row, s.cur.rb, s.cur.rb⟩ } ∧
      Memory.SameOutside s.mem t.mem s.rleDst (producedBytes ps).length ∧ Memory.Holds t.mem s.rleDst (producedBytes ps) ∧ t.StreamOk d := by
  induction ps generalizing s with
  | nil =>
    simp [producedBytes] at hlen
    refine ⟨s, .refl s, ?_, .refl _ _ _, ?_, h⟩
    · simp only [streamBytes, List.flatMap_nil, List.length_nil, Nat.add_zero]
      conv => lhs; rw [show s = { s with cur := ⟨s.cur.sp, s.cur.row, s.cur.out, s.cur.rb⟩ } from rfl]
      rw [hlen]
    · intro k hk; simp [producedBytes] at hk
  | cons p ps ih =>
    have hpos := producedBytes_pos hw (by simp) hl
    rw [streamBytes_cons] at hh hsp
    rw [List.length_append] at hsp
    rw [producedBytes_cons, List.length_append] at hlen hpos
    obtain ⟨hh1, hh2⟩ := Memory.holds_append.1 hh
    obtain ⟨t, ht, hsh, hout, hhold⟩ := State.StreamOk.packet_turn h hr (by omega) p (hw p (by simp)) (by omega) (by omega) hh1
    have hcur : t.cur = ⟨s.cur.sp + p.assemble.length, s.cur.row, s.cur.out + p.produced.length, s.cur.rb⟩ := by rw [hsh]
    have hop : t.op = s.op := by rw [hsh]
    have hpar : t.params = s.params := by rw [hsh]
    have hok : t.StreamOk d := by
      refine ⟨?_, ?_, ?_, ?_, ?_, ?_⟩ <;> (try rw [hcur]) <;> (try rw [hop])
      · rw [hpar]; exact h.fits
      · exact h.rb
      · exact h.row
      · simp only; omega
      · simp only; omega
      · intro e; simp only at e; omega
    have hsame : Memory.Holds t.mem (s.op.S + s.cur.sp + p.assemble.length) (streamBytes ps) := by
      refine Memory.holds_of_same hh2 (fun y h1 h2 => hout y ?_)
      rcases Nat.eq_zero_or_pos p.produced.length with e | e
      · omega
      · have := State.StreamOk.apart h hr (n := p.produced.length) (by omega) e (k := y - s.op.S) (by omega)
        omega
    have hdst : t.rleDst = s.rleDst + p.produced.length := by
      unfold State.rleDst; rw [hop, hcur]; simp only; omega
    obtain ⟨u, hu, hush, huout, huhold, huok⟩ := ih hok (by rw [hsh]; exact hp) (by rw [hcur, hop]; exact hr) (fun q hq => hw q (by simp [hq]))
      (by rw [hcur]; simp only; omega) (by
        cases ps with
        | nil => simp
        | cons q qs => rw [List.getLast?_cons_cons] at hl; exact hl)
      (by rw [hcur, hop]; simp only; omega) (by rw [hop, hcur]; simp only; rw [← Nat.add_assoc]; exact hsame)
    rw [hdst] at huout huhold
    refine ⟨u, (RleGoes.turn hp ht).trans hu, ?_, ?_, ?_, huok⟩
    · rw [hush, hcur]
      rw [streamBytes_cons, List.length_append]
      rw [hsh]
      simp only [Nat.add_assoc]
    · rw [producedBytes_cons, List.length_append]
      intro x hx
      rw [huout x (by omega), hout x (by omega)]
    · rw [producedBytes_cons, Memory.holds_append]
      exact ⟨Memory.holds_of_same hhold (fun y h1 h2 => huout y (by omega)), huhold⟩

/-- Rows that the source spells. -/
theorem State.StreamOk.rows_go {d : Depth} (rows : List (List SrcPacket)) {s : State} (h : s.StreamOk d) (hp : s.phase = .stream)
    (hr : s.cur.row + rows.length = s.op.H) (h0 : s.cur.out = 0)
    (hw : ∀ ps ∈ rows, RowOf s.cur.rb ps) 
    (hsp : s.cur.sp + (streamBytes rows.flatten).length = s.op.L) (hh : Memory.Holds s.mem (s.op.S + s.cur.sp) (streamBytes rows.flatten)) :
    ∃ t, RleGoes s t ∧ t = { s with mem := t.mem, cur := ⟨s.op.L, s.op.H, 0, s.cur.rb⟩ } ∧
      Memory.SameOutside s.mem t.mem s.rleDst (producedBytes rows.flatten).length ∧ Memory.Holds t.mem s.rleDst (producedBytes rows.flatten) := by
  induction rows generalizing s with
  | nil =>
    simp [streamBytes] at hr hsp
    refine ⟨s, .refl s, ?_, .refl _ _ _, ?_⟩
    · conv => lhs; rw [show s = { s with cur := ⟨s.cur.sp, s.cur.row, s.cur.out, s.cur.rb⟩ } from rfl]
      rw [h0, hr, hsp]
    · intro k hk; simp [producedBytes] at hk
  | cons ps rows ih =>
    obtain ⟨w1, w2, w3⟩ := hw ps (by simp)
    rw [List.length_cons] at hr
    rw [List.flatten_cons, streamBytes_append] at hsp hh
    rw [List.length_append] at hsp
    obtain ⟨hh1, hh2⟩ := Memory.holds_append.1 hh
    obtain ⟨t, ht, hsh, hout, hhold, hok⟩ := State.StreamOk.row_goes ps h hp (by omega) w1 (by omega) w3 (by omega) hh1
    have hcur : t.cur = ⟨s.cur.sp + (streamBytes ps).length, s.cur.row, s.cur.rb, s.cur.rb⟩ := by rw [hsh]
    have hop : t.op = s.op := by rw [hsh]
    have hph : t.phase = .stream := by rw [hsh]; exact hp
    have htt : t.rleTurn = .rowEnd := by
      have : s.cur.row < s.op.H := by omega
      simp [State.rleTurn, hcur, hop, this]
    have hst : t.streamTurn runPacket = .next t.nextRow := by simp only [State.streamTurn, htt]
    have hok2 : t.nextRow.StreamOk d := by
      refine ⟨hok.fits, hok.rb, ?_, Nat.zero_le _, hok.sp, fun _ => rfl⟩
      simp only [State.nextRow, hcur, hop]; omega
    have hncur : t.nextRow.cur = ⟨s.cur.sp + (streamBytes ps).length, s.cur.row + 1, 0, s.cur.rb⟩ := by simp [State.nextRow, hcur]
    have hnop : t.nextRow.op = s.op := hop
    have hdst : t.nextRow.rleDst = s.rleDst + (producedBytes ps).length := by
      unfold State.rleDst; rw [hnop, hncur, w2, h0]; simp only [Nat.add_mul]; omega
    have hsame : Memory.Holds t.mem (s.op.S + s.cur.sp + (streamBytes ps).length) (streamBytes rows.flatten) := by
      refine Memory.holds_of_same hh2 (fun y h1 h2 => hout y ?_)
      rcases Nat.eq_zero_or_pos (producedBytes ps).length with e | e
      · omega
      · have := State.StreamOk.apart h (by omega) (n := (producedBytes ps).length) (by omega) e (k := y - s.op.S) (by omega)
        omega
    obtain ⟨u, hu, hush, huout, huhold⟩ := ih (s := t.nextRow) hok2 hph (by rw [hncur, hnop]; simp only; omega) (by rw [hncur])
      (by rw [hncur]; exact fun q hq => hw q (by simp [hq])) (by rw [hncur, hnop]; simp only; omega)
      (by rw [hncur, hnop]; simp only; rw [← Nat.add_assoc]; exact hsame)
    rw [hdst] at huout huhold
    refine ⟨u, (ht.trans (RleGoes.turn hph hst)).trans hu, ?_, ?_, ?_⟩
    · rw [hush, hncur, hnop]
      simp only [State.nextRow]
      rw [hsh]
    · rw [List.flatten_cons, producedBytes_append, List.length_append]
      intro x hx
      rw [huout x (by omega)]
      exact hout x (by omega)
    · rw [List.flatten_cons, producedBytes_append, Memory.holds_append]
      exact ⟨Memory.holds_of_same hhold (fun y h1 h2 => huout y (by omega)), huhold⟩

/-- An ended command makes no more turns. -/
theorem rleLoop_idle (f : Nat) {t : State} (h : t.phase = .idle) : rleLoop f t = .next t := by
  cases f with
  | zero => rfl
  | succ f => simp only [rleLoop, h]; rfl

/-- More fuel than a command needs changes nothing. -/
theorem rleLoop_more {f : Nat} {s t : State} (h : rleLoop f s = .next t) (hi : t.phase = .idle) (k : Nat) : rleLoop (f + k) s = .next t := by
  induction f generalizing s with
  | zero => simp only [rleLoop] at h; obtain rfl := Host.Outcome.next.inj h; exact rleLoop_idle _ hi
  | succ f ih =>
    rw [Nat.add_right_comm, rleLoop]
    rw [rleLoop] at h
    split
    · next hp => rw [if_pos hp] at h; exact h
    · next hp =>
      rw [if_neg hp] at h
      split
      · next u hu => rw [hu] at h; exact ih h
      · next r hr => rw [hr] at h; exact h
      · next r hr => rw [hr] at h; exact h

/-- The packet, data bytes and all, that stands at an address. -/
def packetAt (m : Memory) (a : Nat) : SrcPacket :=
  match decodePacket (Memory.read m a) with
  | .nop => .nop
  | .lit c => .lit ((List.range (c.toNat + 1)).map (fun k => Memory.read m (a + 1 + k)))
  | .rpt c => .rpt (129 - c.toNat) (Memory.read m (a + 1))

/-- Whether a packet kind and count are those of header byte `n`. -/
def headerFits (n : Nat) : Packet → Bool
  | .nop => decide (n = 128)
  | .lit c => decide (c.toNat = n)
  | .rpt c => decide (c.toNat ≠ 0 ∧ 257 - (129 - c.toNat) = n)

theorem headerFits_decodePacket : ∀ n < 256, headerFits n (decodePacket (BitVec.ofNat 8 n)) = true := by decide +kernel

/-- What stands at an address is the assembled form of a well-formed packet. -/
theorem packetAt_spec (m : Memory) (a : Nat) : (packetAt m a).wf = true ∧ spelledPacket (packetAt m a) = decodePacket (Memory.read m a) ∧
    Memory.Holds m a (packetAt m a).assemble := by
  have key := headerFits_decodePacket (Memory.read m a).toNat (Memory.read m a).isLt
  rw [BitVec.ofNat_toNat, BitVec.setWidth_eq] at key
  have hm : Memory.read m a = BitVec.ofNat 8 (Memory.read m a).toNat := by simp
  unfold packetAt
  cases h : decodePacket (Memory.read m a) with
  | nop =>
    rw [h] at key
    simp only [headerFits, decide_eq_true_eq] at key
    refine ⟨rfl, rfl, ?_⟩
    intro k hk
    simp only [SrcPacket.assemble, List.length_cons, List.length_nil] at hk
    obtain rfl : k = 0 := by omega
    rw [Nat.add_zero, hm, key]; rfl
  | lit c =>
    rw [h] at key
    simp only [headerFits, decide_eq_true_eq] at key
    have hc : c.toNat < 128 := c.isLt
    refine ⟨?_, ?_, ?_⟩
    · simp [SrcPacket.wf]; omega
    · simp [spelledPacket]
    · intro k hk
      cases k with
      | zero => 
        simp only [SrcPacket.assemble, List.length_map, List.length_range, List.getElem_cons_zero, Nat.add_zero]
        conv => lhs; rw [hm, ← key]
        simp
      | succ k => 
        simp only [SrcPacket.assemble, List.getElem_cons_succ, List.getElem_map, List.getElem_range]
        congr 1; omega
  | rpt c =>
    rw [h] at key
    simp only [headerFits, decide_eq_true_eq] at key
    have hc : c.toNat < 128 := c.isLt
    refine ⟨?_, ?_, ?_⟩
    · simp [SrcPacket.wf]; omega
    · simp only [spelledPacket, Packet.rpt.injEq]
      apply BitVec.eq_of_toNat_eq
      simp only [BitVec.toNat_ofNat]; omega
    · intro k hk
      simp only [SrcPacket.assemble, List.length_cons, List.length_nil] at hk
      have : k = 0 ∨ k = 1 := by omega
      rcases this with rfl | rfl
      · simp only [SrcPacket.assemble, List.getElem_cons_zero, Nat.add_zero]
        rw [key.2]; exact hm
      · simp [SrcPacket.assemble]

theorem State.rleRaise_errv {s : State} (hb : s.breach = false) (k r p) : (s.rleRaise k r p).errv = true := by
  simp only [State.rleRaise, Ending.raise]
  rw [State.endRle_error_of_no_breach _ _ _ _ hb]; rfl

end Sys2Proof.Machine
end

