-- ==== Sys2Proof/Tests/Slice0.lean ====
section
/-! SUPPORT. The model's own tests. Expected values come from spec/95_test_vectors.md (the vector is named) or from the
rule named; the last part gives every statement with hypotheses a state and operands that meet them. -/

namespace Sys2Proof.Machine.Tests

-- One after the other: side by side the evaluations ask for more threads than a small machine gives.
set_option Elab.async false

/-! ### Helpers -/

/-- Memory with the given bytes from `a` upward. -/
def bytesAt : Nat → List Byte → Memory
  | _, [] => []
  | a, b :: bs => Memory.write (bytesAt (a + 1) bs) a b

/-- `MEMSIZE = 0x10000`, two lanes. -/
def params : Params := { defaultParams with lanes := 2 }

/-- A block that has just accepted a command: its word, `B`, `W`, `H`, `S`, `L`, and memory. -/
def ready (w : Word) (b wd h s l : Word) (m : Memory) : State :=
  { State.resetWith params m with cmd := w, op := ⟨w, b, wd, h, s, l⟩, phase := .start }

/-- An in-place command on bytes at 0x1000. -/
def onBuffer (w wd h : Word) (bs : List Byte) : State := ready w 0x1000#32 wd h 0#32 0#32 (bytesAt 0x1000 bs)

/-- An `RLEDEC` whose source bytes stand at 0x2000 and whose destination is at 0x1000. -/
def onStream (w wd h : Word) (bs : List Byte) : State :=
  ready w 0x1000#32 wd h 0x2000#32 (BitVec.ofNat 32 bs.length) (bytesAt 0x2000 bs)

/-- The same `RLEDEC.8` in its body, at stream offset `sp`, row `row`, with `out` bytes produced. -/
def inStream (wd h : Word) (bs : List Byte) (sp row out : Nat) : State :=
  { onStream 0x00000011#32 wd h bs with phase := .stream, cur := ⟨sp, row, out, wd.toNat⟩ }

/-- An idle block with a host move to come. -/
def hostState (e : Event) : State := { State.resetWith params [] with inputs := [e] }

/-- Whether an answer is a next state with a property. -/
def nextHas (r : Answer State) (q : State → Bool) : Bool :=
  match r with
  | .next t => q t
  | .fault _ => false
  | .refused _ => false

theorem exists_next {r : Answer State} {q : State → Bool} (h : nextHas r q = true) : ∃ t, r = .next t ∧ q t = true := by
  cases r with
  | next t => exact ⟨t, rfl, h⟩
  | fault => simp [nextHas] at h
  | refused => simp [nextHas] at h

/-- One step ends the command with this `STATUS` and these bytes from 0x1000 upward. -/
def endsWith (s : State) (status : Word) (bs : List Byte) : Bool :=
  nextHas (step s) (fun t =>
    decide (t.statusWord = status) &&
      (List.range bs.length).all (fun k => decide (some (Memory.read t.mem (0x1000 + k)) = bs[k]?)))

/-- One step ends the command with this `STATUS`, `EROW` and `EPOS`. -/
def failsWith (s : State) (status erow epos : Word) : Bool :=
  nextHas (step s) (fun t => decide (t.statusWord = status ∧ t.erow = erow ∧ t.epos = epos))

/-! ### Well-formedness: each check refuses an ill-formed term -/

theorem test_wf_rpt_zero_refused : (Instr.rpt 0#7).wf = false ∧ (Instr.rpt 1#7).wf = true := by decide

theorem test_wf_lit_lengths : (SrcPacket.lit []).wf = false ∧
    (SrcPacket.lit (List.replicate 129 0#8)).wf = false ∧ (SrcPacket.lit (List.replicate 128 0#8)).wf = true := by
  decide +kernel

theorem test_wf_rpt_counts : (SrcPacket.rpt 1 0#8).wf = false ∧ (SrcPacket.rpt 129 0#8).wf = false ∧
    (SrcPacket.rpt 2 0#8).wf = true ∧ (SrcPacket.rpt 128 0#8).wf = true := by decide

theorem test_wf_plane_order : (PlaneOrder.mk 0 1 1 3).wf = false ∧ (PlaneOrder.mk 3 2 1 0).wf = true := by decide

theorem test_wf_params : ({ defaultParams with lanes := 0 } : Params).wf = false ∧
    ({ defaultParams with memSize := 0 } : Params).wf = false ∧
    ({ defaultParams with memSize := 2 ^ 32 + 1 } : Params).wf = false ∧ defaultParams.wf = true := by decide

theorem test_wf_memory : Memory.wf [(1, 1#8), (1, 2#8)] = false ∧ Memory.wf [(2, 1#8), (1, 2#8)] = false ∧
    Memory.wf [(1, 0#8)] = false ∧ Memory.wf [(1, 1#8), (2, 2#8)] = true ∧ Memory.wf State.reset.mem = true := by decide

/-! ### Decoding: words written out from the maps of R82 and R88 -/

-- OPC in bits 3:0 (1 RLEDEC, 2 SWAP, 3 UNPRED, 4 PRED), DSEL in bits 5:4 (0, 1, 2, 3 for depth 1, 8, 16, 32).
theorem test_decode_rledec : decodeTableWord 32 0b000001 = some .rledec1 ∧ decodeTableWord 32 0b010001 = some .rledec8 ∧
    decodeTableWord 32 0b100001 = some .rledec16 ∧ decodeTableWord 32 0b110001 = some .rledec32 := by decide

theorem test_decode_swap : decodeTableWord 32 0b000010 = some .swap1 ∧ decodeTableWord 32 0b010010 = some .swap8 ∧
    decodeTableWord 32 0b100010 = some .swap16 ∧ decodeTableWord 32 0b110010 = some .swap32 := by decide

theorem test_decode_unpred : decodeTableWord 32 0b000011 = some .unpred1 ∧ decodeTableWord 32 0b010011 = some .unpred8 ∧
    decodeTableWord 32 0b100011 = some .unpred16 ∧ decodeTableWord 32 0b110011 = some .unpred32 := by decide

theorem test_decode_pred : decodeTableWord 32 0b000100 = some .pred1 ∧ decodeTableWord 32 0b010100 = some .pred8 ∧
    decodeTableWord 32 0b100100 = some .pred16 ∧ decodeTableWord 32 0b110100 = some .pred32 := by decide

-- K in bit 7, C7 in bits 6:0; 0x80 is the no-op marker.
theorem test_decode_packets : decodeTableWord 8 0b10000000 = some .nop ∧
    decodeTableWord 8 0b00000000 = some (.lit 0#7) ∧ decodeTableWord 8 0b01111111 = some (.lit 127#7) ∧
    decodeTableWord 8 0b10000001 = some (.rpt 1#7) ∧ decodeTableWord 8 0b11111111 = some (.rpt 127#7) := by decide

-- R84: RSV != 0, OPC = 0, OPC >= 5.
theorem test_decode_reserved : decodeTableWord 32 0x40 = none ∧ decodeTableWord 32 0x80000011 = none ∧
    decodeTableWord 32 0x10 = none ∧ decodeTableWord 32 0x35 = none ∧ decodeTableWord 32 0x1F = none := by decide

-- R87: produced bytes; the example headers of 95_test_vectors.md part 1.
theorem test_packet_counts : packetCount (decodePacket 0x02#8) = 3 ∧ packetCount (decodePacket 0xFD#8) = 4 ∧
    packetCount (decodePacket 0x80#8) = 0 ∧ packetCount (decodePacket 0x7F#8) = 128 ∧
    packetCount (decodePacket 0x81#8) = 128 := by decide

-- R93: the packets of V-R1 as the assembler spells them.
theorem test_assemble : streamBytes [.lit [0xAA#8, 0xBB#8, 0xCC#8], .rpt 2 0x11#8, .nop, .rpt 4 0x00#8, .lit [0x7F#8]] =
    [0x02#8, 0xAA#8, 0xBB#8, 0xCC#8, 0xFF#8, 0x11#8, 0x80#8, 0xFD#8, 0x00#8, 0x00#8, 0x7F#8] := by decide

/-! ### Running what the host places -/

theorem test_place_command : nextHas (step (State.reset.withFetchWord 32 0x12)) (fun t => decide (t.statusWord = 2#32)) =
    true := by decide +kernel

theorem test_place_lit : nextHas (step (State.reset.withFetchWord 8 0x7F)) (fun t => decide (t.cur = ⟨129, 0, 128, 128⟩)) =
    true := by decide +kernel

theorem test_place_rpt : nextHas (step (State.reset.withFetchWord 8 0x81)) (fun t => decide (t.cur = ⟨2, 0, 128, 128⟩)) =
    true := by decide +kernel

theorem test_place_nop : nextHas (step (State.reset.withFetchWord 8 0x80)) (fun t => decide (t.cur = ⟨1, 0, 0, 128⟩)) =
    true := by decide +kernel

/-! ### One step of each instruction -/

-- V-R25
theorem test_rledec1 : endsWith (onStream 0x01#32 9#32 2#32 [0xFF#8, 0xF0#8, 0x01#8, 0x0F#8, 0x3C#8]) 2#32
    [0xF0#8, 0xF0#8, 0x0F#8, 0x3C#8] = true := by decide +kernel

-- V-R1
theorem test_rledec8 : endsWith (onStream 0x11#32 5#32 2#32
      [0x02#8, 0xAA#8, 0xBB#8, 0xCC#8, 0xFF#8, 0x11#8, 0x80#8, 0xFD#8, 0x00#8, 0x00#8, 0x7F#8]) 2#32
    [0xAA#8, 0xBB#8, 0xCC#8, 0x11#8, 0x11#8, 0x00#8, 0x00#8, 0x00#8, 0x00#8, 0x7F#8] = true := by decide +kernel

-- V-R17: the row test comes before the source test
theorem test_rledec8_row_test_first : failsWith (onStream 0x11#32 3#32 1#32 [0x05#8, 0x01#8, 0x02#8]) 0x16#32 0#32 0#32 =
    true := by decide +kernel

-- V-R21
theorem test_rledec16 : endsWith (onStream 0x21#32 2#32 2#32
      [0x03#8, 0x12#8, 0x34#8, 0x56#8, 0x78#8, 0xFD#8, 0xAB#8]) 2#32
    [0x12#8, 0x34#8, 0x56#8, 0x78#8, 0xAB#8, 0xAB#8, 0xAB#8, 0xAB#8] = true := by decide +kernel

-- V-R23, with 0x5A for 0x00 and a guard byte
theorem test_rledec32 : endsWith (onStream 0x31#32 2#32 1#32 [0xF9#8, 0x5A#8]) 2#32
    [0x5A#8, 0x5A#8, 0x5A#8, 0x5A#8, 0x5A#8, 0x5A#8, 0x5A#8, 0x5A#8, 0x00#8] = true := by decide +kernel

-- V-R13: a left-over byte, EROW = H
theorem test_rledec8_left_over : failsWith (onStream 0x11#32 3#32 1#32 [0x02#8, 0x01#8, 0x02#8, 0x03#8, 0x80#8])
    0x16#32 1#32 4#32 = true := by decide +kernel

-- V-R15: a literal cut off by the source end
theorem test_lit_cut_off : failsWith (inStream 3#32 1#32 [0x02#8, 0x01#8, 0x02#8] 0 0 0) 0x26#32 0#32 0#32 =
    true := by decide +kernel

-- V-R12, at row 1: the source is used up between packets
theorem test_source_used_up : failsWith (inStream 3#32 2#32 [0x02#8, 0x01#8, 0x02#8, 0x03#8] 4 1 0) 0x16#32 1#32 4#32 =
    true := by decide +kernel

-- V-S6
theorem test_swap1 : endsWith (onBuffer 0x02#32 9#32 2#32 [0xF0#8, 0xF0#8, 0x0F#8, 0x3C#8]) 2#32
    [0xF0#8, 0xF0#8, 0x0F#8, 0x3C#8] = true := by decide +kernel

-- V-S5
theorem test_swap8 : endsWith (onBuffer 0x12#32 4#32 1#32 [0x01#8, 0x02#8, 0x03#8, 0x04#8]) 2#32
    [0x01#8, 0x02#8, 0x03#8, 0x04#8] = true := by decide +kernel

-- V-C11: a pass-through still checks
theorem test_swap8_range : failsWith (ready 0x12#32 0xFFFF#32 2#32 1#32 0#32 0#32 []) 0x46#32 0#32 0#32 = true := by
  decide +kernel

-- V-S2
theorem test_swap16 : endsWith (onBuffer 0x22#32 2#32 2#32 [0#8, 1#8, 2#8, 3#8, 4#8, 5#8, 6#8, 7#8]) 2#32
    [1#8, 0#8, 3#8, 2#8, 5#8, 4#8, 7#8, 6#8] = true := by decide +kernel

-- V-C9, V-C10: the last two bytes of memory, and one further
theorem test_swap16_edge : failsWith (ready 0x22#32 0xFFFE#32 1#32 1#32 0#32 0#32 []) 2#32 0#32 0#32 = true ∧
    failsWith (ready 0x22#32 0xFFFF#32 1#32 1#32 0#32 0#32 []) 0x46#32 0#32 0#32 = true := by decide +kernel

-- V-S3
theorem test_swap32 : endsWith (onBuffer 0x32#32 2#32 1#32 [0x3F#8, 0x80#8, 0#8, 0#8, 1#8, 2#8, 3#8, 4#8]) 2#32
    [0#8, 0#8, 0x80#8, 0x3F#8, 4#8, 3#8, 2#8, 1#8] = true := by decide +kernel

-- V-C7
theorem test_unpred1 : failsWith (ready 0x03#32 0xFFFF#32 0xFFFFFFFF#32 0xFFFFFFFF#32 0#32 0#32 []) 0x36#32 0#32 0#32 =
    true := by decide +kernel

-- V-P1
theorem test_unpred8 : endsWith (onBuffer 0x13#32 4#32 1#32 [0x0A#8, 0x02#8, 0xFD#8, 0x00#8]) 2#32
    [0x0A#8, 0x0C#8, 0x09#8, 0x09#8] = true := by decide +kernel

-- V-P6, with its upper guard byte: no carry across rows
theorem test_unpred8_rows : endsWith (onBuffer 0x13#32 3#32 2#32 [0xFF#8, 1#8, 1#8, 5#8, 0xFB#8, 0#8, 0x22#8]) 2#32
    [0xFF#8, 0#8, 1#8, 5#8, 0#8, 0#8, 0x22#8] = true := by decide +kernel

-- V-P8
theorem test_unpred16 : endsWith (onBuffer 0x23#32 3#32 2#32
      [0xFF#8, 0xFF#8, 0x02#8, 0x00#8, 0xFF#8, 0xFF#8, 0x00#8, 0x80#8, 0x00#8, 0x80#8, 0x01#8, 0x00#8]) 2#32
    [0xFF#8, 0xFF#8, 0x01#8, 0x00#8, 0x00#8, 0x00#8, 0x00#8, 0x80#8, 0x00#8, 0x00#8, 0x01#8, 0x00#8] = true := by
  decide +kernel

-- V-P12
theorem test_unpred32 : endsWith (onBuffer 0x33#32 3#32 1#32
      [0x10#8, 0xF0#8, 0x20#8, 0x01#8, 0x01#8, 0x01#8, 0xFF#8, 0x02#8, 0xFF#8, 0x00#8, 0x80#8, 0x80#8]) 2#32
    [0x10#8, 0x01#8, 0xFF#8, 0x00#8, 0x00#8, 0x02#8, 0x01#8, 0x80#8, 0x20#8, 0x03#8, 0x00#8, 0x00#8] = true := by
  decide +kernel

-- V-P13 and V-P14: PLANE_CARRY, and the reversed PLANE_ORDER
theorem test_unpred32_params :
    let s := onBuffer 0x33#32 3#32 1#32
      [0x10#8, 0xF0#8, 0x20#8, 0x01#8, 0x01#8, 0x01#8, 0xFF#8, 0x02#8, 0xFF#8, 0x00#8, 0x80#8, 0x80#8]
    endsWith { s with params := { params with planeCarry := true } } 2#32
      [0x10#8, 0x21#8, 0x22#8, 0x23#8, 0x00#8, 0x22#8, 0x24#8, 0xA3#8, 0x20#8, 0x23#8, 0x23#8, 0x23#8] = true ∧
    endsWith { s with params := { params with planeOrder := ⟨3, 2, 1, 0⟩ } } 2#32
      [0x00#8, 0xFF#8, 0x01#8, 0x10#8, 0x80#8, 0x01#8, 0x02#8, 0x00#8, 0x00#8, 0x00#8, 0x03#8, 0x20#8] = true := by
  decide +kernel

-- V-C8
theorem test_pred1 : failsWith (ready 0x04#32 0#32 0#32 0#32 0#32 0#32 []) 0x36#32 0#32 0#32 = true := by decide +kernel

-- V-P5
theorem test_pred8 : endsWith (onBuffer 0x14#32 3#32 2#32 [0xFF#8, 0#8, 1#8, 5#8, 0#8, 0#8]) 2#32
    [0xFF#8, 1#8, 1#8, 5#8, 0xFB#8, 0#8] = true := by decide +kernel

-- V-P8 read backwards
theorem test_pred16 : endsWith (onBuffer 0x24#32 3#32 2#32
      [0xFF#8, 0xFF#8, 0x01#8, 0x00#8, 0x00#8, 0x00#8, 0x00#8, 0x80#8, 0x00#8, 0x00#8, 0x01#8, 0x00#8]) 2#32
    [0xFF#8, 0xFF#8, 0x02#8, 0x00#8, 0xFF#8, 0xFF#8, 0x00#8, 0x80#8, 0x00#8, 0x80#8, 0x01#8, 0x00#8] = true := by
  decide +kernel

-- V-P11
theorem test_pred32 : endsWith (onBuffer 0x34#32 2#32 1#32 [0x3F#8, 0x80#8, 0#8, 0#8, 0x40#8, 0#8, 0#8, 0#8]) 2#32
    [0x3F#8, 0x01#8, 0x80#8, 0x80#8, 0#8, 0#8, 0#8, 0#8] = true := by decide +kernel

/-! ### The register window -/

/-- A block whose last command failed with `MalformedChannelData`, with a register access to come. -/
def failed (e : Event) : State := { hostState e with done := true, errv := true, ecode := 1#4, cmd := 0x11#32 }

-- V-C18
theorem test_command_rejected : nextHas (step (failed (.wr 0x00 4 0x12#32)))
    (fun t => decide (t.statusWord = 0x1E#32 ∧ t.cmd = 0x11#32)) = true := by decide +kernel

-- V-C20, then the other bits
theorem test_status_clears : nextHas (step (failed (.wr 0x04 4 0x2#32))) (fun t => decide (t.statusWord = 0x14#32)) = true ∧
    nextHas (step (failed (.wr 0x04 4 0x6#32))) (fun t => decide (t.statusWord = 0#32)) = true := by decide +kernel

-- R120: ERRV cannot be cleared while BUSY = 1 (the state is no state of a run, the bit is what is tested)
theorem test_status_busy : nextHas (step { failed (.wr 0x04 4 0x4#32) with phase := .start })
    (fun t => decide (t.statusWord = 0x17#32)) = true := by decide +kernel

-- V-C24
theorem test_reserved_offset : nextHas (step (hostState (.rd 0x28 4))) (fun t => decide (t.reply = .word 0#32)) = true ∧
    nextHas (step (hostState (.wr 0x20 4 5#32))) (fun t => decide (t.erow = 0#32)) = true := by decide +kernel

-- R94: the expansion of ZIPPRED.32, 90_conflicts.md C1
theorem test_expansion : pseudoCommands (.zipPred .d32) = [.unpred32, .swap32] ∧
    commandWord .unpred32 = 0x33#32 ∧ commandWord .swap32 = 0x32#32 := by decide

/-! ### Witnesses: for every statement with hypotheses, values that meet them all, at the ends of each clause's range -/

theorem witness_HeaderFixesThePacket :
    (0x00#8).toInt = 0 ∧ (0x7F#8).toInt = 127 ∧ (0x80#8).toInt = -128 ∧ (0x81#8).toInt = -127 ∧ (0xFF#8).toInt = -1 := by
  decide

theorem witness_StepRunsTheDecodedInstruction_command :
    ∃ s : State, s.inputs = [] ∧ s.phase = .start ∧ decodeCommand s.op.word = .ok .pred32 :=
  ⟨onBuffer 0x34#32 1#32 1#32 [], rfl, rfl, by decide⟩

theorem witness_StepRunsTheDecodedInstruction_packet :
    ∃ s : State, s.inputs = [] ∧ s.phase = .stream ∧ s.cur.row < s.op.H ∧ s.cur.out < s.cur.rb ∧ s.cur.sp < s.op.L ∧
      s.op.S + s.cur.sp < s.params.memSize ∧
      decodePacket (Memory.read s.mem (s.op.S + s.cur.sp)) = .rpt 0x7F#7 :=
  ⟨inStream 2#32 1#32 [0xFF#8, 0x42#8] 0 0 0, rfl, rfl, by decide +kernel⟩

theorem witness_ReservedWordEndsUnsupported :
    ∃ s : State, s.inputs = [] ∧ s.phase = .start ∧ s.breach = false ∧ decodeCommand s.op.word = .error .reservedOpc :=
  ⟨onBuffer 0x05#32 1#32 1#32 [], rfl, rfl, rfl, by decide⟩

theorem witness_StreamTurnsBetweenPackets_row_end :
    ∃ s : State, s.inputs = [] ∧ s.phase = .stream ∧ s.breach = false ∧ s.cur.row < s.op.H ∧ s.cur.rb ≤ s.cur.out :=
  ⟨inStream 2#32 1#32 [0xFF#8, 0x42#8] 2 0 2, rfl, rfl, rfl, by decide⟩

theorem witness_StreamTurnsBetweenPackets_source_used_up :
    ∃ s : State, s.inputs = [] ∧ s.phase = .stream ∧ s.breach = false ∧ s.cur.row < s.op.H ∧ s.cur.out < s.cur.rb ∧
      s.op.L ≤ s.cur.sp :=
  ⟨inStream 3#32 1#32 [0xFF#8, 0x42#8] 2 0 2, rfl, rfl, rfl, by decide⟩

theorem witness_StreamTurnsBetweenPackets_success :
    ∃ s : State, s.inputs = [] ∧ s.phase = .stream ∧ s.breach = false ∧ s.op.H ≤ s.cur.row ∧ s.cur.sp = s.op.L :=
  ⟨inStream 2#32 1#32 [0xFF#8, 0x42#8] 2 1 0, rfl, rfl, rfl, by decide⟩

theorem witness_StreamTurnsBetweenPackets_left_over :
    ∃ s : State, s.inputs = [] ∧ s.phase = .stream ∧ s.breach = false ∧ s.op.H ≤ s.cur.row ∧ s.cur.sp ≠ s.op.L :=
  ⟨inStream 2#32 1#32 [0xFF#8, 0x42#8, 0x80#8] 2 1 0, rfl, rfl, rfl, by decide⟩

theorem witness_RstGivesTheResetState : ∃ (s : State) (rest : List Event), s.inputs = .rst :: rest ∧ s.phase ≠ .idle ∧
    (∀ g ∈ s.op.regions, g.written = true → g.contains 0x0FFF = false) ∧
    (∃ g ∈ s.op.regions, g.written = true ∧ g.contains 0x1000 = true) :=
  ⟨{ onBuffer 0x13#32 4#32 1#32 [] with inputs := [.rst] }, [], rfl, by decide, by decide +kernel, by decide +kernel⟩

theorem witness_RegisterReadChangesNothing : ∃ (s : State) (rest : List Event), s.inputs = .rd 0x04 4 :: rest ∧
    0x04 % 4 = 0 ∧ s.phase = .idle :=
  ⟨hostState (.rd 0x04 4), [], rfl, rfl, rfl⟩

theorem witness_RegisterReadChangesNothing_other : ∃ (s : State) (rest : List Event), s.inputs = .rd 0xFFFC 4 :: rest ∧
    0xFFFC % 4 = 0 ∧ s.phase ≠ .idle :=
  ⟨{ hostState (.rd 0xFFFC 4) with phase := .start }, [], rfl, rfl, by decide⟩

theorem witness_RegisterWrites : ∀ off ∈ [0x08, 0x0C, 0x10, 0x14, 0x18, 0x1C],
    ∃ (s : State) (rest : List Event) (v : Word), s.inputs = .wr off 4 v :: rest :=
  fun off _ => ⟨hostState (.wr off 4 7#32), [], 7#32, rfl⟩

theorem witness_ReadOnlyAndReservedOffsets : ∀ off ∈ [0x20, 0x24, 0x28, 0xFFFC],
    off % 4 = 0 ∧ 0x20 ≤ off ∧ ∃ (s : State) (rest : List Event) (v : Word), s.inputs = .wr off 4 v :: rest := by
  intro off h
  refine ⟨?_, ?_, hostState (.wr off 4 7#32), [], 7#32, rfl⟩ <;> (revert h; revert off; decide)

theorem witness_NarrowAccessIsRefused_size : ∃ (s : State) (rest : List Event), (2 ≠ 4 ∨ 0 % 4 ≠ 0) ∧
    s.inputs = .rd 0 2 :: rest :=
  ⟨hostState (.rd 0 2), [], by decide, rfl⟩

theorem witness_NarrowAccessIsRefused_offset : ∃ (s : State) (rest : List Event) (v : Word), (4 ≠ 4 ∨ 2 % 4 ≠ 0) ∧
    s.inputs = .wr 2 4 v :: rest :=
  ⟨hostState (.wr 2 4 1#32), [], 1#32, by decide, rfl⟩

theorem witness_CommandWriteAccepted : ∃ (s : State) (rest : List Event) (v : Word), s.inputs = .wr 0x00 4 v :: rest ∧
    s.phase = .idle ∧ s.errv = false :=
  ⟨hostState (.wr 0x00 4 0#32), [], 0#32, rfl, rfl, rfl⟩

/-- Every clause: a word that spells nothing, and one whose command has a source, a destination and a byte of neither. -/
theorem witness_CommandWriteAccepted_claims : decodeCommand 0#32 = .error .reservedOpc ∧
    decodeCommand 0x11#32 = .ok (.rledec .d8) ∧
    ∃ o : Op, o = ⟨0x11#32, 0x10#32, 2#32, 2#32, 0x20#32, 3#32⟩ ∧ o.B + writtenBytes o (.rledec .d8) = 0x14 ∧
      (⟨o.regions⟩ : Claim).writes 0x13 = true ∧ (⟨o.regions⟩ : Claim).contains 0x14 = false ∧
      (⟨o.regions⟩ : Claim).writes 0x22 = false ∧ (⟨o.regions⟩ : Claim).contains 0x22 = true ∧
      (⟨o.regions⟩ : Claim).contains 0x23 = false :=
  ⟨by decide, by decide, _, rfl, by decide +kernel⟩

theorem witness_CommandWriteRejected_busy : ∃ (s : State) (rest : List Event) (v : Word),
    s.inputs = .wr 0x00 4 v :: rest ∧ (s.phase ≠ .idle ∨ s.errv = true) :=
  ⟨{ hostState (.wr 0x00 4 0x13#32) with phase := .start }, [], 0x13#32, rfl, by decide⟩

theorem witness_CommandWriteRejected_error : ∃ (s : State) (rest : List Event) (v : Word),
    s.inputs = .wr 0x00 4 v :: rest ∧ s.phase = .idle ∧ (s.phase ≠ .idle ∨ s.errv = true) :=
  ⟨failed (.wr 0x00 4 0x11#32), [], 0x11#32, rfl, rfl, by decide⟩

theorem witness_StatusWriteClears : ∃ (s : State) (rest : List Event) (v : Word), s.inputs = .wr 0x04 4 v :: rest ∧
    v.getLsbD 2 = true ∧ s.phase = .idle ∧ s.errv = true :=
  ⟨failed (.wr 0x04 4 0xE#32), [], 0xE#32, rfl, by decide, rfl, rfl⟩

theorem witness_IrqRisesOnlyByCompletionOrEnable_completion :
    ∃ s t : State, step s = .next t ∧ s.irq = false ∧ t.irq = true ∧ s.busy = true := by
  obtain ⟨t, h, q⟩ := exists_next (r := step { onBuffer 0x12#32 1#32 1#32 [] with ie := true })
    (q := fun t => t.irq) (by decide +kernel)
  exact ⟨_, t, h, by decide, q, by decide⟩

theorem witness_IrqRisesOnlyByCompletionOrEnable_enable :
    ∃ s t : State, step s = .next t ∧ s.irq = false ∧ t.irq = true ∧ s.busy = false := by
  obtain ⟨t, h, q⟩ := exists_next (r := step { hostState (.wr 0x08 4 1#32) with done := true })
    (q := fun t => t.irq) (by decide +kernel)
  exact ⟨_, t, h, by decide, q, by decide⟩

theorem witness_IrqRisesOnlyByCompletionOrEnable_look : ∃ (s : State) (rest : List Event), s.inputs = .irq :: rest ∧
    s.ie = true ∧ s.done = true ∧ s.phase = .idle :=
  ⟨{ hostState .irq with ie := true, done := true }, [], rfl, rfl, rfl, rfl⟩

theorem witness_HostMemoryAccess : ∃ (s : State) (rest : List Event), 0xFFFF < s.params.memSize ∧
    s.owns 0xFFFF = false ∧ s.inputs = .memWr 0xFFFF 1#8 :: rest :=
  ⟨hostState (.memWr 0xFFFF 1#8), [], by decide, by decide, rfl⟩

theorem witness_HostMemoryAccess_read : ∃ (s : State) (rest : List Event), 0 < s.params.memSize ∧
    s.owns 0 = false ∧ s.inputs = .memRd 0 :: rest :=
  ⟨hostState (.memRd 0), [], by decide, by decide, rfl⟩

/-- `UNPRED.8` on `[0x1000, 0x1004)` runs, after an unobserved `RLEDEC.8` from `[0x1004, 0x1008)` to `[0x0FFE, 0x1002)`;
the host writes byte `a`. -/
def twoClaims (a : Nat) : State :=
  { onBuffer 0x13#32 4#32 1#32 [] with
    inputs := [.memWr a 1#8]
    owned := [⟨[⟨0x1004, 4, false⟩, ⟨0x0FFE, 4, true⟩]⟩, ⟨[⟨0x1000, 4, true⟩]⟩] }

/-- The byte belongs to the command that is over: that one is hit, the running one is not. -/
theorem witness_OwnedWriteStaysInsideTheRegions_over : ∃ (s : State) (before after : List Claim) (c : Claim),
    s.inputs = .memWr 0x1004 1#8 :: [] ∧ 0x1004 < s.params.memSize ∧ s.owns 0x1004 = true ∧
    (∀ d ∈ s.owned, d.contains 0x1004 = true → d.writes 0x1004 = false) ∧
    (0x1005 ≠ 0x1004 ∧ ∀ d ∈ s.owned, d.contains 0x1004 = true → d.writes 0x1005 = false) ∧
    s.owned = before ++ c :: after ∧ c.contains 0x1004 = false ∧ c.contains 0x1001 = true ∧
    (∀ d ∈ after, d.contains 0x1004 = true → d.writes 0x1001 = false) :=
  ⟨twoClaims 0x1004, [_], [], ⟨[⟨0x1000, 4, true⟩]⟩, rfl, by decide, by decide, by decide, by decide, rfl, by decide,
    by decide, by decide⟩

/-- The byte belongs to the running command alone: the one that is over keeps the bytes the running one does not write. -/
theorem witness_OwnedWriteStaysInsideTheRegions_running : ∃ (s : State) (before after : List Claim) (c : Claim),
    s.inputs = .memWr 0x1003 1#8 :: [] ∧ 0x1003 < s.params.memSize ∧ s.owns 0x1003 = true ∧
    s.owned = before ++ c :: after ∧ c.contains 0x1003 = false ∧ c.contains 0x0FFF = true ∧
    (∀ d ∈ after, d.contains 0x1003 = true → d.writes 0x0FFF = false) :=
  ⟨twoClaims 0x1003, [], [_], ⟨[⟨0x1004, 4, false⟩, ⟨0x0FFE, 4, true⟩]⟩, rfl, by decide, by decide, rfl, by decide,
    by decide, by decide⟩

/-- R65, R214: a write to a byte of the command that is over is no breach of the running one; a write to a byte of the
running one is. -/
theorem test_breach_is_of_the_command_hit :
    nextHas (step (twoClaims 0x1004)) (fun t => !t.breach) = true ∧
    nextHas (step (twoClaims 0x1003)) (fun t => t.breach) = true := by decide +kernel

/-- U3: where the two commands overlap, a write that hits only the one that is over leaves the bytes of the running one. -/
theorem test_breach_keeps_the_other_command :
    Memory.read ((twoClaims 0x1004).loosen 0x1004 (twoClaims 0x1004).owned).mem 0x1001 =
      Memory.read (twoClaims 0x1004).mem 0x1001 :=
  State.loosen_read_claimed (twoClaims 0x1004) 0x1004 [_] [] ⟨[⟨0x1000, 4, true⟩]⟩ 0x1001 (by decide) (by decide)
    (by decide)

theorem witness_BufferOutOfRange : ∃ s : State, s.breach = false ∧ s.op.bufferBytes .d16 ≠ 0 ∧
    s.params.memSize + 1 = s.op.B + s.op.bufferBytes .d16 ∧ checkedDepth .swap16 = some .d16 :=
  ⟨ready 0x22#32 0xFFFF#32 1#32 1#32 0#32 0#32 [], by decide⟩

theorem witness_SourceOutOfRangeOrOverlap_range : ∃ s : State, s.breach = false ∧ s.op.L ≠ 0 ∧
    s.params.memSize + 1 = s.op.S + s.op.L :=
  ⟨ready 0x11#32 0x1000#32 4#32 1#32 0xFFFF#32 2#32 [], by decide⟩

theorem witness_SourceOutOfRangeOrOverlap_overlap : ∃ s : State, s.breach = false ∧ 0 < s.op.L ∧
    0 < s.op.bufferBytes .d8 ∧ s.op.S < s.op.B + s.op.bufferBytes .d8 ∧ s.op.B < s.op.S + s.op.L :=
  ⟨ready 0x11#32 0x1000#32 4#32 1#32 0x1003#32 2#32 [], by decide⟩

theorem witness_PredictionAtDepthOneUnsupported : ∃ s : State, s.breach = false ∧
    (Instr.pred1 = .unpred1 ∨ Instr.pred1 = .pred1) :=
  ⟨onBuffer 0x04#32 1#32 1#32 [], by decide⟩

theorem witness_EveryCommandEnds : IsCommand .rledec1 ∧ IsCommand .pred32 := ⟨⟨_, rfl⟩, ⟨_, rfl⟩⟩

theorem witness_CommandFrame : ∃ s t : State, IsCommand .unpred16 ∧ exec .unpred16 s = .next t :=
  ⟨onBuffer 0x23#32 1#32 1#32 [1#8, 2#8], _, ⟨_, rfl⟩, rfl⟩

theorem witness_SourceRegionUnchanged : ∃ s t : State, rleFits s.params.memSize .d8 s.op = true ∧
    exec (.rledec .d8) s = .next t ∧ 1 < s.op.L := by
  obtain ⟨t, h, -⟩ := exists_next (r := exec (.rledec .d8) (onStream 0x11#32 2#32 1#32 [0xFF#8, 0x42#8]))
    (q := fun _ => true) (by decide +kernel)
  exact ⟨_, t, by decide +kernel, h, by decide⟩

theorem witness_PassThroughSwaps : ∃ s : State, s.breach = false ∧ bufferFits s.params.memSize .d1 s.op = true ∧
    bufferFits s.params.memSize .d8 s.op = true :=
  ⟨onBuffer 0x12#32 4#32 1#32 [], by decide⟩

theorem witness_PassThroughSwaps_out_of_range : ∃ s : State, s.breach = false ∧
    bufferFits s.params.memSize .d1 s.op = false ∧ bufferFits s.params.memSize .d8 s.op = false :=
  ⟨ready 0x12#32 0xFFFF#32 9#32 1#32 0#32 0#32 [], by decide⟩

theorem witness_Swap16Result : ∃ s : State, s.breach = false ∧ bufferFits s.params.memSize .d16 s.op = true ∧
    3 < s.op.W * s.op.H ∧ s.op.W * s.op.H = 4 :=
  ⟨onBuffer 0x22#32 2#32 2#32 [1#8, 2#8], by decide⟩

theorem witness_Swap32Result : ∃ s : State, s.breach = false ∧ bufferFits s.params.memSize .d32 s.op = true ∧
    3 < s.op.W * s.op.H ∧ s.op.W * s.op.H = 4 :=
  ⟨onBuffer 0x32#32 2#32 2#32 [1#8, 2#8], by decide⟩

theorem witness_SwapIsAnInvolution : ∃ s : State, s.breach = false ∧
    ∀ d ∈ [Depth.d1, .d8, .d16, .d32], bufferFits s.params.memSize d s.op = true :=
  ⟨onBuffer 0x32#32 2#32 2#32 [1#8, 2#8], by decide⟩

theorem witness_Unpred8Result_and_Pred8Result : ∃ s : State, s.breach = false ∧
    bufferFits s.params.memSize .d8 s.op = true ∧ s.op.H = 2 ∧ s.op.W = 3 :=
  ⟨onBuffer 0x13#32 3#32 2#32 [1#8], by decide⟩

theorem witness_Unpred16Result_and_Pred16Result : ∃ s : State, s.breach = false ∧
    bufferFits s.params.memSize .d16 s.op = true ∧ s.op.H = 2 ∧ s.op.W = 3 :=
  ⟨onBuffer 0x23#32 3#32 2#32 [1#8], by decide⟩

theorem witness_Unpred32Result : ∀ carry : Bool, ∃ s : State, s.breach = false ∧
    bufferFits s.params.memSize .d32 s.op = true ∧ s.params.planeCarry = carry ∧ s.op.H = 2 ∧ s.op.W = 3 :=
  fun carry => ⟨{ onBuffer 0x33#32 3#32 2#32 [1#8] with params := { params with planeCarry := carry } }, rfl,
    (show bufferFits 0x10000 .d32 (onBuffer 0x33#32 3#32 2#32 [1#8]).op = true by decide), rfl, rfl, rfl⟩

/-- Every clause: a later column, the first column of an unbroken chain, the first column carried into. -/
theorem witness_Pred32Result : ∃ s : State, s.breach = false ∧ bufferFits s.params.memSize .d32 s.op = true ∧
    s.params.planeOrder.wf = true ∧ 0 < s.op.H ∧ 2 < s.op.W ∧ s.params.planeCarry = true ∧
    s.params.planeOrder.plane 3 = 0 ∧ s.params.planeOrder.plane 3 + 1 = s.params.planeOrder.plane 2 :=
  ⟨{ onBuffer 0x34#32 3#32 1#32 [1#8] with
      params := { params with planeCarry := true, planeOrder := ⟨3, 2, 1, 0⟩ } }, by decide⟩

theorem witness_PredictionRoundTrip : ∀ d ∈ [Depth.d8, .d16, .d32], ∃ s : State, d ≠ .d1 ∧ s.breach = false ∧
    bufferFits s.params.memSize d s.op = true ∧ s.params.planeOrder.wf = true := by
  intro d hd
  refine ⟨onBuffer 0x34#32 3#32 1#32 [1#8], ?_⟩
  revert d
  decide

theorem witness_ItemOrderIsFree : ∃ (o : Op) (w : Work), inPlaceWork params o .unpred8 = some w ∧
    [1, 0].Perm (List.range w.count) :=
  ⟨(onBuffer 0x13#32 3#32 2#32 []).op, _, rfl, (List.Perm.swap 0 1 [] : [1, 0].Perm [0, 1])⟩

theorem witness_LaneCountDoesNotMatter : ∃ s t : State, IsCommand .pred8 ∧ exec .pred8 s = .next t ∧
    s.params.lanes ≠ 7 :=
  ⟨onBuffer 0x14#32 1#32 1#32 [1#8], _, ⟨_, rfl⟩, rfl, by decide⟩

theorem witness_CommandReadsOnlyTheLatch : ∃ s t : State, exec .swap32 s = .next t :=
  ⟨onBuffer 0x32#32 1#32 1#32 [1#8], _, rfl⟩

/-- The longest literal, in a row it fills, below a destination and above one. -/
theorem witness_LitCopiesItsBytes : ∃ s : State, s.cur.out + ((127#7).toNat + 1) = s.cur.rb ∧
    s.cur.sp + ((127#7).toNat + 2) = s.op.L ∧ s.rleSrc + ((127#7).toNat + 2) ≤ s.params.memSize ∧
    s.rleDst + ((127#7).toNat + 1) ≤ s.params.memSize ∧
    (s.rleSrc + ((127#7).toNat + 2) ≤ s.rleDst ∨ s.rleDst + ((127#7).toNat + 1) ≤ s.rleSrc) :=
  ⟨{ inStream 128#32 1#32 [] 0 0 0 with op := ⟨0x11#32, 0x1000#32, 128#32, 1#32, 0x2000#32, 129#32⟩ }, by decide +kernel⟩

theorem witness_LitCopiesItsBytes_source_below : ∃ s : State, s.cur.out + ((0#7).toNat + 1) = s.cur.rb ∧
    s.cur.sp + ((0#7).toNat + 2) = s.op.L ∧ s.rleSrc + ((0#7).toNat + 2) = s.rleDst ∧
    s.rleDst + ((0#7).toNat + 1) ≤ s.params.memSize :=
  ⟨{ inStream 1#32 1#32 [] 0 0 0 with op := ⟨0x11#32, 0x1002#32, 1#32, 1#32, 0x1000#32, 2#32⟩ }, by decide +kernel⟩

theorem witness_RptRepeatsItsByte : ∃ s : State, (1#7) ≠ 0#7 ∧ s.cur.out + (129 - (1#7).toNat) = s.cur.rb ∧
    s.cur.sp + 2 = s.op.L ∧ s.rleSrc + 2 ≤ s.params.memSize ∧ s.rleDst + (129 - (1#7).toNat) ≤ s.params.memSize :=
  ⟨inStream 128#32 1#32 [0x81#8, 7#8] 0 0 0, by decide +kernel⟩

theorem witness_PacketErrors_row : ∃ s : State, Packet.lit 3#7 ≠ .nop ∧ s.breach = false ∧
    s.cur.rb + 1 = s.cur.out + packetCount (.lit 3#7) :=
  ⟨inStream 3#32 1#32 [3#8, 1#8, 2#8, 3#8, 4#8] 0 0 0, by decide +kernel⟩

theorem witness_PacketErrors_source : ∃ s : State, Packet.rpt 126#7 ≠ .nop ∧ s.breach = false ∧
    s.cur.out + packetCount (.rpt 126#7) ≤ s.cur.rb ∧ s.op.L + 1 = s.cur.sp + packetNeed (.rpt 126#7) :=
  ⟨inStream 3#32 1#32 [0xFE#8] 0 0 0, by decide +kernel⟩

/-- The two rows of V-R1. -/
def rowsR1 : List (List SrcPacket) :=
  [[.lit [0xAA#8, 0xBB#8, 0xCC#8], .rpt 2 0x11#8], [.nop, .rpt 4 0x00#8, .lit [0x7F#8]]]

theorem witness_RledecDecodesSpelledRows : ∃ s : State, s.breach = false ∧ rleFits s.params.memSize .d8 s.op = true ∧
    rowsR1.length = s.op.H ∧ (∀ ps ∈ rowsR1, RowOf (rowBytes .d8 s.op.W) ps) ∧
    (streamBytes rowsR1.flatten).length = s.op.L ∧ Memory.Holds s.mem s.op.S (streamBytes rowsR1.flatten) := by
  refine ⟨onStream 0x11#32 5#32 2#32 (streamBytes rowsR1.flatten), rfl, by decide +kernel, by decide, ?_,
    by decide +kernel, ?_⟩
  · unfold RowOf; decide +kernel
  · unfold Memory.Holds; decide +kernel

theorem witness_RledecSuccessSpellsRows : ∃ s t : State, s.breach = false ∧ s.errv = false ∧
    exec (.rledec .d8) s = .next t ∧ t.errv = false := by
  obtain ⟨t, h, q⟩ := exists_next (r := exec (.rledec .d8) (onStream 0x11#32 2#32 1#32 [0xFF#8, 0x42#8]))
    (q := fun t => !t.errv) (by decide +kernel)
  exact ⟨_, t, rfl, rfl, h, by simpa using q⟩

theorem witness_RledecTurnByTurnAgrees : ∃ s : State, s.phase = .start ∧ s.op.word = commandWord (.rledec .d8) :=
  ⟨onStream 0x11#32 2#32 1#32 [0xFF#8, 0x42#8], rfl, rfl⟩

theorem witness_EveryScheduleAgrees : ∃ (s : State) (w : Work), inPlaceWork s.params s.op .unpred8 = some w ∧
    s.phase = .start ∧ s.op.word = commandWord .unpred8 ∧ Memory.wf s.mem = true :=
  ⟨onBuffer 0x13#32 2#32 2#32 [1#8, 2#8, 3#8, 4#8], _, rfl, rfl, rfl, by decide +kernel⟩

/-- A schedule of two interleaved lanes that takes the command to its end. -/
theorem witness_EveryScheduleAgrees_ends : nextHas
    (Sys2Proof.core.run 9 { onBuffer 0x13#32 2#32 2#32 [1#8, 2#8, 3#8, 4#8] with
      inputs := turnMoves [(0, 0), (1, 1), (0, 0), (1, 0), (0, 0), (1, 0), (0, 0), (0, 0), (0, 0)] })
    (fun t => decide (t.phase = .idle ∧ Memory.read t.mem 0x1001 = 3#8 ∧ Memory.read t.mem 0x1003 = 7#8)) = true := by
  decide +kernel

/-- A running stream that meets all invariants. -/
def inv1 : State := inStream 2#32 1#32 [0xFF#8, 0x42#8] 0 0 0

theorem inv1_stream : inv1.StreamInv := fun _ => ⟨.d8, by decide +kernel⟩

theorem inv1_items : inv1.ItemsInv := fun h => absurd h (by decide)

/-- Two rows of `UNPRED.8`, one in lane 1, one waiting. -/
def inv2 : State :=
  { onBuffer 0x13#32 2#32 2#32 [1#8, 2#8, 3#8, 4#8] with phase := .items, todo := [0], lanes := [none, some ⟨1, 0, []⟩] }

theorem inv2_stream : inv2.StreamInv := fun h => absurd h (by decide)

theorem inv2_items : inv2.ItemsInv := fun _ => ⟨unpred8Work inv2.op, rfl, by decide +kernel⟩

theorem witness_StatusInvariantKept : ∃ s t : State, s.StatusInv ∧ step s = .next t := by
  obtain ⟨t, h, -⟩ := exists_next (r := step inv1) (q := fun _ => true) (by decide +kernel)
  exact ⟨inv1, t, by unfold State.StatusInv; decide, h⟩

theorem witness_MemoryInvariantKept : ∃ s t : State, s.MemInv ∧ step s = .next t := by
  obtain ⟨t, h, -⟩ := exists_next (r := step inv1) (q := fun _ => true) (by decide +kernel)
  exact ⟨inv1, t, ⟨by decide +kernel, by decide +kernel, by intro l hl; simp [inv1, inStream, onStream, ready,
    State.resetWith] at hl⟩, h⟩

theorem witness_StreamInvariantKept : ∃ s t : State, s.StreamInv ∧ s.phase = .stream ∧ step s = .next t ∧
    t.phase = .stream := by
  obtain ⟨t, h, q⟩ := exists_next (r := step inv1) (q := fun t => decide (t.phase = .stream)) (by decide +kernel)
  exact ⟨inv1, t, inv1_stream, rfl, h, by simpa using q⟩

theorem witness_ItemsInvariantKept : ∃ s t : State, s.ItemsInv ∧ s.phase = .items ∧ step s = .next t ∧
    t.phase = .items := by
  obtain ⟨t, h, q⟩ := exists_next (r := step inv2) (q := fun t => decide (t.phase = .items)) (by decide +kernel)
  exact ⟨inv2, t, inv2_items, rfl, h, by simpa using q⟩

theorem witness_InvariantsAtReset : Memory.wf [(0xFFFF, 1#8)] = true ∧
    Memory.within params.memSize [(0xFFFF, 1#8)] = true := by decide +kernel

theorem witness_BlockNeverFaults_stream : ∃ s : State, s.StreamInv ∧ s.ItemsInv ∧ s.HostKeepsToTheMap ∧
    s.phase = .stream :=
  ⟨inv1, inv1_stream, inv1_items, trivial, rfl⟩

theorem witness_BlockNeverFaults_touched : ∃ (o : Op) (w : Work), inPlaceWork params o .pred32 = some w ∧
    bufferFits params.memSize w.depth o = true ∧ 1 < w.count ∧ ∃ b ∈ w.prog 1, 0x1017 ∈ b.touched :=
  ⟨(onBuffer 0x34#32 3#32 2#32 []).op, _, rfl, by decide +kernel, by decide, .store 0x1017 11, by decide +kernel⟩

theorem witness_BlockNeverFaults_items : ∃ s : State, s.StreamInv ∧ s.ItemsInv ∧ s.HostKeepsToTheMap ∧
    s.phase = .items :=
  ⟨inv2, inv2_stream, inv2_items, trivial, rfl⟩

theorem witness_SequencerTransitions_start : ∃ s t : State, step s = .next t ∧ s.phase = .idle ∧ t.phase ≠ .idle := by
  obtain ⟨t, h, q⟩ := exists_next (r := step (hostState (.wr 0x00 4 0x12#32))) (q := fun t => decide (t.phase ≠ .idle))
    (by decide +kernel)
  exact ⟨_, t, h, rfl, by simpa using q⟩

theorem witness_SequencerTransitions_end : ∃ s t : State, step s = .next t ∧ s.phase ≠ .idle ∧ t.phase = .idle := by
  obtain ⟨t, h, q⟩ := exists_next (r := step (onBuffer 0x12#32 1#32 1#32 [])) (q := fun t => decide (t.phase = .idle))
    (by decide +kernel)
  exact ⟨_, t, h, by decide, by simpa using q⟩

theorem witness_OperandRegistersOnlyByHost : ∃ s t : State, step s = .next t ∧ t.base ≠ s.base := by
  obtain ⟨t, h, q⟩ := exists_next (r := step (hostState (.wr 0x0C 4 0x12#32))) (q := fun t => decide (t.base ≠ 0#32))
    (by decide +kernel)
  exact ⟨_, t, h, by simpa [hostState, State.resetWith] using q⟩

theorem witness_StreamEndsInBoundedTurns : ∃ s : State, s.StreamInv ∧ s.phase = .stream ∧ s.inputs = [] :=
  ⟨inv1, inv1_stream, rfl, rfl⟩

theorem witness_RowsEndWhenTheHostIsSilent : ∃ s : State, s.ItemsInv ∧ s.phase = .items ∧ s.inputs = [] ∧
    1 ≤ s.params.lanes :=
  ⟨inv2, inv2_items, rfl, rfl, by decide⟩

theorem witness_CommandLineStartsItsCommand : ∃ (s : State) (c : CommandLine), IsCommand (.rledec .d32) ∧
    s.phase = .idle ∧ s.errv = false ∧ s.inputs = commandMoves c (.rledec .d32 :: []) ++ [.irq] :=
  ⟨{ State.reset with inputs := commandMoves ⟨1#32, 2#32, 3#32, 4#32, 5#32⟩ [.rledec .d32] ++ [.irq] }, _, ⟨_, rfl⟩, rfl,
    rfl, rfl⟩

theorem witness_CommandLineStartsItsCommand_expansion : ∃ (s : State) (c : CommandLine), IsCommand .swap16 ∧
    (∀ d, Instr.swap16 ≠ .rledec d) ∧ s.phase = .idle ∧ s.errv = false ∧
    s.inputs = commandMoves c (.swap16 :: [.unpred16]) ++ [] :=
  ⟨{ State.reset with inputs := pseudoMoves ⟨1#32, 2#32, 3#32, 4#32, 5#32⟩ (.zipPred .d16) }, _, ⟨_, rfl⟩,
    by intro d; cases d <;> decide, rfl, rfl, rfl⟩

theorem witness_CommandLineStartsItsCommand_wait_busy : ∃ (s : State) (rest : List Event),
    s.inputs = .wait 3 :: rest ∧ s.phase = .start ∧ decodeCommand s.op.word = .ok .unpred8 :=
  ⟨{ onBuffer 0x13#32 2#32 1#32 [] with inputs := [.wait 3] }, [], rfl, rfl, by decide⟩

theorem witness_CommandLineStartsItsCommand_wait_idle : ∃ (s : State) (rest : List Event),
    s.inputs = .wait 3 :: rest ∧ s.phase = .idle ∧ s.errv = true :=
  ⟨failed (.wait 3), [], rfl, rfl, rfl⟩

end Sys2Proof.Machine.Tests
end

/-! A packet header as a signed byte (30_encoding.md, R86 to R88): `K` is its sign, `C7` its low seven bits. -/

namespace Sys2Proof.Machine

theorem kindBit_eq_false_iff (h : Byte) : kindBit h = false ↔ 0 ≤ h.toInt := by
  have hmsb : kindBit h = h.msb := (BitVec.msb_eq_getLsbD_last h).symm
  rw [hmsb, BitVec.msb_eq_toInt, decide_eq_false_iff_not, not_lt]

theorem toNat_countField (h : Byte) : (countField h).toNat = h.toNat % 128 := by
  simp [countField]

theorem toNat_countField_of_nonneg {h : Byte} (hn : 0 ≤ h.toInt) : ((countField h).toNat : Int) = h.toInt := by
  rw [toNat_countField]
  rw [BitVec.toInt_eq_toNat_cond] at hn ⊢
  omega

theorem toNat_countField_of_neg {h : Byte} (hn : h.toInt < 0) : ((countField h).toNat : Int) = h.toInt + 128 := by
  rw [toNat_countField]
  rw [BitVec.toInt_eq_toNat_cond] at hn ⊢
  omega

theorem decodePacket_of_nonneg {h : Byte} (hn : 0 ≤ h.toInt) : decodePacket h = .lit (countField h) := by
  have hmark : h ≠ 0x80#8 := by rintro rfl; exact absurd hn (by decide)
  rw [decodePacket, if_neg hmark, if_pos ((kindBit_eq_false_iff h).2 hn)]

theorem decodePacket_of_eq_min {h : Byte} (hn : h.toInt = -128) : decodePacket h = .nop := by
  have hmark : h = 0x80#8 := BitVec.eq_of_toInt_eq hn
  rw [decodePacket, if_pos hmark]

theorem decodePacket_of_neg {h : Byte} (hmin : -127 ≤ h.toInt) (hn : h.toInt < 0) :
    decodePacket h = .rpt (countField h) := by
  have hmark : h ≠ 0x80#8 := by rintro rfl; exact absurd hmin (by decide)
  have hkind : ¬ kindBit h = false := fun hk => absurd ((kindBit_eq_false_iff h).1 hk) (by omega)
  rw [decodePacket, if_neg hmark, if_neg hkind]

/-- Settles O4, by the three ranges of the signed header byte: each fixes the packet kind, and `C7` is the header itself
where it is not negative, the header plus 128 where it is. -/
theorem headerFixesThePacket : Obligations.HeaderFixesThePacket := by
  intro h
  refine ⟨fun hn => ?literal, fun hn => ?marker, fun hmin hn => ?run⟩
  case literal =>
    have hcount := toNat_countField_of_nonneg hn
    rw [decodePacket_of_nonneg hn]
    refine ⟨rfl, ?_, ?_⟩ <;> simp only [packetCount, packetNeed] <;> omega
  case marker =>
    rw [decodePacket_of_eq_min hn]
    exact ⟨rfl, rfl, rfl⟩
  case run =>
    have hcount := toNat_countField_of_neg hn
    rw [decodePacket_of_neg hmin hn]
    refine ⟨rfl, ?_, rfl⟩
    simp only [packetCount]
    omega

end Sys2Proof.Machine

/-! Writes to `CMD` and `STATUS` as single steps (40_command.md, R114, R120). -/

namespace Sys2Proof.Machine

theorem State.busy_eq_true_iff {s : State} : s.busy = true ↔ s.phase ≠ .idle := decide_eq_true_iff

theorem State.busy_eq_false_iff {s : State} : s.busy = false ↔ s.phase = .idle := by
  rw [← Bool.not_eq_true, State.busy_eq_true_iff, not_not]

theorem step_of_wr {s : State} {off : Nat} {v : Word} {rest : List Event} (h : s.inputs = .wr off 4 v :: rest)
    (ha : off % 4 = 0) : step s = .next ({ s with inputs := rest }.writeReg (regAt off) v) := by
  rw [step_cons h, State.event, if_pos (aligned32_iff.2 ⟨rfl, ha⟩)]

theorem State.writeCmd_of_busy_or_errv {s : State} (v : Word) (h : s.phase ≠ .idle ∨ s.errv = true) :
    s.writeCmd v = { s with rej := true } := by
  have hrejected : ¬ (!s.busy && !s.errv) = true := by
    rw [Bool.and_eq_true, Bool.not_eq_true', Bool.not_eq_true', State.busy_eq_false_iff]
    rintro ⟨hidle, herrv⟩
    rcases h with hrun | herr
    · exact hrun hidle
    · exact Bool.false_ne_true (herrv.symm.trans herr)
  rw [State.writeCmd, if_neg hrejected]

/-- `ERRV` and `ECODE` are cleared together, where `v[2]` is set and `BUSY = 0`. -/
theorem State.writeStatus_eq (s : State) (v : Word) : s.writeStatus v = { s with
    done := if v.getLsbD 1 then false else s.done
    errv := if v.getLsbD 2 = true ∧ s.phase = .idle then false else s.errv
    ecode := if v.getLsbD 2 = true ∧ s.phase = .idle then 0#4 else s.ecode
    rej := if v.getLsbD 3 then false else s.rej } := by
  have hgate : (v.getLsbD 2 && !s.busy) = decide (v.getLsbD 2 = true ∧ s.phase = .idle) := by
    rw [Bool.eq_iff_iff, Bool.and_eq_true, Bool.not_eq_true', State.busy_eq_false_iff, decide_eq_true_iff]
  rw [State.writeStatus, hgate]
  simp only [Bool.if_false_left, Bool.decide_eq_true, decide_eq_true_eq, Bool.and_comm]

/-- Settles O16, by the arm of `writeCmd` for a block that is running or holds an error. -/
theorem commandWriteRejected : Obligations.CommandWriteRejected := by
  intro s rest v hin hrejects
  rw [step_of_wr hin rfl]
  exact congrArg Host.Outcome.next (State.writeCmd_of_busy_or_errv (s := { s with inputs := rest }) v hrejects)

/-- Settles O17, by the value of `writeStatus`, whose gates read as `v[k]` and, for the error, `BUSY = 0`. -/
theorem statusWriteClears : Obligations.StatusWriteClears := by
  intro s rest v hin
  rw [step_of_wr hin rfl]
  exact congrArg Host.Outcome.next (State.writeStatus_eq { s with inputs := rest } v)

end Sys2Proof.Machine

/-! The swapper: what its items do to their samples, from the laws of in-place commands (42_swap.md, R151 to R155). -/

namespace Sys2Proof.Machine

theorem inBlock_add {size k : Nat} (base i : Nat) (hk : k < size) : InBlock base size i (base + size * i + k) := by
  unfold InBlock
  rw [Nat.add_mul, Nat.mul_comm size i]
  omega

/-- Settles O29, by what one sample's item leaves in the sample's own block. -/
theorem swap16Result : Obligations.Swap16Result := by
  intro s hb hf
  obtain ⟨t, hexec, hend, hout, hread⟩ :=
    exec_inPlace_ok (i := .swap16) (w := swap16Work s.op) rfl (swap16Work_local s.op) hb hf
  refine ⟨t, hexec, hend, hout, fun i hi => ?_⟩
  obtain ⟨hlow, hhigh⟩ := swap16_item s.op i s.mem
  exact ⟨(hread i _ hi (inBlock_add (k := 0) _ i (by decide))).trans hlow,
    (hread i _ hi (inBlock_add _ i (by decide))).trans hhigh⟩

/-- Bytes stored in reverse order are read in native order as the value they stood for in on-disk order (R52, R53). -/
theorem Memory.read32_of_reversed {m k : Memory} {a : Nat}
    (h : ∀ j, j < 4 → Memory.read k (a + j) = Memory.read m (a + (3 - j))) :
    Memory.read32 k a =
      Memory.read m a ++ Memory.read m (a + 1) ++ Memory.read m (a + 2) ++ Memory.read m (a + 3) := by
  have h0 : Memory.read k a = Memory.read m (a + 3) := h 0 (by decide)
  have h1 : Memory.read k (a + 1) = Memory.read m (a + 2) := h 1 (by decide)
  have h2 : Memory.read k (a + 2) = Memory.read m (a + 1) := h 2 (by decide)
  have h3 : Memory.read k (a + 3) = Memory.read m a := h 3 (by decide)
  rw [Memory.read32, h0, h1, h2, h3]

/-- Settles O30, by what one sample's item leaves in the sample's own block; the native value follows from the bytes. -/
theorem swap32Result : Obligations.Swap32Result := by
  intro s hb hf
  obtain ⟨t, hexec, hend, hout, hread⟩ :=
    exec_inPlace_ok (i := .swap32) (w := swap32Work s.op) rfl (swap32Work_local s.op) hb hf
  refine ⟨t, hexec, hend, hout, fun i k hi hk => ?_⟩
  have hbytes : ∀ j, j < 4 →
      Memory.read t.mem (s.op.B + 4 * i + j) = Memory.read s.mem (s.op.B + 4 * i + (3 - j)) := fun j hj =>
    (hread i _ hi (inBlock_add _ i hj)).trans (swap32_item s.op i j hj s.mem)
  exact ⟨hbytes k hk, Memory.read32_of_reversed hbytes⟩

/-! ### Swapping twice -/

/-- An in-place command whose items undo themselves, run twice with the same operands, leaves every byte as it was. -/
theorem exec_inPlace_twice {s : State} {i : Instr} {w : Work} (h : inPlaceWork s.params s.op i = some w)
    (hundo : ∀ r m, Memory.Same m (runItem (w.prog r) (runItem (w.prog r) m)))
    (hb : s.breach = false) (hf : bufferFits s.params.memSize w.depth s.op = true) :
    ∃ t u, exec i s = .next t ∧ exec i t = .next u ∧ Memory.Same s.mem u.mem := by
  obtain ⟨size, hl, hcount, -⟩ := inPlaceWork_shape h
  obtain ⟨t, hexec, hend, hout, hread⟩ := exec_inPlace_ok h hl hb hf
  have hparams : t.params = s.params := by rw [hend, State.finish_params]
  have hop : t.op = s.op := by rw [hend, State.finish_op]
  have hbreach : t.breach = false := by rw [hend, State.finish_breach]
  rw [← hparams, ← hop] at h hf
  rw [← hop] at hl
  obtain ⟨u, hexec', -, hout', hread'⟩ := exec_inPlace_ok h hl hbreach hf
  rw [hop] at hl hout' hread'
  refine ⟨t, u, hexec, hexec', fun x => ?_⟩
  by_cases hx : s.op.B ≤ x ∧ x < s.op.B + w.written
  case neg =>
    have houtside : x < s.op.B ∨ s.op.B + w.written ≤ x := by omega
    exact (hout' x houtside).trans (hout x houtside)
  case pos =>
    rw [← hcount] at hx
    obtain ⟨r, hr, hblock⟩ := InBlock.exists_of_region hx.1 hx.2
    calc Memory.read u.mem x
      _ = Memory.read (runItem (w.prog r) t.mem) x := hread' r x hr hblock
      _ = Memory.read (runItem (w.prog r) (runItem (w.prog r) s.mem)) x :=
          runItem_congr hl r _ _ (fun a ha => hread r a hr ha) x hblock
      _ = Memory.read s.mem x := hundo r s.mem x

theorem swap2_twice (a : Nat) (m : Memory) : Memory.Same m (runItem [.swap2 a] (runItem [.swap2 a] m)) := by
  intro x
  simp only [runItem, runOps, List.foldl_cons, List.foldl_nil, ByteOp.run, Memory.read_write]
  by_cases hhigh : x = a + 1
  · simp [hhigh]
  · by_cases hlow : x = a <;> simp [hhigh, hlow]

theorem swap4_twice (a : Nat) (m : Memory) : Memory.Same m (runItem [.swap4 a] (runItem [.swap4 a] m)) := by
  intro x
  simp only [runItem, runOps, List.foldl_cons, List.foldl_nil, ByteOp.run, Memory.read_write]
  by_cases hin : x = a ∨ x = a + 1 ∨ x = a + 2 ∨ x = a + 3
  · rcases hin with rfl | rfl | rfl | rfl <;> simp
  · simp only [not_or] at hin
    simp [hin]

/-- Settles O31: the item of a pass-through swap is empty, and those of the other two undo themselves. -/
theorem swapIsAnInvolution : Obligations.SwapIsAnInvolution := by
  intro s d hb hf
  cases d with
  | d1 => exact exec_inPlace_twice (w := passThrough .d1) rfl (fun _ => Memory.Same.refl) hb hf
  | d8 => exact exec_inPlace_twice (w := passThrough .d8) rfl (fun _ => Memory.Same.refl) hb hf
  | d16 => exact exec_inPlace_twice (w := swap16Work s.op) rfl (fun r => swap2_twice (s.op.B + 2 * r)) hb hf
  | d32 => exact exec_inPlace_twice (w := swap32Work s.op) rfl (fun r => swap4_twice (s.op.B + 4 * r)) hb hf

/-! ### Pass-through swaps -/

theorem exec_inPlace_rangeError {s : State} {i : Instr} {w : Work} (h : inPlaceWork s.params s.op i = some w)
    (hb : s.breach = false) (hf : bufferFits s.params.memSize w.depth s.op = false) :
    exec i s = .next (s.finish (.error .rangeError 0#32 0#32)) := by
  rw [exec_inPlace h, State.runWork, hf, if_neg Bool.false_ne_true, State.endCommand_of_no_breach _ _ hb]

theorem exec_passThrough_ok {s : State} {i : Instr} {d : Depth} (h : inPlaceWork s.params s.op i = some (passThrough d))
    (hb : s.breach = false) (hf : bufferFits s.params.memSize d s.op = true) : exec i s = .next (s.finish .ok) := by
  have hitems : runItems (passThrough d).prog (List.range (passThrough d).count) s.mem = s.mem := rfl
  have hdepth : (passThrough d).depth = d := rfl
  rw [exec_inPlace h, State.runWork, hitems, hdepth, if_pos hf, State.endCommand_of_no_breach _ _ hb]

/-- Settles O28: a pass-through swap is an in-place command without items. -/
theorem passThroughSwaps : Obligations.PassThroughSwaps := fun _ hb =>
  ⟨exec_passThrough_ok rfl hb, exec_inPlace_rangeError (w := passThrough .d1) rfl hb,
    exec_passThrough_ok rfl hb, exec_inPlace_rangeError (w := passThrough .d8) rfl hb⟩

end Sys2Proof.Machine

/-! The prediction unit: what its rows leave in the buffer, and that sums and differences undo each other (43_pred.md,
R161 to R171). -/

namespace Sys2Proof.Machine

/-! ### No pipeline at depth 1 -/

theorem State.statusWord_errv (s : State) : s.statusWord.getLsbD 2 = s.errv := by
  simp only [State.statusWord, BitVec.getLsbD_append]
  simp

theorem State.unsupported_of_no_breach {s : State} (hb : s.breach = false) :
    s.unsupported = s.finish (.error .unsupportedCombination 0#32 0#32) := State.endCommand_of_no_breach 0 _ hb

/-- Settles O23: both commands are the failed decode check, which without a breach is the error completion itself. -/
theorem predictionAtDepthOneUnsupported : Obligations.PredictionAtDepthOneUnsupported := by
  intro s i hi hb
  have hexec : exec i s = .next s.unsupported := by rcases hi with rfl | rfl <;> rfl
  rw [State.unsupported_of_no_breach hb] at hexec
  exact ⟨_, hexec, State.statusWord_errv _, rfl, rfl, rfl, rfl, rfl⟩

/-! ### Rows as blocks of bytes and of native 16-bit samples -/

theorem inBlock_iff {base size i x : Nat} : InBlock base size i x ↔ ∃ n, n < size ∧ base + i * size + n = x := by
  unfold InBlock
  rw [Nat.add_mul]
  constructor
  · rintro ⟨hlow, hhigh⟩
    exact ⟨x - (base + i * size), by omega, by omega⟩
  · rintro ⟨n, hn, rfl⟩
    omega

theorem Memory.read16_eq_iff {m k : Memory} {a : Nat} :
    Memory.read16 m a = Memory.read16 k a ↔
      Memory.read m a = Memory.read k a ∧ Memory.read m (a + 1) = Memory.read k (a + 1) := by
  constructor
  · intro h
    have hlow := congrArg (BitVec.extractLsb' 0 8) h
    have hhigh := congrArg (BitVec.extractLsb' 8 8) h
    simp only [Memory.read16, BitVec.extractLsb'_append_eq_right, BitVec.extractLsb'_append_eq_left] at hlow hhigh
    exact ⟨hlow, hhigh⟩
  · rintro ⟨hlow, hhigh⟩
    rw [Memory.read16, Memory.read16, hlow, hhigh]

/-- Two memories agree on a row of `W` 16-bit samples exactly when they agree on its bytes. -/
theorem samples16_eq_iff {m k : Memory} {base W r : Nat} :
    (∀ j, j < W → Memory.read16 m (base + 2 * (r * W + j)) = Memory.read16 k (base + 2 * (r * W + j))) ↔
      ∀ x, InBlock base (2 * W) r x → Memory.read m x = Memory.read k x := by
  have hrow : r * (2 * W) = 2 * (r * W) := by ring
  constructor
  · intro h x hx
    obtain ⟨n, hn, rfl⟩ := inBlock_iff.1 hx
    obtain ⟨hlow, hhigh⟩ := Memory.read16_eq_iff.1 (h (n / 2) (by omega))
    rcases Nat.mod_two_eq_zero_or_one n with heven | hodd
    · rwa [show base + 2 * (r * W + n / 2) = base + r * (2 * W) + n by omega] at hlow
    · rwa [show base + 2 * (r * W + n / 2) + 1 = base + r * (2 * W) + n by omega] at hhigh
  · intro h j hj
    exact Memory.read16_eq_iff.2 ⟨h _ (inBlock_iff.2 ⟨2 * j, by omega, by omega⟩),
      h _ (inBlock_iff.2 ⟨2 * j + 1, by omega, by omega⟩)⟩

/-! ### Sums and differences at depths 8 and 16 -/

/-- Settles O32, by what one row's item leaves in the row's own block. -/
theorem unpred8Result : Obligations.Unpred8Result := by
  intro s hb hf
  obtain ⟨t, hexec, hend, hout, hread⟩ :=
    exec_inPlace_ok (i := .unpred8) (w := unpred8Work s.op) rfl (unpred8Work_local s.op) hb hf
  exact ⟨t, hexec, hend, hout, fun r j hr hj =>
    (hread r _ hr (inBlock_iff.2 ⟨j, hj, rfl⟩)).trans (unpred8_row s.op r j hj s.mem)⟩

/-- Settles O33, by what one row's item leaves in the row's own block. -/
theorem pred8Result : Obligations.Pred8Result := by
  intro s hb hf
  obtain ⟨t, hexec, hend, hout, hread⟩ :=
    exec_inPlace_ok (i := .pred8) (w := pred8Work s.op) rfl (pred8Work_local s.op) hb hf
  exact ⟨t, hexec, hend, hout, fun r j hr hj =>
    (hread r _ hr (inBlock_iff.2 ⟨j, hj, rfl⟩)).trans (pred8_row s.op r j hj s.mem)⟩

/-- Settles O34: a row's block holds the item's bytes, so its samples are the item's samples. -/
theorem unpred16Result : Obligations.Unpred16Result := by
  intro s hb hf
  obtain ⟨t, hexec, hend, hout, hread⟩ :=
    exec_inPlace_ok (i := .unpred16) (w := unpred16Work s.op) rfl (unpred16Work_local s.op) hb hf
  exact ⟨t, hexec, hend, hout, fun r j hr hj =>
    (samples16_eq_iff.2 (fun x => hread r x hr) j hj).trans (unpred16_row s.op r j hj s.mem)⟩

/-- Settles O35: a row's block holds the item's bytes, so its samples are the item's samples. -/
theorem pred16Result : Obligations.Pred16Result := by
  intro s hb hf
  obtain ⟨t, hexec, hend, hout, hread⟩ :=
    exec_inPlace_ok (i := .pred16) (w := pred16Work s.op) rfl (pred16Work_local s.op) hb hf
  exact ⟨t, hexec, hend, hout, fun r j hr hj =>
    (samples16_eq_iff.2 (fun x => hread r x hr) j hj).trans (pred16_row s.op r j hj s.mem)⟩

/-! ### Commands that undo each other -/

/-- Two in-place bodies on the same buffer whose items undo each other. -/
structure Work.Inverse (w w' : Work) (base size : Nat) : Prop where
  sameDepth : w'.depth = w.depth
  sameCount : w'.count = w.count
  isLocal : w.Local base size
  isLocal' : w'.Local base size
  undo : ∀ r m x, InBlock base size r x →
    Memory.read (runItem (w'.prog r) (runItem (w.prog r) m)) x = Memory.read m x
  undo' : ∀ r m x, InBlock base size r x →
    Memory.read (runItem (w.prog r) (runItem (w'.prog r) m)) x = Memory.read m x

theorem Work.Inverse.symm {w w' : Work} {base size : Nat} (h : w.Inverse w' base size) : w'.Inverse w base size :=
  ⟨h.sameDepth.symm, h.sameCount.symm, h.isLocal', h.isLocal, h.undo', h.undo⟩

/-- Items stay in their blocks, so what undoes one item at a time undoes them all. -/
theorem Work.Inverse.runItems_same {w w' : Work} {base size : Nat} (h : w.Inverse w' base size) {l : List Nat}
    (hl : l.Nodup) (m : Memory) : Memory.Same m (runItems w'.prog l (runItems w.prog l m)) := by
  intro x
  by_cases hx : ∃ r ∈ l, InBlock base size r x
  case pos =>
    obtain ⟨r, hr, hblock⟩ := hx
    have hfirst : ∀ a, InBlock base size r a →
        Memory.read (runItems w.prog l m) a = Memory.read (runItem (w.prog r) m) a := fun a ha => by
      rw [runItems_read h.isLocal l hl m r a ha, if_pos hr]
    calc Memory.read (runItems w'.prog l (runItems w.prog l m)) x
      _ = Memory.read (runItem (w'.prog r) (runItems w.prog l m)) x := by
          rw [runItems_read h.isLocal' l hl _ r x hblock, if_pos hr]
      _ = Memory.read (runItem (w'.prog r) (runItem (w.prog r) m)) x :=
          runItem_congr h.isLocal' r _ _ hfirst x hblock
      _ = Memory.read m x := h.undo r m x hblock
  case neg =>
    have houtside : ∀ r ∈ l, ¬ InBlock base size r x := fun r hr hblock => hx ⟨r, hr, hblock⟩
    exact (runItems_outside h.isLocal' l _ x houtside).trans (runItems_outside h.isLocal l m x houtside)

theorem State.runWork_ok {s : State} {w : Work} (hb : s.breach = false)
    (hf : bufferFits s.params.memSize w.depth s.op = true) :
    s.runWork w = { s with mem := runItems w.prog (List.range w.count) s.mem }.finish .ok := by
  rw [State.runWork, if_pos hf]
  exact State.endCommand_of_no_breach _ _ hb

/-- Two commands with such bodies, one after the other with the same operands, leave every byte as it was. -/
theorem Work.Inverse.exec_exec {s : State} {i i' : Instr} {w w' : Work} {size : Nat}
    (h : w.Inverse w' s.op.B size) (hw : inPlaceWork s.params s.op i = some w)
    (hw' : inPlaceWork s.params s.op i' = some w') (hb : s.breach = false)
    (hf : bufferFits s.params.memSize w.depth s.op = true) :
    ∃ t u, exec i s = .next t ∧ exec i' t = .next u ∧ Memory.Same s.mem u.mem := by
  refine ⟨s.runWork w, (s.runWork w).runWork w', exec_inPlace hw, exec_inPlace ?_, ?_⟩
  · rw [State.runWork_ok hb hf]
    exact hw'
  · rw [State.runWork_ok hb hf, State.runWork_ok rfl (by rw [h.sameDepth]; exact hf), h.sameCount]
    exact h.runItems_same List.nodup_range s.mem

/-! ### Differences of columns against their running sums -/

/-- `d` holds column 0 of `g` and, in every further column below `N`, the difference of `g` to the column before. -/
def IsDifferences {w : Nat} (N : Nat) (g d : Nat → BitVec w) : Prop :=
  ∀ i, i < N → d i = if i = 0 then g i else g i - g (i - 1)

theorem IsDifferences.prefixSum_eq {w N : Nat} {g d : Nat → BitVec w} (h : IsDifferences N g d) {i : Nat}
    (hi : i < N) : prefixSum d i = g i := by
  induction i with
  | zero => exact h 0 hi
  | succ i ih =>
    have hdiff : d (i + 1) = g (i + 1) - g i := h (i + 1) hi
    rw [prefixSum, ih (by omega), hdiff, add_sub_cancel]

theorem IsDifferences.eq_of_prefixSum {w N : Nat} {g d f : Nat → BitVec w} (h : IsDifferences N g d)
    (hg : ∀ i, i < N → g i = prefixSum f i) {i : Nat} (hi : i < N) : d i = f i := by
  rw [h i hi]
  cases i with
  | zero => exact hg 0 hi
  | succ i =>
    have hsum : g (i + 1) = g i + f (i + 1) := by rw [hg i (by omega), hg (i + 1) hi, prefixSum]
    rw [if_neg (Nat.succ_ne_zero i), Nat.add_sub_cancel, hsum, add_sub_cancel_left]

/-! ### Rows at depths 8 and 16 undo each other -/

theorem pred8_inverse (o : Op) : (pred8Work o).Inverse (unpred8Work o) o.B o.W where
  sameDepth := rfl
  sameCount := rfl
  isLocal := pred8Work_local o
  isLocal' := unpred8Work_local o
  undo r m x hx := by
    obtain ⟨j, hj, rfl⟩ := inBlock_iff.1 hx
    have hdiff : IsDifferences o.W (fun i => Memory.read m (o.B + r * o.W + i))
        (fun i => Memory.read (runItem (pred8Row o r) m) (o.B + r * o.W + i)) :=
      fun i hi => pred8_row o r i hi m
    exact (unpred8_row o r j hj _).trans ((sum8_eq_prefixSum _ _ j).trans (hdiff.prefixSum_eq hj))
  undo' r m x hx := by
    obtain ⟨j, hj, rfl⟩ := inBlock_iff.1 hx
    have hdiff : IsDifferences o.W (fun i => Memory.read (runItem (unpred8Row o r) m) (o.B + r * o.W + i))
        (fun i => Memory.read (runItem (pred8Row o r) (runItem (unpred8Row o r) m)) (o.B + r * o.W + i)) :=
      fun i hi => pred8_row o r i hi _
    exact hdiff.eq_of_prefixSum (f := fun i => Memory.read m (o.B + r * o.W + i))
      (fun i hi => (unpred8_row o r i hi m).trans (sum8_eq_prefixSum _ _ i)) hj

theorem pred16_row_differences (o : Op) (r : Nat) (m : Memory) :
    IsDifferences o.W (fun i => Memory.read16 m (o.B + 2 * (r * o.W + i)))
      (fun i => Memory.read16 (runItem (pred16Row o r) m) (o.B + 2 * (r * o.W + i))) :=
  fun i hi => pred16_row o r i hi m

theorem unpred16_row_prefixSum (o : Op) (r : Nat) (m : Memory) (i : Nat) (hi : i < o.W) :
    Memory.read16 (runItem (unpred16Row o r) m) (o.B + 2 * (r * o.W + i)) =
      prefixSum (fun q => Memory.read16 m (o.B + 2 * (r * o.W + q))) i := by
  rw [unpred16_row o r i hi m, sum16_eq_prefixSum]
  exact congrArg (fun a => prefixSum a i) (funext fun q => congrArg _ (by ring))

theorem pred16_inverse (o : Op) : (pred16Work o).Inverse (unpred16Work o) o.B (2 * o.W) where
  sameDepth := rfl
  sameCount := rfl
  isLocal := pred16Work_local o
  isLocal' := unpred16Work_local o
  undo r m := samples16_eq_iff.1 fun j hj =>
    (unpred16_row_prefixSum o r _ j hj).trans ((pred16_row_differences o r m).prefixSum_eq hj)
  undo' r m := samples16_eq_iff.1 fun _ hj =>
    (pred16_row_differences o r _).eq_of_prefixSum (unpred16_row_prefixSum o r m) hj

/-! ### The chains of a row at depth 32 -/

/-- Where the chain through plane `q` begins in the staged row: at the plane, or, with `PLANE_CARRY`, at the row. -/
def chainStart (carry : Bool) (W q : Nat) : Nat := if carry then 0 else q * W

/-- The place of column `j` of plane `q` in its chain. -/
def chainIndex (carry : Bool) (W q j : Nat) : Nat := if carry then q * W + j else j

/-- The number of bytes in one chain. -/
def chainLength (carry : Bool) (W : Nat) : Nat := if carry then 4 * W else W

theorem chainStart_add_chainIndex (carry : Bool) (W q j : Nat) :
    chainStart carry W q + chainIndex carry W q j = q * W + j := by
  cases carry <;> simp [chainStart, chainIndex]

theorem planeIndex_lt {W q j : Nat} (hq : q < 4) (hj : j < W) : q * W + j < 4 * W := by
  have := Nat.mul_le_mul_right W (show q + 1 ≤ 4 by omega)
  rw [Nat.add_mul] at this
  omega

theorem chainIndex_lt {W q j : Nat} (carry : Bool) (hq : q < 4) (hj : j < W) :
    chainIndex carry W q j < chainLength carry W := by
  cases carry with
  | false => exact hj
  | true => exact planeIndex_lt hq hj

theorem chainIndex_eq_zero_iff {W q j : Nat} (carry : Bool) (hj : j < W) :
    chainIndex carry W q j = 0 ↔ j = 0 ∧ (carry = false ∨ q = 0) := by
  have hW : W ≠ 0 := by omega
  cases carry <;> simp [chainIndex, hW, and_comm]

/-- A legal `PLANE_ORDER` puts some byte of the word into every plane. -/
theorem PlaneOrder.exists_plane_eq {p : PlaneOrder} (hp : p.wf = true) {q : Nat} (hq : q < 4) :
    ∃ k, k < 4 ∧ p.plane k = q := by
  have hinj : Function.Injective (fun k : Fin 4 => (⟨p.plane k, PlaneOrder.plane_lt p k⟩ : Fin 4)) := fun a b hab =>
    Fin.ext (PlaneOrder.plane_inj hp a.isLt b.isLt (congrArg Fin.val hab))
  obtain ⟨k, hk⟩ := Finite.surjective_of_injective hinj ⟨q, hq⟩
  exact ⟨k, k.isLt, congrArg Fin.val hk⟩

/-- Every byte of the staged row is column `j` of the plane of some byte `k`. -/
theorem PlaneOrder.exists_planeIndex_eq {p : PlaneOrder} (hp : p.wf = true) {W n : Nat} (hn : n < 4 * W) :
    ∃ j k, j < W ∧ k < 4 ∧ p.plane k * W + j = n := by
  have hW : 0 < W := by omega
  obtain ⟨k, hk, hplane⟩ := PlaneOrder.exists_plane_eq hp ((Nat.div_lt_iff_lt_mul hW).2 hn)
  exact ⟨n % W, k, Nat.mod_lt n hW, hk, by rw [hplane, Nat.div_add_mod']⟩

/-- Every place of the chain through plane `q` is column `j` of the plane of some byte `k` on that chain. -/
theorem PlaneOrder.exists_chainIndex_eq {p : PlaneOrder} (hp : p.wf = true) (carry : Bool) {W q i : Nat} (hq : q < 4)
    (hi : i < chainLength carry W) :
    ∃ j k, j < W ∧ k < 4 ∧ chainStart carry W (p.plane k) = chainStart carry W q ∧
      chainIndex carry W (p.plane k) j = i := by
  cases carry with
  | false =>
    obtain ⟨k, hk, hplane⟩ := PlaneOrder.exists_plane_eq hp hq
    exact ⟨i, k, hi, hk, by rw [hplane], rfl⟩
  | true =>
    obtain ⟨j, k, hj, hk, hindex⟩ := PlaneOrder.exists_planeIndex_eq hp hi
    exact ⟨j, k, hj, hk, rfl, hindex⟩

/-- One row of `UNPRED.32`, chain by chain. -/
theorem unpred32_row_prefixSum (p : Params) (o : Op) (r : Nat) {j k : Nat} (hj : j < o.W) (hk : k < 4) (m : Memory) :
    Memory.read (runItem (unpred32Row p o r) m) (rowBase32 o r + 4 * j + k) =
      prefixSum
        (fun i => Memory.read m (rowBase32 o r + (chainStart p.planeCarry o.W (p.planeOrder.plane k) + i)))
        (chainIndex p.planeCarry o.W (p.planeOrder.plane k) j) := by
  rw [unpred32_row p o r j k hj hk m]
  cases p.planeCarry with
  | false => simp [chainStart, chainIndex, sum8_eq_prefixSum, Nat.add_assoc]
  | true => simp [chainStart, chainIndex, sum8_eq_prefixSum]

/-- One row of `PRED.32`, chain by chain, for a legal `PLANE_ORDER`: the staged row and its differences. -/
theorem pred32_row_differences (p : Params) (o : Op) (hp : p.planeOrder.wf = true) (r : Nat) (m : Memory) :
    ∃ stage : Memory,
      (∀ j k, j < o.W → k < 4 →
        Memory.read stage (p.planeOrder.plane k * o.W + j) = Memory.read m (rowBase32 o r + 4 * j + k)) ∧
      ∀ q, q < 4 → IsDifferences (chainLength p.planeCarry o.W)
        (fun i => Memory.read stage (chainStart p.planeCarry o.W q + i))
        (fun i => Memory.read (runItem (pred32Row p o r) m) (rowBase32 o r + (chainStart p.planeCarry o.W q + i))) := by
  obtain ⟨stage, hstage, hdiff⟩ := pred32_row p o hp r m
  refine ⟨stage, hstage, fun q hq i hi => ?_⟩
  obtain ⟨j, k, hj, hk, hstart, rfl⟩ := PlaneOrder.exists_chainIndex_eq hp p.planeCarry hq hi
  have hplace := chainStart_add_chainIndex p.planeCarry o.W (p.planeOrder.plane k) j
  have hzero := chainIndex_eq_zero_iff (q := p.planeOrder.plane k) p.planeCarry hj
  simp only [← hstart, hplace, hdiff _ j (PlaneOrder.plane_lt p.planeOrder k) hj, ← hzero]
  by_cases h0 : chainIndex p.planeCarry o.W (p.planeOrder.plane k) j = 0
  · rw [if_pos h0, if_pos h0]
  · rw [if_neg h0, if_neg h0, ← hplace, Nat.add_sub_assoc (Nat.pos_of_ne_zero h0)]

theorem rowBase32_eq (o : Op) (r : Nat) : rowBase32 o r = o.B + r * (4 * o.W) := by
  rw [rowBase32, show 4 * r * o.W = r * (4 * o.W) by ring]

theorem pred32_inverse (p : Params) (o : Op) (hp : p.planeOrder.wf = true) :
    (pred32Work p o).Inverse (unpred32Work p o) o.B (4 * o.W) where
  sameDepth := rfl
  sameCount := rfl
  isLocal := pred32Work_local p o
  isLocal' := unpred32Work_local p o
  undo r m x hx := by
    obtain ⟨n, hn, rfl⟩ := inBlock_iff.1 hx
    obtain ⟨stage, hstage, hdiff⟩ := pred32_row_differences p o hp r m
    have hj : n / 4 < o.W := by omega
    have hk : n % 4 < 4 := by omega
    have hq := PlaneOrder.plane_lt p.planeOrder (n % 4)
    have hsums := (hdiff _ hq).prefixSum_eq (chainIndex_lt p.planeCarry hq hj)
    have hplace : o.B + r * (4 * o.W) + n = rowBase32 o r + 4 * (n / 4) + n % 4 := by
      rw [rowBase32_eq]
      omega
    rw [chainStart_add_chainIndex, hstage _ _ hj hk] at hsums
    rw [hplace]
    exact (unpred32_row_prefixSum p o r hj hk _).trans hsums
  undo' r m x hx := by
    obtain ⟨n, hn, rfl⟩ := inBlock_iff.1 hx
    obtain ⟨stage, hstage, hdiff⟩ := pred32_row_differences p o hp r (runItem (unpred32Row p o r) m)
    obtain ⟨j, k, hj, hk, hindex⟩ := PlaneOrder.exists_planeIndex_eq hp hn
    have hq := PlaneOrder.plane_lt p.planeOrder k
    have hsums : ∀ i, i < chainLength p.planeCarry o.W →
        Memory.read stage (chainStart p.planeCarry o.W (p.planeOrder.plane k) + i) = prefixSum
          (fun c => Memory.read m (rowBase32 o r + (chainStart p.planeCarry o.W (p.planeOrder.plane k) + c))) i := by
      intro i hi
      obtain ⟨j', k', hj', hk', hstart, rfl⟩ := PlaneOrder.exists_chainIndex_eq hp p.planeCarry hq hi
      rw [← hstart, chainStart_add_chainIndex, hstage _ _ hj' hk']
      exact unpred32_row_prefixSum p o r hj' hk' m
    have hback := (hdiff _ hq).eq_of_prefixSum hsums (chainIndex_lt p.planeCarry hq hj)
    rw [chainStart_add_chainIndex, hindex, rowBase32_eq] at hback
    exact hback

/-- Settles O38: at each depth the rows of the two commands undo each other, in either order. -/
theorem predictionRoundTrip : Obligations.PredictionRoundTrip := by
  intro s d hd hb hf hp
  cases d with
  | d1 => exact absurd rfl hd
  | d8 => exact ⟨(pred8_inverse s.op).exec_exec rfl rfl hb hf, (pred8_inverse s.op).symm.exec_exec rfl rfl hb hf⟩
  | d16 => exact ⟨(pred16_inverse s.op).exec_exec rfl rfl hb hf, (pred16_inverse s.op).symm.exec_exec rfl rfl hb hf⟩
  | d32 =>
    have hinverse := pred32_inverse s.params s.op hp
    exact ⟨hinverse.exec_exec rfl rfl hb hf, hinverse.symm.exec_exec rfl rfl hb hf⟩

end Sys2Proof.Machine

/-! The decoder against the opcode and packet maps (30_encoding.md, R80 to R88). -/

namespace Sys2Proof

/-- The three fields of R81 are the whole word. -/
theorem word_eq_fields (w : Word) : w = rsvField w ++ dselField w ++ opcField w := by
  apply BitVec.eq_of_getLsbD_eq
  intro i hi
  simp only [rsvField, dselField, opcField, BitVec.getLsbD_append, BitVec.getLsbD_extractLsb']
  by_cases h4 : i < 4
  · simp [h4]
  · by_cases h6 : i < 6
    · simp [h4, show i - 4 < 2 by omega, show 4 + (i - 4) = i by omega]
    · simp [h4, show ¬ i - 4 < 2 by omega, show i - 4 - 2 < 26 by omega, show 6 + (i - 4 - 2) = i by omega]

theorem encode_rledec_depthOf : ∀ ds, encode (.rledec (depthOf ds)) = .command (0#26 ++ ds ++ 1#4) := by decide
theorem encode_swap_depthOf : ∀ ds, encode (.swap (depthOf ds)) = .command (0#26 ++ ds ++ 2#4) := by decide
theorem encode_unpred_depthOf : ∀ ds, encode (.unpred (depthOf ds)) = .command (0#26 ++ ds ++ 3#4) := by decide
theorem encode_pred_depthOf : ∀ ds, encode (.pred (depthOf ds)) = .command (0#26 ++ ds ++ 4#4) := by decide

/-- The decoder of command words, by the operation code: what `OPC` selects, at the depth of `DSEL`. -/
inductive CommandFields (w : Word) : Except Reject Instr → Prop
  | rledec (rsv : rsvField w = 0#26) (opc : opcField w = 1#4) : CommandFields w (.ok (.rledec (depthOf (dselField w))))
  | swap (rsv : rsvField w = 0#26) (opc : opcField w = 2#4) : CommandFields w (.ok (.swap (depthOf (dselField w))))
  | unpred (rsv : rsvField w = 0#26) (opc : opcField w = 3#4) : CommandFields w (.ok (.unpred (depthOf (dselField w))))
  | pred (rsv : rsvField w = 0#26) (opc : opcField w = 4#4) : CommandFields w (.ok (.pred (depthOf (dselField w))))
  | reservedBits (rsv : rsvField w ≠ 0#26) : CommandFields w (.error .reservedBits)
  | reservedOpc (opc : opcField w = 0#4 ∨ 5 ≤ (opcField w).toNat) : CommandFields w (.error .reservedOpc)

theorem opcode_reserved :
    ∀ c : BitVec 4, c ≠ 1#4 → c ≠ 2#4 → c ≠ 3#4 → c ≠ 4#4 → c = 0#4 ∨ 5 ≤ c.toNat := by decide

theorem decodeCommand_fields (w : Word) : CommandFields w (decodeCommand w) := by
  unfold decodeCommand
  split
  · next hrsv => exact .reservedBits hrsv
  next hrsv =>
  have hrsv := not_not.1 hrsv
  split
  · next h1 => exact .rledec hrsv h1
  next h1 =>
  split
  · next h2 => exact .swap hrsv h2
  next h2 =>
  split
  · next h3 => exact .unpred hrsv h3
  next h3 =>
  split
  · next h4 => exact .pred hrsv h4
  next h4 => exact .reservedOpc (opcode_reserved _ h1 h2 h3 h4)

/-- A command word that decodes is the encoding of what it decodes to. -/
theorem encode_of_decodeCommand {w : Word} {i : Instr} (h : decodeCommand w = .ok i) : encode i = .command w := by
  have hfields := decodeCommand_fields w
  rw [h] at hfields
  conv_rhs => rw [word_eq_fields w]
  cases hfields with
  | rledec rsv opc => rw [rsv, opc]; exact encode_rledec_depthOf _
  | swap rsv opc => rw [rsv, opc]; exact encode_swap_depthOf _
  | unpred rsv opc => rw [rsv, opc]; exact encode_unpred_depthOf _
  | pred rsv opc => rw [rsv, opc]; exact encode_pred_depthOf _

theorem wf_of_decodeCommand {w : Word} {i : Instr} (h : decodeCommand w = .ok i) : i.wf = true := by
  obtain ⟨d, rfl | rfl | rfl | rfl⟩ := Machine.decodeCommand_cases h <;> cases d <;> rfl

/-- The two fields of R86 are the whole header. -/
theorem header_eq_fields (h : Byte) : h = BitVec.ofBool (kindBit h) ++ countField h := by
  apply BitVec.eq_of_getLsbD_eq
  intro i hi
  simp only [kindBit, countField, BitVec.getLsbD_append, BitVec.getLsbD_extractLsb']
  by_cases h7 : i < 7
  · simp [h7]
  · simp [show i = 7 by omega]

/-- The packet a header begins is well formed, and encodes to that header. -/
theorem decodePacket_spec (h : Byte) :
    (decodePacket h).instr.wf = true ∧ encode (decodePacket h).instr = .header h := by
  have hwhole := header_eq_fields h
  unfold decodePacket
  split
  · next hmark => exact ⟨rfl, by rw [hmark]; rfl⟩
  next hmark =>
  split
  · next hkind =>
    rw [hkind] at hwhole
    exact ⟨rfl, congrArg Coded.header hwhole.symm⟩
  · next hkind =>
    rw [Bool.not_eq_false] at hkind
    rw [hkind] at hwhole
    refine ⟨?_, congrArg Coded.header hwhole.symm⟩
    simp only [Packet.instr, Instr.wf, bne_iff_ne, ne_eq]
    intro hzero
    rw [hzero] at hwhole
    exact hmark hwhole

theorem decodePacket_lit_header : ∀ c7, decodePacket (0#1 ++ c7) = .lit c7 := by decide
theorem decodePacket_rpt_header : ∀ c7, c7 ≠ 0#7 → decodePacket (1#1 ++ c7) = .rpt c7 := by decide

theorem decode_encode {i : Instr} (h : i.wf = true) : decode (encode i) = .ok i := by
  cases i with
  | lit c7 => exact congrArg (fun p => Except.ok (Packet.instr p)) (decodePacket_lit_header c7)
  | rpt c7 =>
    simp only [Instr.wf, bne_iff_ne] at h
    exact congrArg (fun p => Except.ok (Packet.instr p)) (decodePacket_rpt_header c7 h)
  | _ => rfl

/-- Settles O1: the fields of a coded unit are the whole of it, so what decodes is an encoding; the other direction is
one evaluation for each row of the two maps. -/
theorem decodeEncodeAgree : Obligations.DecodeEncodeAgree := by
  intro c i
  constructor
  · intro hdec
    cases c with
    | command w => exact ⟨wf_of_decodeCommand hdec, encode_of_decodeCommand hdec⟩
    | header h =>
      obtain rfl := Except.ok.inj hdec
      exact decodePacket_spec h
  · rintro ⟨hwf, rfl⟩
    exact decode_encode hwf

/-- Settles O2, by the decoder's cases: the four operation codes of R82 exclude the reserved ones. -/
theorem reservedWordsAreRejected : Obligations.ReservedWordsAreRejected := by
  intro w
  have hfields := decodeCommand_fields w
  cases hdec : decodeCommand w with
  | error e =>
    rw [hdec] at hfields
    refine iff_of_true ⟨e, rfl⟩ ?_
    cases hfields with
    | reservedBits rsv => exact .inl rsv
    | reservedOpc opc => exact .inr opc
  | ok i =>
    rw [hdec] at hfields
    refine iff_of_false (fun ⟨_, he⟩ => nomatch he) ?_
    cases hfields with
    | rledec rsv opc | swap rsv opc | unpred rsv opc | pred rsv opc =>
      rw [rsv, opc]
      decide

/-- Settles O3, by evaluating the decoder. -/
theorem sampleWordsDecode : Obligations.SampleWordsDecode := by
  unfold Obligations.SampleWordsDecode
  decide

end Sys2Proof

/-! What one move of the block can do, case by case, and the invariants that every step keeps (10_state.md R23, R33,
R34, R38; 20_memory.md R51). -/

namespace Sys2Proof.Machine

/-! ### Moves of the block, case by case -/

/-- What a turn of the stream can do: end the command, go on to the next row, or run a packet. -/
inductive State.StreamMove (s t : State) : Prop
  | ends (n : Nat) (ending : State.EndsAs s t n)
  | nextRow (result : t = s.nextRow)
  | packet (p : Packet) (ran : State.PacketRan s t p)

theorem State.streamTurn_cases {s t : State} (h : s.streamTurn runPacket = .next t) : State.StreamMove s t := by
  unfold State.streamTurn at h
  split at h
  · obtain rfl := Host.Outcome.next.inj h
    exact .ends _ s.rleEnd_endsAs
  · obtain rfl := Host.Outcome.next.inj h
    exact .nextRow rfl
  · obtain rfl := Host.Outcome.next.inj h
    exact .ends _ (s.rleRaise_endsAs _ _ _)
  · split at h
    · simp at h
    · rcases runPacket_cases s s.fetchPacket with ⟨k, hk⟩ | ⟨a, ha⟩ | ⟨u, hu, hran, -⟩
      · rw [hk] at h
        obtain rfl := Host.Outcome.next.inj h
        exact .ends _ (s.rleRaise_endsAs _ _ _)
      · simp [ha] at h
      · rw [hu] at h
        obtain rfl := Host.Outcome.next.inj h
        exact .packet _ hran

/-- What a turn of the rows by lane `lane` can do: end the command at the join, let the free lane take the `pick`-th
waiting item, let the lane go at the end of its item, do its next byte operation, or nothing. -/
inductive State.LaneMove (s t : State) (w : Work) (lane pick : Nat) : Prop
  | joins (joined : s.joined = true) (result : t = s.endCommand w.written .ok)
  | stays (notJoined : s.joined = false)
      (nothing : s.lanes[lane]? = none ∨ s.lanes[lane]? = some none ∧ s.todo[pick]? = none) (same : t = s)
  | takes (item : Nat) (isFree : s.lanes[lane]? = some none) (waits : s.todo[pick]? = some item)
      (result : t = s.takeItem lane pick)
  | frees (ln : Lane) (works : s.lanes[lane]? = some (some ln)) (itemEnd : (w.prog ln.item)[ln.pos]? = none)
      (result : t = { s with lanes := s.lanes.set lane none })
  | operates (ln : Lane) (b : ByteOp) (works : s.lanes[lane]? = some (some ln))
      (next : (w.prog ln.item)[ln.pos]? = some b) (exist : ∀ a ∈ b.touched, a < s.params.memSize)
      (result : t = { s with
        mem := (b.run (s.mem, ln.stage)).1
        lanes := s.lanes.set lane (some ⟨ln.item, ln.pos + 1, (b.run (s.mem, ln.stage)).2⟩) })

theorem State.takeItem_of_waits {s : State} {lane pick item : Nat} (h : s.todo[pick]? = some item) :
    s.takeItem lane pick =
      { s with todo := s.todo.eraseIdx pick, lanes := s.lanes.set lane (some ⟨item, 0, []⟩) } := by
  rw [State.takeItem, h]

theorem State.laneTurn_cases {s t : State} {w : Work} {lane pick : Nat} (h : s.laneTurn w lane pick = .next t) :
    State.LaneMove s t w lane pick := by
  unfold State.laneTurn at h
  split at h
  · next hjoined => exact .joins hjoined (Host.Outcome.next.inj h).symm
  next hjoined =>
  rw [Bool.not_eq_true] at hjoined
  split at h
  · next hnone => exact .stays hjoined (.inl hnone) (Host.Outcome.next.inj h).symm
  · next hfree =>
    obtain rfl := Host.Outcome.next.inj h
    cases hwaits : s.todo[pick]? with
    | none => exact .stays hjoined (.inr ⟨hfree, hwaits⟩) (by rw [State.takeItem, hwaits])
    | some item => exact .takes item hfree hwaits rfl
  · next ln hworks =>
    unfold State.moveLane at h
    split at h
    · next hend => exact .frees ln hworks hend (Host.Outcome.next.inj h).symm
    · next b hnext =>
      split at h
      · simp at h
      · next hexist =>
        refine .operates ln b hworks hnext (fun a ha => ?_) (Host.Outcome.next.inj h).symm
        simpa using List.find?_eq_none.1 hexist a ha

/-- Everything a move of the block can do, with what it leaves in the cursors and the lanes. -/
inductive State.BlockCase (s t : State) : Prop
  | rest (idle : s.phase = .idle) (same : t = s)
  | ends (atStart : s.phase = .start) (n : Nat) (ending : State.EndsAs s t n)
  | beginsStream (atStart : s.phase = .start) (d : Depth) (depth : s.op.rleDepth = some d)
      (fits : rleFits s.params.memSize d s.op = true) (result : t = s.beginStream d)
  | beginsItems (atStart : s.phase = .start) (w : Work) (work : s.op.work s.params = some w)
      (fits : bufferFits s.params.memSize w.depth s.op = true)
      (result : t = { s with
        phase := .items, todo := List.range w.count, lanes := List.replicate s.params.lanes none })
  | stream (inStream : s.phase = .stream) (turn : s.streamTurn runPacket = .next t)
  | items (inItems : s.phase = .items) (w : Work) (work : s.op.work s.params = some w) (lane pick : Nat)
      (move : State.LaneMove s t w lane pick)
  | noItems (inItems : s.phase = .items) (same : t = s)

theorem State.beginCommand_cases {s : State} (hp : s.phase = .start) : State.BlockCase s s.beginCommand := by
  unfold State.beginCommand
  split
  · next d hd =>
    unfold State.rleStart
    by_cases hfits : rleFits s.params.memSize d s.op = true
    · rw [if_pos hfits]
      exact .beginsStream hp d hd hfits rfl
    · rw [if_neg hfits]
      exact .ends hp _ (State.endRleStart_endsAs s _ _)
  · next w _ hw =>
    unfold State.beginWork
    split
    · next hfits => exact .beginsItems hp w hw hfits rfl
    · exact .ends hp _ (State.endCommand_endsAs s _ _)
  · exact .ends hp _ (State.unsupported_endsAs s 0)

theorem State.stepItems_cases {s t : State} {lane pick : Nat} (hp : s.phase = .items)
    (h : s.stepItems lane pick = .next t) : State.BlockCase s t := by
  unfold State.stepItems at h
  split at h
  · next w hw => exact .items hp w hw lane pick (State.laneTurn_cases h)
  · exact .noItems hp (Host.Outcome.next.inj h).symm

theorem State.block_cases {s t : State}
    (h : s.blockStep = .next t ∨ ∃ lane pick, s.turnStep lane pick = .next t) : State.BlockCase s t := by
  rcases h with h | ⟨lane, pick, h⟩
  · unfold State.blockStep at h
    split at h
    · next hp => exact .rest hp (Host.Outcome.next.inj h).symm
    · next hp =>
      obtain ⟨u, n, hu, he⟩ := s.runCommand_ends
      rw [hu] at h
      obtain rfl := Host.Outcome.next.inj h
      exact .ends hp n he
    · next hp => exact .stream hp (State.stepStream_eq s ▸ h)
    · next hp => exact State.stepItems_cases hp h
  · unfold State.turnStep at h
    split at h
    · next hp => exact .rest hp (Host.Outcome.next.inj h).symm
    · next hp =>
      obtain rfl := Host.Outcome.next.inj h
      exact State.beginCommand_cases hp
    · next hp => exact .stream hp (State.stepStream_eq s ▸ h)
    · next hp => exact State.stepItems_cases hp h

/-! ### `STATUS` -/

theorem State.StatusInv.congr {s t : State} (h : s.StatusInv) (hbusy : t.busy = s.busy) (hdone : t.done = s.done)
    (herrv : t.errv = s.errv) (hecode : t.ecode = s.ecode) : t.StatusInv := by
  rw [State.StatusInv, hbusy, hdone, herrv, hecode]
  exact h

theorem State.BlockMove.statusInv {s t : State} (h : State.BlockMove s t) (hs : s.StatusInv) : t.StatusInv := by
  cases h with
  | rest _ same => rwa [same]
  | ends busy n ending =>
    obtain ⟨-, herr, hcode⟩ := hs
    have herrv : s.errv = false := by
      rw [← Bool.not_eq_true]
      exact fun he => busy (State.busy_eq_false_iff.1 (herr he).1)
    exact ending.statusInv herrv (hcode herrv)
  | goesOn h =>
    have hafter : t.phase ≠ .idle := by
      rcases h.after with hp | hp | hp <;> simp [hp, h.before]
    refine hs.congr ?_ (by rw [h.shape]) (by rw [h.shape]) (by rw [h.shape])
    rw [State.busy_eq_true_iff.2 hafter, State.busy_eq_true_iff.2 h.before]

theorem State.Stores.statusInv {s t : State} (h : State.Stores s t) (hs : s.StatusInv) : t.StatusInv := by
  obtain ⟨hdone, herr, hcode⟩ := hs
  have hbusy : t.busy = s.busy := by rw [h.shape]; rfl
  have hrun : s.busy = true → t.done = false := fun hb => by
    rw [← Bool.not_eq_true]
    exact fun ht => Bool.false_ne_true ((hdone hb).symm.trans (h.done ht))
  rw [State.StatusInv, hbusy]
  rcases h.error with ⟨herrv, hecode⟩ | ⟨-, herrv, hecode⟩
  · rw [herrv, hecode]
    exact ⟨hrun, herr, hcode⟩
  · rw [herrv, hecode]
    exact ⟨hrun, fun hf => absurd hf Bool.false_ne_true, fun _ => rfl⟩

/-- Settles O50, by the kinds of a step: only an ending, an accepted command, a write of `STATUS` and `rst` touch the
fields of R23. -/
theorem statusInvariantKept : Obligations.StatusInvariantKept := by
  intro s t hs hstep
  cases step_kinds hstep with
  | block r move => exact (State.move_of_either move).statusInv hs
  | looks r move =>
    exact hs.congr (by rw [move.shape]; rfl) (by rw [move.shape]) (by rw [move.shape]) (by rw [move.shape])
  | stores off v r head result move => exact move.statusInv hs
  | accepts v r head idle errv result =>
    obtain ⟨-, -, hcode⟩ := hs
    rw [result]
    exact ⟨fun _ => rfl, fun he => absurd (errv.symm.trans he) Bool.false_ne_true, fun _ => hcode errv⟩
  | rst r head result =>
    rw [result]
    exact ⟨fun _ => rfl, fun he => absurd he Bool.false_ne_true, fun _ => rfl⟩

/-! ### Memory -/

/-- Every staging copy of a list of lanes is in canonical form. -/
def StagesWf (lanes : List (Option Lane)) : Prop := ∀ l ∈ lanes, ∀ ln, l = some ln → Memory.wf ln.stage = true

theorem StagesWf.set {lanes : List (Option Lane)} (h : StagesWf lanes) (k : Nat) {v : Option Lane}
    (hv : ∀ ln, v = some ln → Memory.wf ln.stage = true) : StagesWf (lanes.set k v) := by
  intro l hl
  rcases List.mem_or_eq_of_mem_set hl with hold | rfl
  · exact h l hold
  · exact hv

theorem State.StreamMove.memInv {s t : State} (h : State.StreamMove s t) (hs : s.MemInv) : t.MemInv := by
  obtain ⟨hwf, hwithin, hstages⟩ := hs
  cases h with
  | ends n ending => exact ending.memInv hwf hwithin
  | nextRow result =>
    rw [result]
    exact ⟨hwf, hwithin, hstages⟩
  | packet p ran =>
    have hwf' := ran.wf hwf
    have hwithin' := ran.within hwithin
    rw [ran.shape]
    exact ⟨hwf', hwithin', hstages⟩

theorem State.LaneMove.memInv {s t : State} {w : Work} {lane pick : Nat} (h : State.LaneMove s t w lane pick)
    (hs : s.MemInv) : t.MemInv := by
  obtain ⟨hwf, hwithin, hstages⟩ := hs
  cases h with
  | joins _ result =>
    rw [result]
    exact (State.endCommand_endsAs s _ _).memInv hwf hwithin
  | stays _ _ same =>
    rw [same]
    exact ⟨hwf, hwithin, hstages⟩
  | takes item _ waits result =>
    rw [result, State.takeItem_of_waits waits]
    refine ⟨hwf, hwithin, StagesWf.set hstages lane ?_⟩
    rintro ln ⟨⟩
    rfl
  | frees ln _ _ result =>
    rw [result]
    exact ⟨hwf, hwithin, StagesWf.set hstages lane (fun _ h => nomatch h)⟩
  | operates ln b works _ exist result =>
    obtain ⟨hmem, hstage⟩ := b.run_wf hwf (hstages _ (List.mem_of_getElem? works) ln rfl)
    rw [result]
    refine ⟨hmem, b.run_within exist hwithin, StagesWf.set hstages lane ?_⟩
    rintro _ ⟨⟩
    exact hstage

theorem State.BlockCase.memInv {s t : State} (h : State.BlockCase s t) (hs : s.MemInv) : t.MemInv := by
  cases h with
  | rest _ same | noItems _ same => rwa [same]
  | ends _ n ending =>
    obtain ⟨hwf, hwithin, -⟩ := hs
    exact ending.memInv hwf hwithin
  | beginsStream _ d _ _ result => rwa [result]
  | beginsItems _ w _ _ result =>
    obtain ⟨hwf, hwithin, -⟩ := hs
    rw [result]
    refine ⟨hwf, hwithin, fun l hl ln hln => ?_⟩
    rw [List.eq_of_mem_replicate hl] at hln
    cases hln
  | stream _ turn => exact (State.streamTurn_cases turn).memInv hs
  | items _ w _ _ _ move => exact move.memInv hs

theorem State.rst_wf {s : State} (h : Memory.wf s.mem = true) : Memory.wf s.rst.mem = true := by
  unfold State.rst
  dsimp only [State.resetWith]
  split
  · exact State.havocWritten_wf _ _ h
  · exact h

theorem State.rst_within {s : State} (h : Memory.within s.params.memSize s.mem = true) :
    Memory.within s.params.memSize s.rst.mem = true := by
  unfold State.rst
  dsimp only [State.resetWith]
  split
  · exact State.havocWritten_within _ _ h
  · exact h

/-- Settles O51, by the kinds of a step: every write to memory is below `MEMSIZE` and keeps the canonical form. -/
theorem memoryInvariantKept : Obligations.MemoryInvariantKept := by
  intro s t hs hstep
  cases step_kinds hstep with
  | block r move => exact (State.block_cases move).memInv hs
  | looks r move =>
    obtain ⟨hwf, hwithin, hstages⟩ := hs
    have hwf' := move.wf hwf
    have hwithin' := move.within hwithin
    rw [move.shape]
    exact ⟨hwf', hwithin', hstages⟩
  | stores off v r head result move =>
    rw [move.shape]
    exact hs
  | accepts v r head idle errv result => rwa [result]
  | rst r head result =>
    obtain ⟨hwf, hwithin, -⟩ := hs
    rw [result]
    exact ⟨State.rst_wf hwf, State.rst_within (s := { s with inputs := r }) hwithin,
      fun l hl => absurd hl List.not_mem_nil⟩

/-! ### Steps that are no move of the block -/

/-- The sequencer, the latch, the cursors, the items and the parameters are as they were. -/
structure State.KeepsWork (s t : State) : Prop where
  phase : t.phase = s.phase
  op : t.op = s.op
  cur : t.cur = s.cur
  todo : t.todo = s.todo
  lanes : t.lanes = s.lanes
  params : t.params = s.params

theorem State.Looks.keepsWork {s t : State} (h : State.Looks s t) : State.KeepsWork s t := by
  rw [h.shape]
  exact ⟨rfl, rfl, rfl, rfl, rfl, rfl⟩

theorem State.Stores.keepsWork {s t : State} (h : State.Stores s t) : State.KeepsWork s t := by
  rw [h.shape]
  exact ⟨rfl, rfl, rfl, rfl, rfl, rfl⟩

/-! ### The cursors of the stream -/

theorem State.streamInv_iff {s : State} :
    s.StreamInv ↔ (s.phase = .stream → ∃ d, s.op.rleDepth = some d ∧ s.StreamOk d) := by
  refine imp_congr_right fun _ => exists_congr fun d => and_congr_right fun _ => ?_
  exact ⟨fun ⟨fits, rb, row, out, sp, last⟩ => ⟨fits, rb, row, out, sp, last⟩,
    fun ⟨fits, rb, row, out, sp, last⟩ => ⟨fits, rb, row, out, sp, last⟩⟩

theorem State.StreamInv.of_phase {s : State} (h : s.phase ≠ .stream) : s.StreamInv := fun hp => absurd hp h

theorem State.KeepsWork.streamInv {s t : State} (h : State.KeepsWork s t) (hs : s.StreamInv) : t.StreamInv := by
  rw [State.StreamInv, h.phase, h.op, h.cur, h.params]
  exact hs

theorem State.LaneMove.phase {s t : State} {w : Work} {lane pick : Nat} (h : State.LaneMove s t w lane pick) :
    t.phase = .idle ∨ t.phase = s.phase := by
  cases h with
  | joins _ result => exact .inl (by rw [result, State.endCommand_phase])
  | takes _ _ waits result => exact .inr (by rw [result, State.takeItem_of_waits waits])
  | stays _ _ result | frees _ _ _ result | operates _ _ _ _ _ result => exact .inr (by rw [result])

theorem State.BlockCase.streamInv {s t : State} (h : State.BlockCase s t) (hs : s.StreamInv) : t.StreamInv := by
  cases h with
  | rest _ same | noItems _ same => rwa [same]
  | ends _ n ending => exact .of_phase (by simp [ending.over.1])
  | beginsStream _ d depth fits result =>
    rw [result, State.streamInv_iff]
    exact fun _ => ⟨d, depth, State.beginStream_ok fits⟩
  | beginsItems _ w _ _ result => exact .of_phase (by simp [result])
  | items inItems w _ _ _ move =>
    refine .of_phase ?_
    rcases move.phase with hp | hp <;> simp [hp, inItems]
  | stream inStream turn =>
    obtain ⟨d, hd, hok⟩ := State.streamInv_iff.1 hs inStream
    obtain ⟨u, hu, hcase⟩ := hok.turn
    obtain rfl := Host.Outcome.next.inj (hu.symm.trans turn)
    rcases hcase with hends | ⟨hshape, hok', -⟩
    · exact .of_phase (by simp [hends.over.1])
    · refine State.streamInv_iff.2 fun _ => ⟨d, ?_, hok'⟩
      rw [hshape]
      exact hd

/-- Settles O52, by the kinds of a step: only the block moves the cursors, and a turn of a stream in range stays in
range or ends it. -/
theorem streamInvariantKept : Obligations.StreamInvariantKept := by
  intro s t hs hstep
  cases step_kinds hstep with
  | block r move => exact (State.block_cases move).streamInv hs
  | looks r move => exact move.keepsWork.streamInv hs
  | stores off v r head result move => exact move.keepsWork.streamInv hs
  | accepts v r head idle errv result => exact .of_phase (by simp [result])
  | rst r head result => exact .of_phase (by simp [result])

/-! ### The items in lanes and the items that wait -/

/-- The items the lanes work on. -/
def laneItems (lanes : List (Option Lane)) : List Nat := lanes.filterMap (fun l => l.map Lane.item)

theorem lanes_perm {lanes : List (Option Lane)} {k : Nat} {l : Option Lane} (h : lanes[k]? = some l) :
    lanes.Perm (l :: lanes.eraseIdx k) := by
  obtain ⟨hk, rfl⟩ := List.getElem?_eq_some_iff.1 h
  exact (List.getElem_cons_eraseIdx_perm hk).symm

theorem lanes_set_perm {lanes : List (Option Lane)} {k : Nat} {l : Option Lane} (h : lanes[k]? = some l)
    (v : Option Lane) : (lanes.set k v).Perm (v :: lanes.eraseIdx k) := by
  obtain ⟨hk, -⟩ := List.getElem?_eq_some_iff.1 h
  exact List.set_perm_cons_eraseIdx hk v

theorem laneItems_set_some {lanes : List (Option Lane)} {k : Nat} (h : lanes[k]? = some none) (ln : Lane) :
    (laneItems (lanes.set k (some ln))).Perm (ln.item :: laneItems lanes) :=
  ((lanes_set_perm h (some ln)).filterMap _).trans
    (List.Perm.cons ln.item ((lanes_perm h).filterMap (fun l => l.map Lane.item)).symm)

theorem laneItems_set_none {lanes : List (Option Lane)} {k : Nat} {ln : Lane} (h : lanes[k]? = some (some ln)) :
    (laneItems lanes).Perm (ln.item :: laneItems (lanes.set k none)) :=
  ((lanes_perm h).filterMap _).trans
    (List.Perm.cons ln.item ((lanes_set_perm h none).filterMap (fun l => l.map Lane.item)).symm)

theorem laneItems_set_same {lanes : List (Option Lane)} {k : Nat} {ln ln' : Lane} (h : lanes[k]? = some (some ln))
    (hitem : ln'.item = ln.item) : (laneItems (lanes.set k (some ln'))).Perm (laneItems lanes) := by
  have hnew := (lanes_set_perm h (some ln')).filterMap (fun l => l.map Lane.item)
  have hold := (lanes_perm h).filterMap (fun l => l.map Lane.item)
  simp only [List.filterMap_cons, Option.map_some, hitem] at hnew hold
  exact hnew.trans hold.symm

theorem todo_perm {todo : List Nat} {pick item : Nat} (h : todo[pick]? = some item) :
    todo.Perm (item :: todo.eraseIdx pick) := by
  obtain ⟨hk, rfl⟩ := List.getElem?_eq_some_iff.1 h
  exact (List.getElem_cons_eraseIdx_perm hk).symm

/-- The command goes on with its items: none comes back, none is taken twice. -/
structure State.ItemsGoOn (s t : State) : Prop where
  shape : t = { s with mem := t.mem, todo := t.todo, lanes := t.lanes }
  length : t.lanes.length = s.lanes.length
  items : (laneItems t.lanes ++ t.todo).Subperm (laneItems s.lanes ++ s.todo)
  todo : t.todo ⊆ s.todo

theorem State.LaneMove.itemsGoOn {s t : State} {w : Work} {lane pick : Nat} (h : State.LaneMove s t w lane pick) :
    t = s.endCommand w.written .ok ∨ State.ItemsGoOn s t := by
  cases h with
  | joins _ result => exact .inl result
  | stays _ _ same =>
    subst same
    exact .inr ⟨rfl, rfl, List.Subperm.refl _, List.Subset.refl _⟩
  | takes item isFree waits result =>
    rw [State.takeItem_of_waits waits] at result
    subst result
    refine .inr ⟨rfl, List.length_set, List.Perm.subperm ?_, List.eraseIdx_subset⟩
    exact ((laneItems_set_some isFree _).append_right _).trans
      (List.perm_middle.symm.trans ((todo_perm waits).symm.append_left _))
  | frees ln works _ result =>
    subst result
    refine .inr ⟨rfl, List.length_set, ?_, List.Subset.refl _⟩
    exact (List.sublist_cons_self _ _).subperm.trans ((laneItems_set_none works).symm.append_right _).subperm
  | operates ln b works _ exist result =>
    subst result
    refine .inr ⟨rfl, List.length_set, List.Perm.subperm ?_, List.Subset.refl _⟩
    exact (laneItems_set_same (ln' := ⟨ln.item, ln.pos + 1, _⟩) works rfl).append_right _

theorem State.ItemsInv.of_phase {s : State} (h : s.phase ≠ .items) : s.ItemsInv := fun hp => absurd hp h

theorem State.KeepsWork.itemsInv {s t : State} (h : State.KeepsWork s t) (hs : s.ItemsInv) : t.ItemsInv := by
  rw [State.ItemsInv, h.phase, h.op, h.lanes, h.todo, h.params]
  exact hs

theorem State.ItemsGoOn.itemsInv {s t : State} (h : State.ItemsGoOn s t) (hs : s.ItemsInv) : t.ItemsInv := by
  have hphase : t.phase = s.phase := by rw [h.shape]
  have hop : t.op = s.op := by rw [h.shape]
  have hparams : t.params = s.params := by rw [h.shape]
  intro hp
  obtain ⟨w, hw, hfits, hlength, hnodup, hcount⟩ := hs (hphase ▸ hp)
  obtain ⟨l, hperm, hsub⟩ := h.items
  rw [hop, hparams]
  exact ⟨w, hw, hfits, h.length.trans hlength, hperm.nodup_iff.1 (hnodup.sublist hsub),
    fun i hi => hcount i (h.items.subset hi)⟩

theorem State.beginItems_itemsInv {s : State} {w : Work} (hw : s.op.work s.params = some w)
    (hfits : bufferFits s.params.memSize w.depth s.op = true) :
    { s with phase := .items, todo := List.range w.count,
             lanes := List.replicate s.params.lanes none : State }.ItemsInv := by
  have hfree : laneItems (List.replicate s.params.lanes none) = [] := by
    rw [laneItems, List.filterMap_replicate_of_none rfl]
  intro _
  refine ⟨w, hw, hfits, List.length_replicate, ?_, fun i hi => ?_⟩
  · exact (congrArg (fun l => (l ++ List.range w.count).Nodup) hfree).mpr List.nodup_range
  · change i ∈ laneItems (List.replicate s.params.lanes none) ++ List.range w.count at hi
    rw [hfree] at hi
    exact List.mem_range.1 hi

theorem State.BlockCase.itemsInv {s t : State} (h : State.BlockCase s t) (hs : s.ItemsInv) : t.ItemsInv := by
  cases h with
  | rest _ same | noItems _ same => rwa [same]
  | ends _ n ending => exact .of_phase (by simp [ending.over.1])
  | beginsStream _ d _ _ result => exact .of_phase (by simp [result])
  | beginsItems _ w work fits result =>
    rw [result]
    exact State.beginItems_itemsInv work fits
  | stream inStream turn =>
    refine .of_phase ?_
    cases State.streamTurn_cases turn with
    | ends n ending => simp [ending.over.1]
    | nextRow result => simp [result, inStream]
    | packet p ran => rw [ran.shape]; simp [inStream]
  | items _ w _ _ _ move =>
    rcases move.itemsGoOn with hends | hgoes
    · exact .of_phase (by simp [hends])
    · exact hgoes.itemsInv hs

/-- What waits in `t` waited in `s`, and the item of a lane was a lane's or waited. -/
def State.TakenOnce (s t : State) : Prop :=
  (∀ i ∈ t.todo, i ∈ s.todo) ∧ ∀ i ∈ laneItems t.lanes, i ∈ laneItems s.lanes ∨ i ∈ s.todo

theorem State.KeepsWork.takenOnce {s t : State} (h : State.KeepsWork s t) : s.TakenOnce t :=
  ⟨fun _ hi => h.todo ▸ hi, fun _ hi => .inl (h.lanes ▸ hi)⟩

theorem State.ItemsGoOn.takenOnce {s t : State} (h : State.ItemsGoOn s t) : s.TakenOnce t :=
  ⟨fun _ hi => h.todo hi, fun _ hi => List.mem_append.1 (h.items.subset (List.mem_append_left _ hi))⟩

theorem State.BlockCase.takenOnce {s t : State} (h : State.BlockCase s t) (hs : s.phase = .items)
    (ht : t.phase = .items) : s.TakenOnce t := by
  cases h with
  | rest phase | ends phase | beginsStream phase | beginsItems phase | stream phase => simp [hs] at phase
  | noItems _ same => exact ⟨fun _ hi => same ▸ hi, fun _ hi => .inl (same ▸ hi)⟩
  | items _ w _ _ _ move =>
    rcases move.itemsGoOn with hends | hgoes
    · simp [hends] at ht
    · exact hgoes.takenOnce

/-- Settles O53, by the kinds of a step: only the block moves items, and each move of a lane leaves a part of the items
there were. -/
theorem itemsInvariantKept : Obligations.ItemsInvariantKept := by
  intro s t hs hstep
  cases step_kinds hstep with
  | block r move =>
    have hcase := State.block_cases move
    exact ⟨hcase.itemsInv hs, hcase.takenOnce⟩
  | looks r move => exact ⟨move.keepsWork.itemsInv hs, fun _ _ => move.keepsWork.takenOnce⟩
  | stores off v r head result move => exact ⟨move.keepsWork.itemsInv hs, fun _ _ => move.keepsWork.takenOnce⟩
  | accepts v r head idle errv result =>
    exact ⟨.of_phase (by simp [result]), fun hp => by simp [idle] at hp⟩
  | rst r head result =>
    exact ⟨.of_phase (by simp [result]), fun _ hp => by simp [result] at hp⟩

end Sys2Proof.Machine

/-! Reset, registers and the host's own accesses as single steps (10_state.md, 20_memory.md R65, 40_command.md R110 to
R114, 70_reset_and_hazards.md R210 to R214). -/

namespace Sys2Proof.Machine

/-! ### Reset -/

/-- Settles O8, register by register. -/
theorem resetRegistersReadZero : Obligations.ResetRegistersReadZero := by
  intro p m r
  refine ⟨?_, rfl, rfl, rfl⟩
  cases r with
  | status => simp [State.readReg, State.statusWord, State.busy, State.resetWith]
  | ien => simp [State.readReg, State.ienWord, State.resetWith]
  | _ => rfl

/-- Settles O54: after reset no command runs, so two of the invariants speak of nothing and no flag is set. -/
theorem invariantsAtReset : Obligations.InvariantsAtReset := by
  have inv : ∀ (p : Params) (m : Memory), Memory.wf m = true → Memory.within p.memSize m = true →
      (State.resetWith p m).StatusInv ∧ (State.resetWith p m).MemInv ∧ (State.resetWith p m).StreamInv ∧
        (State.resetWith p m).ItemsInv := by
    intro p m hwf hwithin
    refine ⟨⟨fun _ => rfl, fun he => absurd he Bool.false_ne_true, fun _ => rfl⟩, ⟨hwf, hwithin, ?_⟩,
      .of_phase Phase.noConfusion, .of_phase Phase.noConfusion⟩
    exact fun l hl => absurd hl List.not_mem_nil
  exact ⟨inv, inv defaultParams [] rfl rfl⟩

theorem State.rst_mem_of_idle {s : State} (h : s.phase = .idle) : s.rst.mem = s.mem := by
  simp [State.rst, State.resetWith, State.busy_eq_false_iff.2 h]

/-- A byte outside the written regions of the latched command survives `rst` (R212). -/
theorem State.rst_read {s : State} {a : Nat} (h : ∀ g ∈ s.op.regions, g.written = true → g.contains a = false) :
    Memory.read s.rst.mem a = Memory.read s.mem a := by
  simp only [State.rst, State.resetWith]
  split
  · exact State.havocWritten_read _ _ _ _ (.inr h)
  · rfl

/-- Settles O9, by what `rst` does to memory in either case. -/
theorem rstGivesTheResetState : Obligations.RstGivesTheResetState := by
  intro s rest hin
  exact ⟨(withInputs s rest).rst, (step_cons hin).trans rfl, rfl,
    fun hidle => State.rst_mem_of_idle (s := withInputs s rest) hidle,
    fun a ha => State.rst_read (s := withInputs s rest) ha⟩

/-! ### Reading registers -/

/-- Settles O10, by where the parts of the two words stand. -/
theorem statusAndIenBits : Obligations.StatusAndIenBits := by
  intro s k
  constructor
  · simp only [State.statusWord, BitVec.getLsbD_append, BitVec.getLsbD_ofBool]
    rcases Nat.lt_or_ge k 4 with hlow | hhigh
    · have hk : k = 0 ∨ k = 1 ∨ k = 2 ∨ k = 3 := by omega
      rcases hk with rfl | rfl | rfl | rfl <;> simp [State.busy]
    · obtain ⟨j, rfl⟩ := Nat.exists_eq_add_of_le' hhigh
      by_cases hj : j < 4
      · simp [hj, show j + 4 < 8 by omega]
      · simp [hj, show ¬ j + 4 < 8 by omega]
  · simp only [State.ienWord, BitVec.getLsbD_append, BitVec.getLsbD_ofBool]
    rcases Nat.eq_zero_or_pos k with rfl | hk
    · simp
    · simp [show ¬ k < 1 by omega, show k ≠ 0 by omega]

theorem State.readReg_withInputs (s : State) (l : List Event) (r : Reg) :
    ({ s with inputs := l } : State).readReg r = s.readReg r := by cases r <;> rfl

theorem State.observe_eq (s : State) :
    s.observe = { s with owned := if s.phase = .idle then [] else s.owned } := by
  unfold State.observe
  split
  · next hbusy => rw [if_neg (State.busy_eq_true_iff.1 hbusy)]
  · next hbusy => rw [if_pos (State.busy_eq_false_iff.1 (Bool.not_eq_true _ ▸ hbusy))]

theorem State.hostRead_eq (s : State) (off : Nat) :
    s.hostRead off = { s with
      reply := .word (s.readReg (regAt off))
      owned := if off = 0x04 ∧ s.phase = .idle then [] else s.owned } := by
  unfold State.hostRead
  by_cases hoff : off = 0x04
  · rw [if_pos (regAt_eq_status.2 hoff), State.observe_eq]
    simp [hoff]
  · rw [if_neg (fun h => hoff (regAt_eq_status.1 h))]
    simp [hoff]

/-- Settles O11, by the value of `hostRead`. -/
theorem registerReadChangesNothing : Obligations.RegisterReadChangesNothing := by
  intro s rest off hin hoff
  rw [step_cons hin, State.event, if_pos (aligned32_iff.2 ⟨rfl, hoff⟩), State.hostRead_eq, State.readReg_withInputs]

/-! ### Writing registers -/

/-- Settles O12, by the arm of `writeReg` at each offset. -/
theorem registerWrites : Obligations.RegisterWrites := by
  intro s rest off v hin
  refine ⟨?_, ?_, ?_, ?_, ?_, ?_⟩ <;> (rintro rfl; exact step_of_wr hin rfl)

theorem regAt_eq_reserved {off : Nat} (h : 0x28 ≤ off) : regAt off = .reserved := by
  unfold regAt
  split <;> simp_all

theorem regAt_readOnly {off : Nat} (h : 0x20 ≤ off) :
    regAt off = .erow ∨ regAt off = .epos ∨ regAt off = .reserved := by
  unfold regAt
  split <;> simp_all

/-- Settles O13: from 0x20 upward there are only `EROW`, `EPOS` and reserved registers. -/
theorem readOnlyAndReservedOffsets : Obligations.ReadOnlyAndReservedOffsets := by
  intro s rest off v halign hoff
  refine ⟨fun hin => ?_, fun hres => by rw [regAt_eq_reserved hres]; rfl⟩
  rw [step_of_wr hin halign]
  rcases regAt_readOnly hoff with hreg | hreg | hreg <;> rw [hreg] <;> rfl

/-- Settles O14, by the alignment test both accesses make first. -/
theorem narrowAccessIsRefused : Obligations.NarrowAccessIsRefused := by
  intro s rest off size v hbad hin
  have hnarrow : ¬ aligned32 off size = true := by
    rw [aligned32_iff]
    omega
  rcases hin with hin | hin <;> rw [step_cons hin, State.event, if_neg hnarrow]

/-! ### Accepting a command -/

theorem Op.regions_of_error {o : Op} {e : Reject} (h : decodeCommand o.word = .error e) : o.regions = [] := by
  unfold Op.regions
  rw [h]

theorem Op.regions_of_rledec {o : Op} {d : Depth} (h : decodeCommand o.word = .ok (.rledec d)) :
    o.regions = [⟨o.S, o.L, false⟩, o.buffer d] := by
  unfold Op.regions
  rw [h]
  cases d <;> rfl

/-- An in-place command owns what it writes and nothing else; one that writes nothing owns nothing (R57). -/
theorem Op.regions_of_inPlace {o : Op} {i : Instr} (h : decodeCommand o.word = .ok i) (hi : ∀ d, i ≠ .rledec d) :
    o.regions = [⟨o.B, writtenBytes o i, true⟩] ∨ (o.regions = [] ∧ writtenBytes o i = 0) := by
  unfold Op.regions
  rw [h]
  obtain ⟨d, rfl | rfl | rfl | rfl⟩ := decodeCommand_cases h
  · exact absurd rfl (hi d)
  · cases d
    · exact .inr ⟨rfl, rfl⟩
    · exact .inr ⟨rfl, rfl⟩
    · exact .inl rfl
    · exact .inl rfl
  · cases d
    · exact .inr ⟨rfl, rfl⟩
    · exact .inl rfl
    · exact .inl rfl
    · exact .inl rfl
  · cases d
    · exact .inr ⟨rfl, rfl⟩
    · exact .inl rfl
    · exact .inl rfl
    · exact .inl rfl

theorem writtenBytes_rledec (o : Op) (d : Depth) : writtenBytes o (.rledec d) = o.bufferBytes d := by cases d <;> rfl

theorem Op.claim_writes {o : Op} {i : Instr} (h : decodeCommand o.word = .ok i) (x : Nat) :
    (Claim.mk o.regions).writes x = true ↔ o.B ≤ x ∧ x < o.B + writtenBytes o i := by
  by_cases hi : ∃ d, i = .rledec d
  · obtain ⟨d, rfl⟩ := hi
    simp [Claim.writes, Op.regions_of_rledec h, Op.buffer, Region.contains, writtenBytes_rledec]
  · rcases Op.regions_of_inPlace h (fun d hd => hi ⟨d, hd⟩) with hr | ⟨hr, hw⟩
    · simp [Claim.writes, hr, Region.contains]
    · simp [Claim.writes, hr, hw]

theorem Op.claim_contains {o : Op} {i : Instr} (h : decodeCommand o.word = .ok i) (x : Nat) :
    (Claim.mk o.regions).contains x = true ↔
      (Claim.mk o.regions).writes x = true ∨ ((∃ d, i = .rledec d) ∧ o.S ≤ x ∧ x < o.S + o.L) := by
  by_cases hi : ∃ d, i = .rledec d
  · obtain ⟨d, rfl⟩ := hi
    simp [Claim.contains, Claim.writes, Op.regions_of_rledec h, Op.buffer, Region.contains, or_comm]
  · rw [or_iff_left (fun hx => hi hx.1)]
    rcases Op.regions_of_inPlace h (fun d hd => hi ⟨d, hd⟩) with hr | ⟨hr, -⟩ <;>
      simp [Claim.contains, Claim.writes, hr]

theorem State.writeCmd_of_idle {s : State} (v : Word) (hidle : s.phase = .idle) (herrv : s.errv = false) :
    s.writeCmd v = s.accept v := by
  simp [State.writeCmd, State.busy_eq_false_iff.2 hidle, herrv]

/-- Settles O15, by the accepting arm of `writeCmd` and the regions of the word it latches. -/
theorem commandWriteAccepted : Obligations.CommandWriteAccepted := by
  intro s rest v hin hidle herrv
  refine ⟨s.latch v, ⟨(s.latch v).regions⟩, rfl, ?_, fun e he x => ?_, fun i hi x => ?_⟩
  · rw [step_of_wr hin rfl]
    exact congrArg Host.Outcome.next (State.writeCmd_of_idle (s := { s with inputs := rest }) v hidle herrv)
  · rw [Op.regions_of_error (o := s.latch v) he]
    rfl
  · exact ⟨Op.claim_writes (o := s.latch v) hi x, Op.claim_contains (o := s.latch v) hi x⟩

/-! ### The interrupt line -/

theorem State.writeReg_ie (s : State) (r : Reg) (v : Word) :
    (s.writeReg r v).ie = if r = .ien then v.getLsbD 0 else s.ie := by
  cases r with
  | cmd =>
    simp only [State.writeReg, State.writeCmd]
    split <;> rfl
  | _ => rfl

theorem State.hostIrq_eq (s : State) :
    s.hostIrq = { s with
      reply := .line (s.ie && s.done)
      owned := if s.ie = true ∧ s.done = true ∧ s.phase = .idle then [] else s.owned } := by
  unfold State.hostIrq
  by_cases hirq : s.ie = true ∧ s.done = true
  · simp [State.irq, hirq, State.observe_eq]
  · rw [if_neg (by simpa [State.irq] using hirq), if_neg (fun h => hirq ⟨h.1, h.2.1⟩)]
    rfl

/-- `irq` rises in a move of the block only where the command completes with `IE = 1`. -/
theorem State.BlockMove.irq_rises {s t : State} (h : State.BlockMove s t) (hs : s.irq = false) (ht : t.irq = true) :
    s.busy = true ∧ t.busy = false ∧ t.done = true ∧ s.ie = true := by
  have hrose : s.irq ≠ t.irq := by simp [hs, ht]
  cases h with
  | rest _ same => exact absurd (by rw [same]) hrose
  | goesOn h => exact absurd (by rw [h.shape]; rfl) hrose
  | ends busy n ending =>
    obtain ⟨hphase, hdone, -⟩ := ending.over
    obtain ⟨-, -, -, -, -, -, -, hie, -⟩ := ending.keepsHostSide
    rw [State.irq, hie, Bool.and_eq_true] at ht
    exact ⟨State.busy_eq_true_iff.2 busy, State.busy_eq_false_iff.2 hphase, hdone, ht.1⟩

/-- Settles O18, by the kinds of a step: only a completion sets `DONE`, only a write of `IEN` sets `IE`. -/
theorem irqRisesOnlyByCompletionOrEnable : Obligations.IrqRisesOnlyByCompletionOrEnable := by
  constructor
  · intro s t hstep hs ht
    have hrose : s.irq ≠ t.irq := by simp [hs, ht]
    cases step_kinds hstep with
    | block r move => exact .inl ((State.move_of_either move).irq_rises hs ht)
    | looks r move => exact absurd (by rw [move.shape]; rfl) hrose
    | stores off v r head result move =>
      rw [State.irq, Bool.and_eq_true] at ht
      obtain ⟨hie, hdone⟩ := ht
      have hdone' : s.done = true := move.done hdone
      have hie' : s.ie = false := by simpa [State.irq, hdone'] using hs
      rw [result, State.writeReg_ie] at hie
      split at hie
      · next hreg =>
        rw [regAt_eq_ien] at hreg
        exact .inr ⟨v, r, hreg ▸ head, hie, hdone'⟩
      · exact absurd (hie'.symm.trans hie) Bool.false_ne_true
    | accepts v r head idle errv result => simp [result, State.irq] at ht
    | rst r head result => simp [result, State.irq] at ht
  · intro s rest hin
    rw [step_cons hin, State.event, State.hostIrq_eq]

/-! ### The host's accesses to data memory -/

/-- Settles O19: a byte no command owns is read and written as memory is. -/
theorem hostMemoryAccess : Obligations.HostMemoryAccess := by
  intro s rest a v ha hown
  have hexists : ¬ s.params.memSize ≤ a := by omega
  have hfree : ¬ ({ s with inputs := rest } : State).owns a = true := by simpa [State.owns] using hown
  refine ⟨fun hin => ?_, fun hin => ⟨{ s with inputs := rest, mem := Memory.write s.mem a v }, ?_, rfl, ?_, ?_⟩⟩
  · rw [step_cons hin, State.event, State.hostMemRead, if_neg hexists, if_neg hfree]
  · rw [step_cons hin, State.event, State.hostMemWrite, if_neg hexists, if_neg hfree]
  · simp
  · intro x hx
    simp [hx]

/-- The state when the byte of an owned address is stored and its breach recorded, before anything is loosened. -/
def State.storeOwned (s : State) (a : Nat) (v : Byte) : State :=
  { s with mem := Memory.write s.mem a v, breach := s.breach || s.runsOn a }

theorem State.storeOwned_read (s : State) (a x : Nat) (v : Byte) :
    Memory.read (s.storeOwned a v).mem x = if x = a then v else Memory.read s.mem x := Memory.read_write s.mem a x v

theorem State.hostMemWrite_of_owned {s : State} {a : Nat} (v : Byte) (ha : a < s.params.memSize)
    (hown : s.owns a = true) : s.hostMemWrite a v = .next ((s.storeOwned a v).loosen a s.owned) := by
  rw [State.hostMemWrite, if_neg (by omega), if_pos hown]
  rfl

/-- Settles O20: the write stores the byte, and what it then loosens is the written regions of the commands that own it,
but for the bytes of later commands that do not. -/
theorem ownedWriteStaysInsideTheRegions : Obligations.OwnedWriteStaysInsideTheRegions := by
  intro s rest a v hin ha hown
  have hstored := State.storeOwned_read (withInputs s rest) a (v := v)
  refine ⟨((withInputs s rest).storeOwned a v).loosen a s.owned,
    (step_cons hin).trans (State.hostMemWrite_of_owned (s := withInputs s rest) v ha hown),
    by rw [State.loosen_shape]; rfl, fun hkept => ?_, fun x hx hkept => ?_, ?_⟩
  · rw [State.loosen_read _ _ _ _ hkept, hstored, if_pos rfl]
  · rw [State.loosen_read _ _ _ _ hkept, hstored, if_neg hx]
    rfl
  · intro before after c x howned hca hcx hkept
    have hx : x ≠ a := by
      rintro rfl
      exact Bool.false_ne_true (hca.symm.trans hcx)
    rw [howned, State.loosen_read_claimed _ _ _ _ _ _ hca hcx hkept, hstored, if_neg hx]
    rfl

/-! ### What changes the sequencer and the operand registers -/

/-- Settles O56, by the kinds of a step: only an accepted write leaves `IDLE`, only an ending or `rst` comes back to
it. -/
theorem sequencerTransitions : Obligations.SequencerTransitions := by
  intro s t hstep
  cases step_kinds hstep with
  | block r move =>
    cases State.move_of_either move with
    | rest idle same => exact ⟨fun _ ht => absurd (same ▸ idle) ht, fun hs => absurd idle hs⟩
    | ends busy n ending =>
      obtain ⟨-, hdone, -⟩ := ending.over
      exact ⟨fun hs => absurd hs busy, fun _ _ => .inl hdone⟩
    | goesOn h =>
      refine ⟨fun hs => absurd hs h.before, fun hs ht => ?_⟩
      rcases h.after with hp | hp | hp
      · simp [ht] at hp
      · simp [ht] at hp
      · exact absurd (hp.symm.trans ht) hs
  | looks r move =>
    have hphase : t.phase = s.phase := move.keepsWork.phase
    exact ⟨fun hs ht => absurd (hphase.trans hs) ht, fun hs ht => absurd (hphase.symm.trans ht) hs⟩
  | stores off v r head result move =>
    have hphase : t.phase = s.phase := move.keepsWork.phase
    exact ⟨fun hs ht => absurd (hphase.trans hs) ht, fun hs ht => absurd (hphase.symm.trans ht) hs⟩
  | accepts v r head idle errv result =>
    exact ⟨fun _ _ => ⟨v, r, head, errv, by rw [result]; rfl, by rw [result]; rfl⟩, fun hs => absurd idle hs⟩
  | rst r head result => exact ⟨fun _ ht => absurd (by rw [result]; rfl) ht, fun _ _ => .inr ⟨r, head⟩⟩

theorem regOffset_regAt {off : Nat} (h : regAt off ≠ .reserved) : regOffset (regAt off) = off := by
  revert h
  unfold regAt
  split <;> simp [regOffset]

/-- A register write at another offset leaves the operand registers alone. -/
theorem State.writeReg_operands (s : State) (off : Nat) (v : Word) (t : State) (ht : t = s.writeReg (regAt off) v) :
    (t.base = s.base ∧ t.width = s.width ∧ t.height = s.height ∧ t.src = s.src ∧ t.srclen = s.srclen) ∨
      (off = 0x0C ∨ off = 0x10 ∨ off = 0x14 ∨ off = 0x18 ∨ off = 0x1C) := by
  subst ht
  have hoff := regOffset_regAt (off := off)
  cases hreg : regAt off with
  | cmd =>
    simp only [State.writeReg, State.writeCmd]
    split <;> exact .inl ⟨rfl, rfl, rfl, rfl, rfl⟩
  | base | width | height | src | srclen =>
    rw [hreg] at hoff
    have := hoff Reg.noConfusion
    simp only [regOffset] at this
    omega
  | _ => exact .inl ⟨rfl, rfl, rfl, rfl, rfl⟩

/-- Settles O57, by the kinds of a step: a move of the block keeps the host's side, a host move that writes no register
keeps them all. -/
theorem operandRegistersOnlyByHost : Obligations.OperandRegistersOnlyByHost := by
  intro s t hstep
  cases step_kinds hstep with
  | block r move =>
    obtain ⟨hparams, hbase, hwidth, hheight, hsrc, hsrclen, -⟩ := (State.move_of_either move).keepsHostSide
    exact ⟨hparams, .inl ⟨hbase, hwidth, hheight, hsrc, hsrclen⟩⟩
  | looks r move =>
    rw [move.shape]
    exact ⟨rfl, .inl ⟨rfl, rfl, rfl, rfl, rfl⟩⟩
  | stores off v r head result move =>
    refine ⟨by rw [move.shape], ?_⟩
    rcases State.writeReg_operands { s with inputs := r } off v t result with hsame | hoff
    · exact .inl hsame
    · exact .inr (.inr ⟨off, v, r, head, hoff⟩)
  | accepts v r head idle errv result =>
    rw [result]
    exact ⟨rfl, .inl ⟨rfl, rfl, rfl, rfl, rfl⟩⟩
  | rst r head result => exact ⟨by rw [result]; rfl, .inr (.inl ⟨r, head⟩)⟩

end Sys2Proof.Machine

/-! Commands as one completion event: their start checks, their endings and frames, the rows of depth 32 and the order
of items (40_command.md R115 to R122, 42_swap.md R156, 43_pred.md R166 to R170). -/

namespace Sys2Proof.Machine

/-! ### Start checks -/

/-- A command with a range check is an `RLEDEC` or in place. -/
theorem checkedDepth_cases {i : Instr} {d : Depth} (p : Params) (o : Op) (h : checkedDepth i = some d) :
    i = .rledec d ∨ ∃ w, inPlaceWork p o i = some w ∧ w.depth = d := by
  cases i <;> simp only [checkedDepth, Option.some.injEq, reduceCtorEq] at h <;> subst h
  case rledec1 | rledec8 | rledec16 | rledec32 => exact .inl rfl
  all_goals exact .inr ⟨_, rfl, rfl⟩

theorem exec_rledec_rangeError {s : State} {d : Depth} (hb : s.breach = false)
    (hf : ¬ rleFits s.params.memSize d s.op = true) :
    exec (.rledec d) s = .next (s.finish (.error .rangeError 0#32 0#32)) := by
  rw [exec_rledec, State.runRledec, State.rleStart, if_neg hf, State.endRleStart_of_no_breach _ _ hb]

/-- Settles O21, for `RLEDEC` and for the commands in place, which make the same check. -/
theorem bufferOutOfRange : Obligations.BufferOutOfRange := by
  intro s i d hd hb hne hout
  rcases checkedDepth_cases s.params s.op hd with rfl | ⟨w, hw, rfl⟩
  · refine exec_rledec_rangeError hb (fun hf => ?_)
    obtain ⟨hbuffer, -⟩ := rleFits_iff.1 hf
    omega
  · refine exec_inPlace_rangeError hw hb ?_
    rw [← Bool.not_eq_true, bufferFits_iff]
    omega

/-- Settles O22, by the two further checks of `RLEDEC`. -/
theorem sourceOutOfRangeOrOverlap : Obligations.SourceOutOfRangeOrOverlap := by
  intro s d hb hbad
  refine exec_rledec_rangeError hb (fun hf => ?_)
  obtain ⟨-, hsource, hapart⟩ := rleFits_iff.1 hf
  omega

/-! ### Endings and frames -/

/-- Settles O24, by the definitions of the two events. -/
theorem completionEvents : Obligations.CompletionEvents := fun _ k _ _ => ⟨rfl, by cases k <;> rfl⟩

/-- Settles O25: every command ends in an ending. -/
theorem everyCommandEnds : Obligations.EveryCommandEnds := by
  intro s i hi
  obtain ⟨t, ht, hends⟩ := exec_command_ends hi s
  obtain ⟨hphase, hdone, -⟩ := hends.over
  exact ⟨t, ht, hphase, hdone⟩

/-- Settles O26, by the frame of an ending. -/
theorem commandFrame : Obligations.CommandFrame := by
  intro s t i hi ht
  obtain ⟨u, hu, hends⟩ := exec_command_ends hi s
  obtain rfl := Host.Outcome.next.inj (hu.symm.trans ht)
  exact ⟨hends.keepsHostSide, hends.sameOutside⟩

/-- Settles O27: the start checks keep the source apart from the only region an ending changes. -/
theorem sourceRegionUnchanged : Obligations.SourceRegionUnchanged := by
  intro s t d hf ht k hk
  obtain ⟨u, hu, hends⟩ := s.runRledec_ends d
  obtain rfl := Host.Outcome.next.inj (hu.symm.trans (exec_rledec d s ▸ ht))
  obtain ⟨-, -, hapart⟩ := rleFits_iff.1 hf
  exact hends.sameOutside _ (by omega)

/-! ### Rows at depth 32 -/

/-- Settles O36, by what one row's item leaves in the row's own block. -/
theorem unpred32Result : Obligations.Unpred32Result := by
  intro s hb hf
  obtain ⟨t, hexec, hend, hout, hread⟩ := exec_inPlace_ok (i := .unpred32) (w := unpred32Work s.params s.op) rfl
    (unpred32Work_local s.params s.op) hb hf
  refine ⟨t, hexec, hend, hout, fun r j k hr hj hk => ?_⟩
  have hblock := inBlock_row32 s.op r (4 * j + k) (by omega)
  rw [← Nat.add_assoc] at hblock
  exact (hread r _ hr hblock).trans (unpred32_row s.params s.op r j k hj hk s.mem)

/-- Settles O37: what is written back is the difference of the staged row, and byte `k` of word `j` was staged in column
`j` of plane `pi(k)`. With `PLANE_CARRY` the byte before column 0 is the last of the plane before. -/
theorem pred32Result : Obligations.Pred32Result := by
  intro s hb hf hp
  obtain ⟨t, hexec, hend, hout, hread⟩ := exec_inPlace_ok (i := .pred32) (w := pred32Work s.params s.op) rfl
    (pred32Work_local s.params s.op) hb hf
  refine ⟨t, hexec, hend, hout, fun r j k hr hj hk => ?_⟩
  obtain ⟨stage, hstage, hdiff⟩ := pred32_row s.params s.op hp r s.mem
  have hplane := PlaneOrder.plane_lt s.params.planeOrder k
  have hvalue := (hread r _ hr (inBlock_row32 s.op r _ (planeIndex_lt hplane hj))).trans (hdiff _ j hplane hj)
  refine ⟨fun hpos => ?_, fun hzero hfirst => ?_, fun hzero hcarry q hq hbefore => ?_⟩
  · rw [if_neg (fun h => by omega), hstage j k hj hk, Nat.add_sub_assoc hpos, hstage (j - 1) k (by omega) hk] at hvalue
    exact hvalue
  · rw [if_pos ⟨hzero, hfirst⟩, hstage j k hj hk] at hvalue
    exact hvalue
  · have hnot : ¬ (j = 0 ∧ (s.params.planeCarry = false ∨ s.params.planeOrder.plane k = 0)) := by
      rw [hcarry]
      rintro ⟨-, h | h⟩
      · exact Bool.false_ne_true h.symm
      · omega
    have hlast : s.params.planeOrder.plane k * s.op.W + j - 1 =
        s.params.planeOrder.plane q * s.op.W + (s.op.W - 1) := by
      rw [← hbefore, Nat.add_mul]
      omega
    rw [if_neg hnot, hlast, hstage j k hj hk, hstage (s.op.W - 1) q (by omega) hq] at hvalue
    exact hvalue

/-! ### The order of items -/

/-- Settles O39: a byte is changed by the item of its own block only, and both orders take the same items. -/
theorem itemOrderIsFree : Obligations.ItemOrderIsFree := by
  intro p o i w l m hw hperm x
  obtain ⟨size, hlocal, -⟩ := inPlaceWork_shape hw
  by_cases hx : ∃ j, InBlock o.B size j x
  · obtain ⟨j, hj⟩ := hx
    rw [runItems_read hlocal l (hperm.nodup_iff.2 List.nodup_range) m j x hj,
      runItems_read hlocal (List.range w.count) List.nodup_range m j x hj]
    simp only [hperm.mem_iff]
  · rw [runItems_outside hlocal l m x (fun j _ hj => hx ⟨j, hj⟩),
      runItems_outside hlocal (List.range w.count) m x (fun j _ hj => hx ⟨j, hj⟩)]

end Sys2Proof.Machine

/-! The RLE decoder packet by packet and as a whole (41_rle.md R131 to R142), and the block's own moves as single steps
(40_command.md R115 to R121). -/

namespace Sys2Proof.Machine

/-! ### The turns of the body -/

theorem State.streamTurn_finish {s : State} (run : Packet → State → Answer State) (hr : s.op.H ≤ s.cur.row) :
    s.streamTurn run = .next s.rleEnd := by
  have hturn : s.rleTurn = .finish := by rw [State.rleTurn, if_pos (by omega)]
  rw [State.streamTurn, hturn]

theorem State.streamTurn_rowEnd {s : State} (run : Packet → State → Answer State) (hr : s.cur.row < s.op.H)
    (ho : s.cur.rb ≤ s.cur.out) : s.streamTurn run = .next s.nextRow := by
  have hturn : s.rleTurn = .rowEnd := by rw [State.rleTurn, if_neg (by omega), if_pos (by omega)]
  rw [State.streamTurn, hturn]

theorem State.streamTurn_sourceUsedUp {s : State} (run : Packet → State → Answer State) (hr : s.cur.row < s.op.H)
    (ho : s.cur.out < s.cur.rb) (hs : s.op.L ≤ s.cur.sp) :
    s.streamTurn run = .next (s.rleRaise .malformedChannelData s.cur.row s.cur.sp) := by
  have hturn : s.rleTurn = .sourceUsedUp := by
    rw [State.rleTurn, if_neg (by omega), if_neg (by omega), if_pos (by omega)]
  rw [State.streamTurn, hturn]

theorem State.streamTurn_packet {s : State} (run : Packet → State → Answer State) (hr : s.cur.row < s.op.H)
    (ho : s.cur.out < s.cur.rb) (hs : s.cur.sp < s.op.L) (hexists : s.rleSrc < s.params.memSize) :
    s.streamTurn run = run s.fetchPacket s := by
  have hturn : s.rleTurn = .packet := by
    rw [State.rleTurn, if_neg (by omega), if_neg (by omega), if_neg (by omega)]
  have hheader : firstAbsent s.params.memSize s.rleSrc 1 = none := firstAbsent_eq_none.2 (.inr hexists)
  simp only [State.streamTurn, hturn, hheader]

/-- An error raised in an undisturbed body: the completion that records it, on free bytes in the destination (R189). -/
theorem State.rleRaise_spec {s : State} (hb : s.breach = false) (k : ErrorKind) (r p : Nat) :
    Memory.SameOutside s.mem (s.rleRaise k r p).mem s.op.B (s.op.H * s.cur.rb) ∧
      s.rleRaise k r p = { s with mem := (s.rleRaise k r p).mem, draws := (s.rleRaise k r p).draws }.finish
        (.error k (BitVec.ofNat 32 r) (BitVec.ofNat 32 p)) := by
  refine ⟨(s.rleRaise_endsAs k r p).sameOutside, ?_⟩
  rw [State.rleRaise, Ending.raise, State.endRle_error_of_no_breach _ _ _ _ hb]
  rfl

theorem State.rleEnd_of_usedUp {s : State} (hb : s.breach = false) (hs : s.cur.sp = s.op.L) :
    s.rleEnd = s.finish .ok := by
  rw [State.rleEnd, if_neg (not_not.2 hs), State.endRle_ok_of_no_breach _ hb]

theorem State.rleEnd_of_leftOver {s : State} (hs : s.cur.sp ≠ s.op.L) :
    s.rleEnd = s.rleRaise .malformedChannelData s.op.H s.cur.sp := if_pos hs

/-! ### The block's moves as steps -/

theorem State.blockStep_start {s : State} (hp : s.phase = .start) : s.blockStep = s.runCommand := by
  rw [State.blockStep, hp]

theorem State.blockStep_stream {s : State} (hp : s.phase = .stream) : s.blockStep = s.stepStream := by
  rw [State.blockStep, hp]

theorem State.runCommand_of_decode {s : State} {i : Instr} (h : decodeCommand s.op.word = .ok i) :
    s.runCommand = exec i s := by
  rw [State.runCommand, h]

/-- Settles O5, by the move of a silent host's block in each of the two phases. -/
theorem stepRunsTheDecodedInstruction : Obligations.StepRunsTheDecodedInstruction := by
  intro s hin
  refine ⟨fun i hp hdec => ?_, fun hp hr ho hs hexists => ?_⟩
  · rw [step_nil hin, State.blockStep_start hp, State.runCommand_of_decode hdec]
  · rw [step_nil hin, State.blockStep_stream hp]
    exact State.streamTurn_packet _ hr ho hs hexists

/-- Settles O6, by the decode check. -/
theorem reservedWordEndsUnsupported : Obligations.ReservedWordEndsUnsupported := by
  intro s e hin hp hb hdec
  rw [step_nil hin, State.blockStep_start hp, State.runCommand, hdec]
  exact congrArg Host.Outcome.next (State.unsupported_of_no_breach hb)

/-- Settles O7, by the loop tests in their order. -/
theorem streamTurnsBetweenPackets : Obligations.StreamTurnsBetweenPackets := by
  intro s hin hp hb
  have hstep : step s = s.streamTurn runPacket := by
    rw [step_nil hin, State.blockStep_stream hp, State.stepStream_eq]
  rw [hstep]
  refine ⟨State.streamTurn_rowEnd runPacket, fun hr ho hs => ?_, fun hr hs => ?_, fun hr hs => ?_⟩
  · exact ⟨_, State.streamTurn_sourceUsedUp runPacket hr ho hs, State.rleRaise_spec hb _ _ _⟩
  · rw [State.streamTurn_finish runPacket hr, State.rleEnd_of_usedUp hb hs]
  · rw [State.streamTurn_finish runPacket hr, State.rleEnd_of_leftOver hs]
    exact ⟨_, rfl, State.rleRaise_spec hb _ _ _⟩

/-! ### Packets -/

/-- Settles O42: the copy of a packet that fits, between ranges that are apart. -/
theorem litCopiesItsBytes : Obligations.LitCopiesItsBytes := by
  intro s c hrow hsource hsrc hdst hapart
  refine ⟨_, State.runData_ok (p := .lit c) (write := Memory.copy) hrow hsource (.inr hsrc) (.inr hdst), rfl,
    fun x hx => Memory.read_copy_outside _ _ _ _ _ hx, fun k hk => ?_⟩
  exact Memory.read_copy _ _ _ _ _ hk (by simp only [packetCount]; omega)

/-- Settles O43: the fill of a packet that fits. -/
theorem rptRepeatsItsByte : Obligations.RptRepeatsItsByte := by
  intro s c _ hrow hsource hsrc hdst
  refine ⟨_, State.runData_ok (p := .rpt c) (write := fun m src dst cnt => Memory.fill m (Memory.read m src) dst cnt)
    hrow hsource (.inr hsrc) (.inr hdst), rfl, fun x hx => ?_, fun k hk => ?_⟩
  · exact (Memory.read_fill _ _ _ _ _).trans (if_neg (by simp only [State.rleDst, packetCount]; omega))
  · exact (Memory.read_fill _ _ _ _ _).trans (if_pos (by simp only [State.rleDst, packetCount]; omega))

/-- Settles O44, by the definition of the marker's effect. -/
theorem nopOnlyMovesTheOffset : Obligations.NopOnlyMovesTheOffset := fun _ => rfl

theorem runPacket_row {s : State} {p : Packet} (hn : p ≠ .nop) (h : s.cur.rb < s.cur.out + packetCount p) :
    runPacket p s = .next (s.rleRaise .malformedChannelData s.cur.row s.cur.sp) := by
  cases p with
  | nop => exact absurd rfl hn
  | lit c => exact State.runData_row h
  | rpt c => exact State.runData_row (write := fun m src dst cnt => Memory.fill m (Memory.read m src) dst cnt) h

theorem runPacket_source {s : State} {p : Packet} (hn : p ≠ .nop) (h : s.cur.out + packetCount p ≤ s.cur.rb)
    (hs : s.op.L < s.cur.sp + packetNeed p) :
    runPacket p s = .next (s.rleRaise .corruptCompressedStream s.cur.row s.cur.sp) := by
  cases p with
  | nop => exact absurd rfl hn
  | lit c => exact State.runData_source h hs
  | rpt c => exact State.runData_source (write := fun m src dst cnt => Memory.fill m (Memory.read m src) dst cnt) h hs

/-- Settles O45, by the two tests of a data packet in their order. -/
theorem packetErrors : Obligations.PacketErrors := by
  intro s p hn hb
  rw [exec_packet]
  exact ⟨fun hrow => ⟨_, runPacket_row hn hrow, State.rleRaise_spec hb _ _ _⟩,
    fun hrow hsource => ⟨_, runPacket_source hn hrow hsource, State.rleRaise_spec hb _ _ _⟩⟩

/-! ### The whole body -/

/-- The loop has one result, whatever the fuel that reaches it. -/
theorem rleLoop_unique {f g : Nat} {s t u : State} (ht : rleLoop f s = .next t) (hti : t.phase = .idle)
    (hu : rleLoop g s = .next u) (hui : u.phase = .idle) : t = u := by
  have h1 := rleLoop_more ht hti g
  have h2 := rleLoop_more hu hui f
  rw [Nat.add_comm] at h2
  exact Host.Outcome.next.inj (h1.symm.trans h2)

/-- What the body comes to is what the command answers: its fuel is never used up. -/
theorem exec_rledec_of_loop {s t : State} {d : Depth} {f : Nat} (hf : rleFits s.params.memSize d s.op = true)
    (ht : rleLoop f (s.beginStream d) = .next t) (hi : t.phase = .idle) : exec (.rledec d) s = .next t := by
  have hrun : s.runRledec d = rleLoop s.rleFuel (s.beginStream d) := by
    rw [State.runRledec, State.rleStart, if_pos hf]
  obtain ⟨u, hu, hends⟩ := s.runRledec_ends d
  rw [exec_rledec, hu, rleLoop_unique ht hi (hrun ▸ hu) hends.over.1]

theorem length_producedBytes_rows {rb : Nat} {rows : List (List SrcPacket)} (h : ∀ ps ∈ rows, RowOf rb ps) :
    (producedBytes rows.flatten).length = rows.length * rb := by
  induction rows with
  | nil => simp [producedBytes]
  | cons ps rows ih =>
    obtain ⟨-, hlen, -⟩ := h ps (by simp)
    rw [List.flatten_cons, producedBytes_append, List.length_append, hlen, ih fun qs hqs => h qs (by simp [hqs]),
      List.length_cons, Nat.add_mul]
    omega

/-- Settles O46: the rows run one after the other, and the test after the last finds the source used up. -/
theorem rledecDecodesSpelledRows : Obligations.RledecDecodesSpelledRows := by
  intro s d rows hb hf hrows hrow hlen hholds
  obtain ⟨u, ⟨n, hgoes⟩, hshape, hout, hdone⟩ :=
    State.StreamOk.rows_go rows (State.beginStream_ok hf) rfl (by simpa using hrows) rfl (by simpa using hrow)
      (by simpa using hlen) (by simpa using hholds)
  have hcur : u.cur = ⟨s.op.L, s.op.H, 0, rowBytes d s.op.W⟩ := by rw [hshape]; rfl
  have hop : u.op = s.op := by rw [hshape]; rfl
  have hend : u.rleEnd = u.finish .ok :=
    State.rleEnd_of_usedUp (by rw [hshape]; exact hb) (by rw [hcur, hop])
  have hdst : (s.beginStream d).rleDst = s.op.B := by simp [State.rleDst]
  have hloop : rleLoop (n + 1) (s.beginStream d) = .next (u.finish .ok) := by
    rw [hgoes, rleLoop, if_neg (by rw [hshape]; simp), State.streamTurn_finish runPacket (by rw [hcur, hop]), hend]
    rfl
  rw [hdst] at hout hdone
  rw [length_producedBytes_rows hrow, hrows] at hout
  refine ⟨u.finish .ok, exec_rledec_of_loop hf hloop rfl, ?_, hout, hdone⟩
  rw [hshape]
  rfl

/-- Packets for the rest of a stream whose current row holds `out` of its `rb` bytes: what is left of that row, then
whole rows. -/
def RestOf (rb out : Nat) : List (List SrcPacket) → Prop
  | [] => True
  | ps :: rows =>
    ((∀ p ∈ ps, p.wf = true) ∧ out + (producedBytes ps).length = rb ∧ ps.getLast? ≠ some .nop) ∧
      ∀ qs ∈ rows, RowOf rb qs

theorem RestOf.rows {rb : Nat} {rows : List (List SrcPacket)} (h : RestOf rb 0 rows) :
    ∀ ps ∈ rows, RowOf rb ps := by
  cases rows with
  | nil => simp
  | cons ps rows =>
    obtain ⟨⟨hwf, hlen, hlast⟩, hrest⟩ := h
    intro qs hqs
    rcases List.mem_cons.1 hqs with rfl | hqs
    · exact ⟨hwf, by omega, hlast⟩
    · exact hrest qs hqs

/-- A row that is complete needs no packet. -/
theorem RestOf.nil_cons {rb : Nat} {rows : List (List SrcPacket)} (h : RestOf rb 0 rows) : RestOf rb rb ([] :: rows) :=
  ⟨⟨by simp, by simp [producedBytes], by simp⟩, h.rows⟩

/-- A packet before the rest of its row; a no-op marker is never the last, since it leaves the row short. -/
theorem RestOf.cons {rb out : Nat} {p : SrcPacket} {ps : List SrcPacket} {rows : List (List SrcPacket)}
    (hp : p.wf = true) (ho : out < rb) (h : RestOf rb (out + p.produced.length) (ps :: rows)) :
    RestOf rb out ((p :: ps) :: rows) := by
  obtain ⟨⟨hwf, hlen, hlast⟩, hrest⟩ := h
  refine ⟨⟨?_, ?_, ?_⟩, hrest⟩
  · simpa [hp] using hwf
  · rw [producedBytes_cons, List.length_append]
    omega
  · cases ps with
    | nil =>
      rintro ⟨⟩
      simp [producedBytes, SrcPacket.produced] at hlen
      omega
    | cons q qs => rwa [List.getLast?_cons_cons]

/-- What is left of the stream from `s` spells `rows`, and `t` holds what they spell. -/
structure State.Spells (s t : State) (rows : List (List SrcPacket)) : Prop where
  count : s.cur.row + rows.length = s.op.H
  rest : RestOf s.cur.rb s.cur.out rows
  length : s.cur.sp + (streamBytes rows.flatten).length = s.op.L
  source : Memory.Holds s.mem (s.op.S + s.cur.sp) (streamBytes rows.flatten)
  written : Memory.Holds t.mem s.rleDst (producedBytes rows.flatten)
  outside : Memory.SameOutside s.mem t.mem s.rleDst (producedBytes rows.flatten).length

/-- The body ends without error after its last row only with the source used up. -/
theorem State.spells_of_finish {s : State} {d : Depth} (h : s.StreamOk d) (hb : s.breach = false)
    (hr : s.op.H ≤ s.cur.row) (herr : s.rleEnd.errv = false) : s.Spells s.rleEnd [] := by
  have hrow := h.row
  have hs : s.cur.sp = s.op.L := by
    by_contra hne
    rw [State.rleEnd_of_leftOver hne, State.rleRaise_errv hb] at herr
    exact Bool.false_ne_true herr.symm
  rw [State.rleEnd_of_usedUp hb hs]
  exact ⟨by simp; omega, trivial, by simpa [streamBytes] using hs, by simp [Memory.Holds, streamBytes],
    by simp [Memory.Holds, producedBytes], .refl _ _ _⟩

/-- The end of a row adds a row with no packets left. -/
theorem State.Spells.of_nextRow {s t : State} {rows : List (List SrcPacket)} (ho : s.cur.out = s.cur.rb)
    (h : s.nextRow.Spells t rows) : s.Spells t ([] :: rows) := by
  have hdst : s.nextRow.rleDst = s.rleDst := by
    simp only [State.rleDst, State.nextRow, ho, Nat.add_mul]
    omega
  refine ⟨?_, ?_, h.length, h.source, hdst ▸ h.written, hdst ▸ h.outside⟩
  · have := h.count
    simp only [State.nextRow_cur, State.nextRow_op] at this
    rw [List.length_cons]
    omega
  · rw [ho]
    exact h.rest.nil_cons

/-- A packet that stands at the stream offset and ran is one more packet of its row. -/
theorem State.Spells.of_packet {s u t : State} {d : Depth} {p : SrcPacket} {rows : List (List SrcPacket)}
    (h : s.StreamOk d) (hr : s.cur.row < s.op.H) (ho : s.cur.out < s.cur.rb) (hp : p.wf = true)
    (hfits : s.cur.out + p.produced.length ≤ s.cur.rb)
    (hheld : Memory.Holds s.mem (s.op.S + s.cur.sp) p.assemble)
    (hshape : u = { s with
      mem := u.mem
      cur := ⟨s.cur.sp + p.assemble.length, s.cur.row, s.cur.out + p.produced.length, s.cur.rb⟩ })
    (hout : Memory.SameOutside s.mem u.mem s.rleDst p.produced.length)
    (hwritten : Memory.Holds u.mem s.rleDst p.produced) (hu : u.Spells t rows) : ∃ rows', s.Spells t rows' := by
  have hcur : u.cur = ⟨s.cur.sp + p.assemble.length, s.cur.row, s.cur.out + p.produced.length, s.cur.rb⟩ := by
    rw [hshape]
  have hop : u.op = s.op := by rw [hshape]
  have hdst : u.rleDst = s.rleDst + p.produced.length := by
    simp only [State.rleDst, hcur, hop]
    omega
  obtain ⟨hcount, hrest, hlength, hsource, hwrites, houtside⟩ := hu
  rw [hcur, hop] at hcount hlength hsource
  rw [hcur] at hrest
  rw [hdst] at hwrites houtside
  cases rows with
  | nil => exact absurd hcount (Nat.ne_of_lt hr)
  | cons ps rows =>
    rw [List.flatten_cons] at hlength hsource hwrites houtside
    simp only at hlength hsource
    rw [List.length_cons] at hcount
    have hstream : streamBytes ((p :: ps) :: rows).flatten = p.assemble ++ streamBytes (ps ++ rows.flatten) := rfl
    have hproduced : producedBytes ((p :: ps) :: rows).flatten = p.produced ++ producedBytes (ps ++ rows.flatten) := rfl
    have hafter : Memory.Holds s.mem (s.op.S + s.cur.sp + p.assemble.length) (streamBytes (ps ++ rows.flatten)) := by
      rw [← Nat.add_assoc] at hsource
      refine Memory.holds_of_same hsource (fun y hlow hhigh => (hout y ?_).symm)
      rcases Nat.eq_zero_or_pos p.produced.length with hnone | hsome
      · omega
      · have := h.apart hr hfits hsome (k := y - s.op.S) (by omega)
        omega
    refine ⟨(p :: ps) :: rows, hcount, hrest.cons hp ho, ?_, ?_, ?_, ?_⟩
    · rw [hstream, List.length_append]
      omega
    · rw [hstream, Memory.holds_append]
      exact ⟨hheld, hafter⟩
    · rw [hproduced, Memory.holds_append]
      exact ⟨Memory.holds_of_same hwritten (fun y _ hhigh => houtside y (by omega)), hwrites⟩
    · rw [hproduced, List.length_append]
      intro x hx
      exact (houtside x (by omega)).trans (hout x (by omega))

/-- A packet of an undisturbed body that does not raise an error fits its row and the source. -/
theorem runPacket_fits {s u : State} {p : Packet} (hb : s.breach = false) (ho : s.cur.out < s.cur.rb)
    (hs : s.cur.sp < s.op.L) (hu : runPacket p s = .next u) (herr : u.errv = false) :
    s.cur.out + packetCount p ≤ s.cur.rb ∧ s.cur.sp + packetNeed p ≤ s.op.L := by
  have raised : ∀ k, runPacket p s ≠ .next (s.rleRaise k s.cur.row s.cur.sp) := by
    intro k hk
    obtain rfl := Host.Outcome.next.inj (hu.symm.trans hk)
    rw [State.rleRaise_errv hb] at herr
    exact Bool.false_ne_true herr.symm
  by_cases hn : p = .nop
  · subst hn
    simp only [packetCount, packetNeed]
    omega
  · have hrow : s.cur.out + packetCount p ≤ s.cur.rb := by
      by_contra hcross
      exact raised _ (runPacket_row hn (by omega))
    refine ⟨hrow, ?_⟩
    by_contra hcut
    exact raised _ (runPacket_source hn hrow (by omega))

theorem State.StreamOk.rleSrc_lt {s : State} {d : Depth} (h : s.StreamOk d) (hs : s.cur.sp < s.op.L) :
    s.rleSrc < s.params.memSize := by
  obtain ⟨-, hsource, -⟩ := rleFits_iff.1 h.fits
  unfold State.rleSrc
  omega

theorem rleLoop_succ {fuel : Nat} {s u : State} (hp : s.phase = .stream) (hu : s.streamTurn runPacket = .next u) :
    rleLoop (fuel + 1) s = rleLoop fuel u := by
  rw [rleLoop, if_neg (by simp [hp]), hu]

/-- A body that ends without error decoded a stream that spells its rows. -/
theorem rleLoop_spells (fuel : Nat) {s t : State} {d : Depth} (h : s.StreamOk d) (hp : s.phase = .stream)
    (hb : s.breach = false) (hs : s.errv = false) (hloop : rleLoop fuel s = .next t) (hidle : t.phase = .idle)
    (herr : t.errv = false) : ∃ rows, s.Spells t rows := by
  induction fuel generalizing s with
  | zero =>
    obtain rfl := Host.Outcome.next.inj hloop
    exact Phase.noConfusion (hp.symm.trans hidle)
  | succ fuel ih =>
    obtain ⟨u, hu, hcase⟩ := h.turn
    rw [rleLoop_succ hp hu] at hloop
    -- the turn ended the command, or left `ERRV` and the phase alone
    have hover : u.phase = .idle → u = t := fun hi => by
      rw [rleLoop_idle fuel hi] at hloop
      exact Host.Outcome.next.inj hloop
    have hkept : u.errv = false ∧ (u.phase = .stream → u.StreamOk d ∧ u.breach = false) := by
      rcases hcase with hends | ⟨hshape, hok, -⟩
      · exact ⟨hover hends.over.1 ▸ herr, fun hi => Phase.noConfusion (hends.over.1.symm.trans hi)⟩
      · exact ⟨by rw [hshape]; exact hs, fun _ => ⟨hok, by rw [hshape]; exact hb⟩⟩
    obtain ⟨herru, hgoes⟩ := hkept
    rcases Nat.lt_or_ge s.cur.row s.op.H with hr | hr
    case inr =>
      obtain rfl := Host.Outcome.next.inj ((State.streamTurn_finish runPacket hr).symm.trans hu)
      obtain rfl := hover s.rleEnd_endsAs.over.1
      exact ⟨[], State.spells_of_finish h hb hr herr⟩
    rcases Nat.lt_or_ge s.cur.out s.cur.rb with ho | ho
    case inr =>
      obtain rfl := Host.Outcome.next.inj ((State.streamTurn_rowEnd runPacket hr ho).symm.trans hu)
      obtain ⟨hok, hbu⟩ := hgoes hp
      obtain ⟨rows, hrows⟩ := ih hok hp hbu herru hloop
      exact ⟨[] :: rows, hrows.of_nextRow (Nat.le_antisymm h.out ho)⟩
    rcases Nat.lt_or_ge s.cur.sp s.op.L with hsp | hsp
    case inr =>
      obtain rfl := Host.Outcome.next.inj ((State.streamTurn_sourceUsedUp runPacket hr ho hsp).symm.trans hu)
      rw [State.rleRaise_errv hb] at herru
      exact absurd herru.symm Bool.false_ne_true
    obtain ⟨hwf, hspelled, hheld⟩ := packetAt_spec s.mem s.rleSrc
    obtain ⟨hcount, hneed⟩ := assemble_counts _ hwf
    have hrun := (State.streamTurn_packet runPacket hr ho hsp (h.rleSrc_lt hsp)).symm.trans hu
    rw [State.fetchPacket, ← hspelled] at hrun
    obtain ⟨hrow, hsource⟩ := runPacket_fits hb ho hsp hrun herru
    rw [hcount] at hrow
    rw [hneed] at hsource
    obtain ⟨v, hv, hshape, hout, hwritten⟩ := h.packet_turn hr ho _ hwf hrow hsource hheld
    obtain rfl := Host.Outcome.next.inj (hu.symm.trans hv)
    have hpu : u.phase = .stream := by rw [hshape]; exact hp
    obtain ⟨hok, hbu⟩ := hgoes hpu
    obtain ⟨rows, hrows⟩ := ih hok hpu hbu herru hloop
    exact hrows.of_packet h hr ho hwf hrow hheld hshape hout hwritten

/-- Settles O47: an `RLEDEC` that fails a start check ends in error, and a body that does not spells its rows. -/
theorem rledecSuccessSpellsRows : Obligations.RledecSuccessSpellsRows := by
  intro s t d hb hs hexec herr
  by_cases hf : rleFits s.params.memSize d s.op = true
  case neg =>
    obtain rfl := Host.Outcome.next.inj ((exec_rledec_rangeError hb hf).symm.trans hexec)
    exact Bool.noConfusion herr
  have hok := State.beginStream_ok hf
  obtain ⟨u, hu, hends⟩ := rleLoop_ends s.rleFuel hok rfl (by simp [State.turnsLeft, State.rleFuel])
  obtain rfl := Host.Outcome.next.inj ((exec_rledec_of_loop hf hu hends.over.1).symm.trans hexec)
  obtain ⟨rows, hrows⟩ := rleLoop_spells _ hok rfl hb hs hu hends.over.1 herr
  have hdst : (s.beginStream d).rleDst = s.op.B := by simp [State.rleDst]
  refine ⟨rows, ?_, hrows.rest.rows, ?_, hrows.source, hdst ▸ hrows.written⟩
  · simpa using hrows.count
  · simpa using hrows.length

end Sys2Proof.Machine

/-! What an instruction does not look at: the operand registers and the number of lanes (10_state.md R30, R38,
43_pred.md R170). -/

namespace Sys2Proof.Machine

/-- The answer with its next state changed. -/
def mapNext (f : State → State) : Answer State → Answer State
  | .next t => .next (f t)
  | .fault r => .fault r
  | .refused r => .refused r

/-- A change of the state that no instruction sees: what instructions read is the same after it, and it commutes with
what they write. -/
structure Unseen (f : State → State) : Prop where
  mem : ∀ s, (f s).mem = s.mem
  op : ∀ s, (f s).op = s.op
  cur : ∀ s, (f s).cur = s.cur
  phase : ∀ s, (f s).phase = s.phase
  breach : ∀ s, (f s).breach = s.breach
  draws : ∀ s, (f s).draws = s.draws
  memSize : ∀ s, (f s).params.memSize = s.params.memSize
  planeOrder : ∀ s, (f s).params.planeOrder = s.params.planeOrder
  planeCarry : ∀ s, (f s).params.planeCarry = s.params.planeCarry
  finish : ∀ s e, (f s).finish e = f (s.finish e)
  havoc : ∀ s a n, (f s).havoc a n = f (s.havoc a n)
  store : ∀ s m, { f s with mem := m } = f { s with mem := m }
  draw : ∀ s n, { f s with draws := n } = f { s with draws := n }
  packetDone : ∀ s p m, (f s).packetDone p m = f (s.packetDone p m)
  nextRow : ∀ s, (f s).nextRow = f s.nextRow
  beginStream : ∀ s d, (f s).beginStream d = f (s.beginStream d)

theorem unseen_withLanes (n : Nat) : Unseen (fun s => s.withLanes n) := by
  constructor
  case finish => intro s e; cases e <;> rfl
  all_goals intros; rfl

theorem unseen_withOperands (c : CommandLine) : Unseen (fun s => s.withOperands c) := by
  constructor
  case finish => intro s e; cases e <;> rfl
  all_goals intros; rfl

namespace Unseen

variable {f : State → State}

/-! ### Endings -/

theorem endCommand (hf : Unseen f) (s : State) (n : Nat) (e : Ending) :
    (f s).endCommand n e = f (s.endCommand n e) := by
  rw [State.endCommand, State.endCommand, hf.breach, hf.op, hf.havoc, hf.finish, hf.finish]
  split <;> rfl

theorem looseEnd (hf : Unseen f) (s : State) (n : Nat) : (f s).looseEnd n = f (s.looseEnd n) := by
  rw [State.looseEnd, hf.op, hf.havoc, hf.draws, hf.draw, hf.finish]
  rfl

theorem endRleStart (hf : Unseen f) (s : State) (n : Nat) (e : Ending) :
    (f s).endRleStart n e = f (s.endRleStart n e) := by
  rw [State.endRleStart, State.endRleStart, hf.breach, hf.looseEnd, hf.finish]
  split <;> rfl

theorem endRle (hf : Unseen f) (s : State) (n : Nat) (e : Ending) : (f s).endRle n e = f (s.endRle n e) := by
  unfold State.endRle
  rw [hf.breach]
  split
  · exact hf.looseEnd s n
  · cases e with
    | ok => exact hf.finish s .ok
    | error k r p => simp only [hf.op, hf.havoc, hf.finish]

theorem rleRaise (hf : Unseen f) (s : State) (k : ErrorKind) (r p : Nat) :
    (f s).rleRaise k r p = f (s.rleRaise k r p) := by
  rw [State.rleRaise, State.rleLen, hf.op, hf.cur]
  exact hf.endRle s _ _

theorem rleEnd (hf : Unseen f) (s : State) : (f s).rleEnd = f s.rleEnd := by
  unfold State.rleEnd
  rw [hf.rleRaise, State.rleLen, hf.endRle, hf.cur, hf.op]
  split <;> rfl

/-! ### The stream -/

theorem runData (hf : Unseen f) (s : State) (p : Packet) (write : Memory → (src dst cnt : Nat) → Memory) :
    (f s).runData p write = mapNext f (s.runData p write) := by
  have herror : (f s).packetError p = s.packetError p := by
    rw [State.packetError, State.packetError, hf.cur, hf.op]
  have hsrc : (f s).rleSrc = s.rleSrc := by rw [State.rleSrc, State.rleSrc, hf.cur, hf.op]
  have hdst : (f s).rleDst = s.rleDst := by rw [State.rleDst, State.rleDst, hf.cur, hf.op]
  unfold State.runData
  rw [herror, hsrc, hdst, hf.memSize, hf.mem, hf.cur]
  cases s.packetError p with
  | some k => exact congrArg Host.Outcome.next (hf.rleRaise s k _ _)
  | none =>
    cases firstAbsent s.params.memSize s.rleSrc (packetNeed p) with
    | some a => rfl
    | none =>
      cases firstAbsent s.params.memSize s.rleDst (packetCount p) with
      | some a => rfl
      | none => exact congrArg Host.Outcome.next (hf.packetDone s p _)

theorem runPacket (hf : Unseen f) (p : Packet) (s : State) : runPacket p (f s) = mapNext f (runPacket p s) := by
  cases p with
  | nop => exact congrArg Host.Outcome.next ((congrArg _ (hf.mem s)).trans (hf.packetDone s .nop s.mem))
  | lit c => exact hf.runData s _ _
  | rpt c => exact hf.runData s (.rpt c) (fun m src dst cnt => Memory.fill m (Memory.read m src) dst cnt)

theorem streamTurn (hf : Unseen f) (s : State) :
    (f s).streamTurn Machine.runPacket = mapNext f (s.streamTurn Machine.runPacket) := by
  have hturn : (f s).rleTurn = s.rleTurn := by rw [State.rleTurn, State.rleTurn, hf.cur, hf.op]
  have hsrc : (f s).rleSrc = s.rleSrc := by rw [State.rleSrc, State.rleSrc, hf.cur, hf.op]
  have hpacket : (f s).fetchPacket = s.fetchPacket := by rw [State.fetchPacket, State.fetchPacket, hf.mem, hsrc]
  unfold State.streamTurn
  rw [hturn, hsrc, hpacket, hf.memSize, hf.cur]
  cases s.rleTurn with
  | finish => exact congrArg Host.Outcome.next (hf.rleEnd s)
  | rowEnd => exact congrArg Host.Outcome.next (hf.nextRow s)
  | sourceUsedUp => exact congrArg Host.Outcome.next (hf.rleRaise s _ _ _)
  | packet =>
    cases firstAbsent s.params.memSize s.rleSrc 1 with
    | some a => rfl
    | none => exact hf.runPacket _ s

theorem rleLoop (hf : Unseen f) (fuel : Nat) (s : State) : rleLoop fuel (f s) = mapNext f (rleLoop fuel s) := by
  induction fuel generalizing s with
  | zero => rfl
  | succ fuel ih =>
    rw [Machine.rleLoop, Machine.rleLoop, hf.phase, hf.streamTurn]
    split
    · rfl
    · cases s.streamTurn Machine.runPacket with
      | next t => exact ih t
      | fault r => rfl
      | refused r => rfl

theorem runRledec (hf : Unseen f) (s : State) (d : Depth) : (f s).runRledec d = mapNext f (s.runRledec d) := by
  unfold State.runRledec State.rleStart State.rleFuel
  rw [hf.op, hf.memSize, hf.endRleStart, hf.beginStream, hf.rleLoop]
  by_cases h : rleFits s.params.memSize d s.op = true
  · simp only [if_pos h]
  · simp only [if_neg h]
    rfl

/-! ### Instructions -/

theorem runWork (hf : Unseen f) (s : State) (w : Work) : (f s).runWork w = f (s.runWork w) := by
  rw [State.runWork, State.runWork, hf.mem, hf.memSize, hf.store, hf.op, hf.endCommand, hf.endCommand]
  split <;> rfl

/-- The bodies in place look at the latch and, of the parameters, at the byte planes. -/
theorem inPlaceWork_eq (hf : Unseen f) (s : State) (i : Instr) :
    inPlaceWork (f s).params (f s).op i = inPlaceWork s.params s.op i := by
  rw [hf.op]
  have hunpred (r : Nat) : unpred32Row (f s).params s.op r = unpred32Row s.params s.op r := by
    simp only [unpred32Row, storePlanes, chainUp, hf.planeOrder, hf.planeCarry]
  have hpred (r : Nat) : pred32Row (f s).params s.op r = pred32Row s.params s.op r := by
    simp only [pred32Row, loadPlanes, chainDown, hf.planeOrder, hf.planeCarry]
  cases i with
  | unpred32 => simp only [inPlaceWork, unpred32Work, funext hunpred]
  | pred32 => simp only [inPlaceWork, pred32Work, funext hpred]
  | _ => rfl

theorem exec_inPlace (hf : Unseen f) {s : State} {i : Instr} {w : Work} (h : inPlaceWork s.params s.op i = some w) :
    exec i (f s) = mapNext f (exec i s) := by
  rw [Machine.exec_inPlace h, Machine.exec_inPlace ((hf.inPlaceWork_eq s i).trans h), hf.runWork]
  rfl

theorem exec (hf : Unseen f) (i : Instr) (s : State) : exec i (f s) = mapNext f (exec i s) := by
  cases i with
  | rledec1 => exact hf.runRledec s .d1
  | rledec8 => exact hf.runRledec s .d8
  | rledec16 => exact hf.runRledec s .d16
  | rledec32 => exact hf.runRledec s .d32
  | unpred1 => exact congrArg Host.Outcome.next (hf.endCommand s _ _)
  | pred1 => exact congrArg Host.Outcome.next (hf.endCommand s _ _)
  | nop => exact hf.runPacket .nop s
  | lit c => exact hf.runPacket (.lit c) s
  | rpt c => exact hf.runPacket (.rpt c) s
  | _ => exact hf.exec_inPlace rfl

end Unseen

/-- Settles O40: no command looks at the number of lanes. -/
theorem laneCountDoesNotMatter : Obligations.LaneCountDoesNotMatter := by
  intro s t i n _ ht
  exact ((unseen_withLanes n).exec i s).trans (by rw [ht]; rfl)

/-- Settles O41: no instruction looks at the operand registers. -/
theorem commandReadsOnlyTheLatch : Obligations.CommandReadsOnlyTheLatch := by
  intro s t i c ht
  exact ((unseen_withOperands c).exec i s).trans (by rw [ht]; rfl)

end Sys2Proof.Machine

/-! Runs of steps: a stream and the rows of a command turn by turn, that the block does not fault, and that a command
left alone ends (40_command.md R121, R122; 10_state.md R38; 20_memory.md R58). -/

namespace Sys2Proof.Machine

theorem core_run_of_step {M : Host.Core} {s t : M.State} (h : M.step s = .next t) (n : Nat) :
    M.run (n + 1) s = M.run n t := by
  rw [Host.Core.run, h]

theorem run_of_step {s t : State} (h : step s = .next t) (n : Nat) :
    Sys2Proof.core.run (n + 1) s = Sys2Proof.core.run n t := core_run_of_step (M := Sys2Proof.core) h n

theorem unseen_withInputs (l : List Event) : Unseen (fun s => withInputs s l) := by
  constructor
  case finish => intro s e; cases e <;> rfl
  all_goals intros; rfl

theorem withInputs_self {s : State} {l : List Event} (h : s.inputs = l) : withInputs s l = s := by
  rw [withInputs, ← h]

/-- The word of a command decodes to that command. -/
theorem decodeCommand_commandWord {i : Instr} (h : IsCommand i) : decodeCommand (commandWord i) = .ok i := by
  obtain ⟨w, hw⟩ := h
  have hwf : i.wf = true := by
    cases i with
    | rpt c => simp [encode] at hw
    | _ => rfl
  have hdec := decode_encode hwf
  rw [hw] at hdec
  rw [commandWord, hw]
  exact hdec

/-! ### A stream, turn by turn -/

theorem step_stream {s u : State} (hp : s.phase = .stream) (hin : s.inputs = [])
    (hu : s.streamTurn runPacket = .next u) : step s = .next u := by
  rw [step_nil hin, State.blockStep_stream hp, State.stepStream_eq, hu]

theorem State.turnStep_stream {s : State} (hp : s.phase = .stream) (lane pick : Nat) :
    s.turnStep lane pick = s.streamTurn runPacket := by
  rw [State.turnStep, hp]
  exact State.stepStream_eq s

theorem step_turn_stream {s u : State} (hp : s.phase = .stream) (hu : s.streamTurn runPacket = .next u)
    (p : Nat × Nat) (l : List Event) : step (withInputs s (.turn p.1 p.2 :: l)) = .next (withInputs u l) := by
  rw [step_turn, State.turnStep_stream (s := withInputs s l) hp, (unseen_withInputs l).streamTurn s, hu]
  rfl

/-- A stream in range ends within its turns left, and one more. -/
theorem State.StreamOk.ends_within {s : State} {d : Depth} (m : Nat) (h : s.StreamOk d) (hp : s.phase = .stream)
    (hin : s.inputs = []) (hm : s.turnsLeft ≤ m) :
    ∃ n t, n ≤ m + 1 ∧ Sys2Proof.core.run n s = .next t ∧ t.phase = .idle := by
  induction m generalizing s with
  | zero =>
    obtain ⟨u, hu, hends | ⟨-, -, hleft, -⟩⟩ := h.turn
    · exact ⟨1, u, le_refl 1, run_of_step (step_stream hp hin hu) 0, hends.over.1⟩
    · omega
  | succ m ih =>
    obtain ⟨u, hu, hends | ⟨hshape, hok, hleft, -⟩⟩ := h.turn
    · exact ⟨1, u, by omega, run_of_step (step_stream hp hin hu) 0, hends.over.1⟩
    · obtain ⟨n, t, hn, hrun, hidle⟩ := ih hok (by rw [hshape]; exact hp) (by rw [hshape]; exact hin) (by omega)
      exact ⟨n + 1, t, by omega, (run_of_step (step_stream hp hin hu) n).trans hrun, hidle⟩

/-- Settles O58: every turn takes a source byte, ends a row or ends the command. -/
theorem streamEndsInBoundedTurns : Obligations.StreamEndsInBoundedTurns := by
  intro s hs hp hin
  obtain ⟨d, -, hok⟩ := State.streamInv_iff.1 hs hp
  exact hok.ends_within _ hp hin (le_refl _)

theorem rleLoop_of_phase {s : State} (h : s.phase ≠ .stream) (fuel : Nat) : rleLoop fuel s = .next s := by
  cases fuel with
  | zero => rfl
  | succ fuel => rw [rleLoop, if_pos h]

/-- What the loop of the body comes to, as many turns come to. -/
theorem run_turns_of_rleLoop (fuel : Nat) {s t : State} (hp : s.phase = .stream) (hloop : rleLoop fuel s = .next t)
    (hidle : t.phase = .idle) :
    ∃ n, Sys2Proof.core.run n (withInputs s (turnMoves (List.replicate n (0, 0)))) = .next (withInputs t []) := by
  induction fuel generalizing s with
  | zero =>
    obtain rfl := Host.Outcome.next.inj hloop
    exact Phase.noConfusion (hp.symm.trans hidle)
  | succ fuel ih =>
    cases hu : s.streamTurn runPacket with
    | fault r | refused r =>
      rw [rleLoop, if_neg (not_not.2 hp), hu] at hloop
      cases hloop
    | next u =>
      rw [rleLoop_succ hp hu] at hloop
      by_cases hpu : u.phase = .stream
      · obtain ⟨n, hn⟩ := ih hpu hloop
        exact ⟨n + 1, (run_of_step (step_turn_stream hp hu (0, 0) _) n).trans hn⟩
      · rw [rleLoop_of_phase hpu] at hloop
        obtain rfl := Host.Outcome.next.inj hloop
        exact ⟨1, run_of_step (step_turn_stream hp hu (0, 0) _) 0⟩

theorem step_turn_start {s : State} (hp : s.phase = .start) (p : Nat × Nat) (l : List Event) :
    step (withInputs s (.turn p.1 p.2 :: l)) = .next (withInputs s l).beginCommand := by
  have hp' : (withInputs s l).phase = .start := hp
  rw [step_turn, State.turnStep, hp']

theorem State.beginCommand_rledec {s : State} {d : Depth} (hd : s.op.rleDepth = some d) :
    s.beginCommand = (s.rleStart d).getD (s.beginStream d) := by
  rw [State.beginCommand, hd]
  cases hstart : s.rleStart d <;> simp only [hstart] <;> rfl

/-- Settles O48: the first turn makes the start checks, the turns after it are those of the loop. -/
theorem rledecTurnByTurnAgrees : Obligations.RledecTurnByTurnAgrees := by
  intro s d hp hword
  have hdepth : s.op.rleDepth = some d :=
    Op.rleDepth_eq_some.2 (hword ▸ decodeCommand_commandWord (by cases d <;> exact ⟨_, rfl⟩))
  have hbegin (l : List Event) : step (withInputs s (.turn 0 0 :: l)) =
      .next (((withInputs s l).rleStart d).getD (withInputs (s.beginStream d) l)) :=
    (step_turn_start hp (0, 0) l).trans (congrArg Host.Outcome.next (State.beginCommand_rledec hdepth))
  by_cases hf : rleFits s.params.memSize d s.op = true
  case neg =>
    refine ⟨1, (run_of_step (hbegin []) 0).trans ?_⟩
    have hstart : (withInputs s []).rleStart d =
        some ((withInputs s []).endRleStart (s.op.bufferBytes d) (.error .rangeError 0#32 0#32)) := if_neg hf
    have hexec : exec (.rledec d) (withInputs s []) =
        .next ((withInputs s []).endRleStart (s.op.bufferBytes d) (.error .rangeError 0#32 0#32)) := by
      rw [exec_rledec, State.runRledec, hstart]
    rw [hstart]
    exact hexec.symm
  case pos =>
    have hstart (l : List Event) : (withInputs s l).rleStart d = none := if_pos hf
    obtain ⟨t, hloop, hends⟩ := rleLoop_ends s.rleFuel (State.beginStream_ok hf) rfl
      (by simp [State.turnsLeft, State.rleFuel])
    obtain ⟨n, hn⟩ := run_turns_of_rleLoop _ rfl hloop hends.over.1
    have hexec := (unseen_withInputs []).exec (.rledec d) s
    rw [exec_rledec_of_loop hf hloop hends.over.1] at hexec
    refine ⟨n + 1, (run_of_step (hbegin _) n).trans ?_⟩
    rw [hstart]
    exact hn.trans hexec.symm

/-! ### Rows stay below `MEMSIZE` -/

/-- What an in-place command whose buffer is in range touches lies in its written region, which exists. -/
theorem inPlace_touched {p : Params} {o : Op} {i : Instr} {w : Work} (hw : inPlaceWork p o i = some w)
    (hf : bufferFits p.memSize w.depth o = true) {j : Nat} (hj : j < w.count) {b : ByteOp} (hb : b ∈ w.prog j)
    {x : Nat} (hx : x ∈ b.touched) : o.B ≤ x ∧ x < o.B + writtenBytes o i ∧ x < p.memSize := by
  obtain ⟨size, hlocal, hcount, hwritten, -, hregion⟩ := inPlaceWork_shape hw
  obtain ⟨hlow, hhigh⟩ := (hlocal j b hb x hx).in_region hj
  rw [bufferFits_iff] at hf
  omega

theorem State.laneTurn_next {s : State} {w : Work} (lane pick : Nat)
    (h : ∀ ln, s.lanes[lane]? = some (some ln) →
      ∀ b ∈ w.prog ln.item, ∀ a ∈ b.touched, a < s.params.memSize) :
    ∃ t, s.laneTurn w lane pick = .next t := by
  unfold State.laneTurn
  split
  · exact ⟨_, rfl⟩
  split
  · exact ⟨_, rfl⟩
  · exact ⟨_, rfl⟩
  · next ln hworks =>
    unfold State.moveLane
    split
    · exact ⟨_, rfl⟩
    · next b hnext =>
      have hexist : b.touched.find? (fun a => decide (s.params.memSize ≤ a)) = none := by
        rw [List.find?_eq_none]
        intro a ha
        simpa using h ln hworks b (List.mem_of_getElem? hnext) a ha
      rw [hexist]
      exact ⟨_, rfl⟩

theorem mem_laneItems {lanes : List (Option Lane)} {k : Nat} {ln : Lane} (h : lanes[k]? = some (some ln)) :
    ln.item ∈ laneItems lanes := List.mem_filterMap.2 ⟨some ln, List.mem_of_getElem? h, rfl⟩

theorem State.ItemsInv.laneTurn_next {s : State} (h : s.ItemsInv) (hp : s.phase = .items) (lane pick : Nat) :
    ∃ w t, s.op.work s.params = some w ∧ s.laneTurn w lane pick = .next t := by
  obtain ⟨w, hwork, hfits, -, -, hcount⟩ := h hp
  obtain ⟨i, -, hw⟩ := Op.work_eq_some hwork
  obtain ⟨t, ht⟩ := State.laneTurn_next (w := w) lane pick (fun ln hln b hb a ha =>
    (inPlace_touched hw hfits (hcount _ (List.mem_append_left _ (mem_laneItems hln))) hb ha).2.2)
  exact ⟨w, t, hwork, ht⟩

theorem State.stepItems_of_work {s : State} {w : Work} (h : s.op.work s.params = some w) (lane pick : Nat) :
    s.stepItems lane pick = s.laneTurn w lane pick := by
  rw [State.stepItems, h]

theorem State.stepItems_next {s : State} (h : s.ItemsInv) (hp : s.phase = .items) (lane pick : Nat) :
    ∃ t, s.stepItems lane pick = .next t := by
  obtain ⟨w, t, hwork, ht⟩ := h.laneTurn_next hp lane pick
  exact ⟨t, (State.stepItems_of_work hwork lane pick).trans ht⟩

theorem State.stepStream_next {s : State} (h : s.StreamInv) (hp : s.phase = .stream) :
    ∃ t, s.stepStream = .next t := by
  obtain ⟨d, -, hok⟩ := State.streamInv_iff.1 h hp
  obtain ⟨t, ht, -⟩ := hok.turn
  exact ⟨t, (State.stepStream_eq s).trans ht⟩

theorem State.blockStep_next {s : State} (hs : s.StreamInv) (hi : s.ItemsInv) : ∃ t, s.blockStep = .next t := by
  unfold State.blockStep
  split
  · exact ⟨_, rfl⟩
  · obtain ⟨t, -, ht, -⟩ := s.runCommand_ends
    exact ⟨t, ht⟩
  · next hp => exact State.stepStream_next hs hp
  · next hp => exact State.stepItems_next hi hp _ _

theorem State.turnStep_next {s : State} (hs : s.StreamInv) (hi : s.ItemsInv) (lane pick : Nat) :
    ∃ t, s.turnStep lane pick = .next t := by
  unfold State.turnStep
  split
  · exact ⟨_, rfl⟩
  · exact ⟨_, rfl⟩
  · next hp => exact State.stepStream_next hs hp
  · next hp => exact State.stepItems_next hi hp _ _

/-- Settles O55: a host move that keeps to the map is answered, and so is a move of the block in range. -/
theorem blockNeverFaults : Obligations.BlockNeverFaults := by
  refine ⟨fun s hs hi hmap => ?_, fun p o i w hw hf j hj b hb x hx => inPlace_touched hw hf hj hb hx⟩
  cases hin : s.inputs with
  | nil =>
    rw [step_nil hin]
    exact State.blockStep_next hs hi
  | cons e rest =>
    rw [step_cons hin]
    rw [State.HostKeepsToTheMap, hin] at hmap
    cases e with
    | rd off size | wr off size v =>
      rw [State.event, if_pos hmap]
      exact ⟨_, rfl⟩
    | irq | rst => exact ⟨_, rfl⟩
    | memRd a =>
      rw [State.event, State.hostMemRead, if_neg (Nat.not_le.2 hmap)]
      split <;> exact ⟨_, rfl⟩
    | memWr a v =>
      rw [State.event, State.hostMemWrite, if_neg (Nat.not_le.2 hmap)]
      split <;> exact ⟨_, rfl⟩
    | block => exact State.blockStep_next (s := withInputs s rest) hs hi
    | turn lane pick => exact State.turnStep_next (s := withInputs s rest) hs hi lane pick
    | wait skip =>
      rw [State.event]
      split
      · exact State.blockStep_next (s := withInputs s (.wait skip :: rest)) hs hi
      · exact ⟨_, rfl⟩

/-! ### Rows on any schedule -/

theorem laneTurn_withInputs (s : State) (l : List Event) (w : Work) (lane pick : Nat) :
    (withInputs s l).laneTurn w lane pick = mapNext (fun t => withInputs t l) (s.laneTurn w lane pick) := by
  have hlanes : (withInputs s l).lanes = s.lanes := rfl
  have hjoined : (withInputs s l).joined = s.joined := rfl
  unfold State.laneTurn
  rw [hlanes, hjoined, endCommand_withInputs]
  split
  · rfl
  split
  · rfl
  · simp only [State.takeItem, withInputs]
    cases s.todo[pick]? <;> rfl
  · next ln _ =>
    unfold State.moveLane
    cases (w.prog ln.item)[ln.pos]? with
    | none => rfl
    | some b =>
      have hfind : b.touched.find? (fun a => decide ((withInputs s l).params.memSize ≤ a)) =
          b.touched.find? (fun a => decide (s.params.memSize ≤ a)) := rfl
      simp only [hfind]
      cases b.touched.find? (fun a => decide (s.params.memSize ≤ a)) <;> rfl

theorem beginWork_withInputs (s : State) (l : List Event) (w : Work) :
    (withInputs s l).beginWork w = withInputs (s.beginWork w) l := by
  have hfits : bufferFits (withInputs s l).params.memSize w.depth (withInputs s l).op =
      bufferFits s.params.memSize w.depth s.op := rfl
  rw [State.beginWork, State.beginWork, hfits, endCommand_withInputs]
  split <;> rfl

/-- At the join memory is what the items leave in index order. -/
theorem Progress.mem_of_joined {m0 : Memory} {w : Work} {base size : Nat} {u : State} (hlocal : w.Local base size)
    (h : Progress m0 w base size u) (hj : u.joined = true) : u.mem = runItems w.prog (List.range w.count) m0 := by
  simp only [State.joined, Bool.and_eq_true, List.isEmpty_iff, List.all_eq_true] at hj
  obtain ⟨htodo, hlanes⟩ := hj
  refine Memory.ext_of_wf h.wf (runItems_wf _ _ _ h.wf0) (fun x => ?_)
  by_cases hx : ∃ i, i < w.count ∧ InBlock base size i x
  · obtain ⟨i, hi, hblock⟩ := hx
    rw [runItems_read hlocal _ List.nodup_range m0 i x hblock, if_pos (List.mem_range.2 hi)]
    refine h.done i hi (by simp [htodo]) (fun k a ha => ?_) x hblock
    exact absurd (hlanes _ (List.mem_of_getElem? ha)) (by simp)
  · rw [runItems_outside hlocal _ m0 x (fun i hi hblock => hx ⟨i, List.mem_range.1 hi, hblock⟩)]
    exact h.outside x (fun i hi hblock => hx ⟨i, hi, hblock⟩)

/-- `u` is command `s` in the middle of its rows, on any schedule. -/
structure State.AtWork (s : State) (w : Work) (size : Nat) (u : State) : Prop where
  shape : u = { s with phase := .items, mem := u.mem, todo := u.todo, lanes := u.lanes }
  progress : Progress s.mem w s.op.B size u

/-- A turn of any lane goes on with the rows, or ends the command as its one completion event does. -/
theorem State.AtWork.laneTurn {s u : State} {i : Instr} {w : Work} {size : Nat} (h : State.AtWork s w size u)
    (hw : inPlaceWork s.params s.op i = some w) (hf : bufferFits s.params.memSize w.depth s.op = true)
    (hlocal : w.Local s.op.B size) (lane pick : Nat) :
    ∃ v, u.laneTurn w lane pick = .next v ∧ (v = s.runWork w ∨ State.AtWork s w size v) := by
  obtain ⟨hshape, hprogress⟩ := h
  have hparams : u.params = s.params := by rw [hshape]
  obtain ⟨v, hv⟩ := State.laneTurn_next (s := u) (w := w) lane pick (fun ln hln b hb a ha => by
    rw [hparams]
    exact (inPlace_touched hw hf (hprogress.llt lane ln hln) hb ha).2.2)
  refine ⟨v, hv, ?_⟩
  cases State.laneTurn_cases hv with
  | joins joined result =>
    refine .inl ?_
    rw [result, State.runWork, if_pos hf, ← hprogress.mem_of_joined hlocal joined, hshape]
    simp only [State.endCommand]
    split <;> rfl
  | stays _ _ same => exact .inr (same ▸ ⟨hshape, hprogress⟩)
  | takes item isFree waits result =>
    refine .inr ⟨?_, result ▸ hprogress.takeItem lane pick isFree⟩
    rw [result, State.takeItem_of_waits waits, hshape]
  | frees ln works itemEnd result =>
    refine .inr ⟨?_, result ▸ hprogress.free lane ln works itemEnd⟩
    rw [result, hshape]
  | operates ln b works next _ result =>
    refine .inr ⟨?_, result ▸ hprogress.move hlocal lane ln works b next⟩
    rw [result, hshape]

/-- The start check begins the rows, or ends the command as its one completion event does. -/
theorem State.beginWork_cases (s : State) (w : Work) (size : Nat) (hwf : Memory.wf s.mem = true) :
    s.beginWork w = s.runWork w ∨
      (bufferFits s.params.memSize w.depth s.op = true ∧ State.AtWork s w size (s.beginWork w)) := by
  by_cases hf : bufferFits s.params.memSize w.depth s.op = true
  · rw [State.beginWork, if_pos hf]
    exact .inr ⟨hf, rfl, Progress.begin { s with
      phase := .items, todo := List.range w.count, lanes := List.replicate s.params.lanes none } hwf _ rfl rfl⟩
  · exact .inl (by rw [State.beginWork, State.runWork, if_neg hf, if_neg hf])

/-- Along any schedule a command that is over stays so, and one at work stays at work or ends as its one event does. -/
theorem run_turns_of_work {s : State} {i : Instr} {w : Work} {size : Nat} (hw : inPlaceWork s.params s.op i = some w)
    (hwork : s.op.work s.params = some w) (hlocal : w.Local s.op.B size) (schedule : List (Nat × Nat)) {u : State}
    (hu : u = s.runWork w ∨ (bufferFits s.params.memSize w.depth s.op = true ∧ State.AtWork s w size u)) :
    ∃ t, Sys2Proof.core.run schedule.length (withInputs u (turnMoves schedule)) = .next t ∧
      (t.phase = .idle → t = withInputs (s.runWork w) []) := by
  induction schedule generalizing u with
  | nil =>
    refine ⟨_, rfl, fun hidle => ?_⟩
    rcases hu with rfl | ⟨-, hat, -⟩
    · rfl
    · rw [hat] at hidle
      exact Phase.noConfusion hidle
  | cons turn schedule ih =>
    have hnext : ∃ v,
        step (withInputs u (turnMoves (turn :: schedule))) = .next (withInputs v (turnMoves schedule)) ∧
        (v = s.runWork w ∨ (bufferFits s.params.memSize w.depth s.op = true ∧ State.AtWork s w size v)) := by
      rcases hu with rfl | ⟨hf, hat⟩
      · have hidle : (withInputs (s.runWork w) (turnMoves schedule)).phase = .idle := (State.runWork_endsAs hw).over.1
        refine ⟨s.runWork w, ?_, .inl rfl⟩
        exact (step_turn _ (turnMoves schedule) turn).trans (by rw [State.turnStep, hidle])
      · obtain ⟨v, hv, hcase⟩ := hat.laneTurn hw hf hlocal turn.1 turn.2
        have hitems : (withInputs u (turnMoves schedule)).phase = .items := by rw [hat.shape]; rfl
        have huwork : u.op.work u.params = some w := by
          rw [hat.shape]
          exact hwork
        refine ⟨v, (step_turn u (turnMoves schedule) turn).trans ?_, hcase.imp_right (fun h => ⟨hf, h⟩)⟩
        rw [State.turnStep, hitems]
        exact (State.stepItems_of_work (s := withInputs u (turnMoves schedule)) huwork _ _).trans
          (by rw [laneTurn_withInputs, hv]; rfl)
    obtain ⟨v, hstep, hv⟩ := hnext
    obtain ⟨t, ht, hover⟩ := ih hv
    exact ⟨t, (run_of_step hstep _).trans ht, hover⟩

theorem State.beginCommand_work {s : State} {w : Work} (h : s.op.work s.params = some w) :
    s.beginCommand = s.beginWork w := by
  rw [State.beginCommand, Op.rleDepth_of_work h, h]

theorem isCommand_of_inPlaceWork {p : Params} {o : Op} {i : Instr} {w : Work} (h : inPlaceWork p o i = some w) :
    IsCommand i := by
  cases i with
  | nop | lit c | rpt c => simp [inPlaceWork] at h
  | _ => exact ⟨_, rfl⟩

/-- Settles O49: the first turn makes the start check; from then on a block of the buffer depends on its own item alone,
and on a canonical memory equal bytes are equal memory. -/
theorem everyScheduleAgrees : Obligations.EveryScheduleAgrees := by
  intro s i w schedule hw hp hword hwf
  have hwork : s.op.work s.params = some w :=
    (Op.work_of_decode (hword ▸ decodeCommand_commandWord (isCommand_of_inPlaceWork hw))).trans hw
  have hexec : exec i (withInputs s []) = .next (withInputs (s.runWork w) []) := by
    rw [exec_inPlace (s := withInputs s []) hw, (unseen_withInputs []).runWork]
  obtain ⟨size, hlocal, -⟩ := inPlaceWork_shape hw
  cases schedule with
  | nil => exact ⟨_, rfl, fun hidle => Phase.noConfusion (hp.symm.trans hidle)⟩
  | cons turn schedule =>
    obtain ⟨t, ht, hover⟩ := run_turns_of_work hw hwork hlocal schedule (State.beginWork_cases s w size hwf)
    have hbegin : step (withInputs s (turnMoves (turn :: schedule))) =
        .next (withInputs (s.beginWork w) (turnMoves schedule)) := by
      refine (step_turn_start hp turn (turnMoves schedule)).trans ?_
      rw [State.beginCommand_work (s := withInputs s (turnMoves schedule)) hwork, beginWork_withInputs]
    exact ⟨t, (run_of_step hbegin _).trans ht, fun hidle => by rw [hover hidle]; exact hexec⟩

/-! ### Rows left alone come to their join -/

/-- Turns an item that waits still needs: to be taken, its byte operations, and its end. -/
def itemTurns (w : Work) (i : Nat) : Nat := (w.prog i).length + 2

/-- Turns the item in a lane still needs. -/
def laneTurns (w : Work) : Option Lane → Nat
  | none => 0
  | some ln => (w.prog ln.item).length - ln.pos + 1

/-- Turns the rows still need before the join. -/
def State.workLeft (s : State) (w : Work) : Nat :=
  (s.todo.map (itemTurns w)).sum + (s.lanes.map (laneTurns w)).sum

theorem laneTurns_set {w : Work} {lanes : List (Option Lane)} {k : Nat} {l : Option Lane} (h : lanes[k]? = some l)
    (v : Option Lane) :
    ((lanes.set k v).map (laneTurns w)).sum + laneTurns w l = (lanes.map (laneTurns w)).sum + laneTurns w v := by
  have hnew := ((lanes_set_perm h v).map (laneTurns w)).sum_eq
  have hold := ((lanes_perm h).map (laneTurns w)).sum_eq
  simp only [List.map_cons, List.sum_cons] at hnew hold
  omega

theorem itemTurns_erase {w : Work} {todo : List Nat} {pick item : Nat} (h : todo[pick]? = some item) :
    (todo.map (itemTurns w)).sum = itemTurns w item + ((todo.eraseIdx pick).map (itemTurns w)).sum := by
  have hsum := ((todo_perm h).map (itemTurns w)).sum_eq
  rwa [List.map_cons, List.sum_cons] at hsum

/-- A lane that moves brings the rows nearer to their join. -/
theorem State.LaneMove.workLeft_lt {s t : State} {w : Work} {lane pick : Nat} (h : State.LaneMove s t w lane pick)
    (hmoves : ¬ (s.lanes[lane]? = none ∨ s.lanes[lane]? = some none ∧ s.todo[pick]? = none)) :
    t = s.endCommand w.written .ok ∨ t.workLeft w < s.workLeft w := by
  cases h with
  | joins _ result => exact .inl result
  | stays _ nothing _ => exact absurd nothing hmoves
  | takes item isFree waits result =>
    rw [result, State.takeItem_of_waits waits]
    have hlane := laneTurns_set (w := w) isFree (some ⟨item, 0, []⟩)
    have htodo := itemTurns_erase (w := w) waits
    simp only [laneTurns, itemTurns] at hlane htodo
    simp only [State.workLeft]
    exact .inr (by omega)
  | frees ln works _ result =>
    have hlane := laneTurns_set (w := w) works none
    simp only [laneTurns] at hlane
    rw [result]
    simp only [State.workLeft]
    exact .inr (by omega)
  | operates ln b works next _ result =>
    have hlane := laneTurns_set (w := w) works (some ⟨ln.item, ln.pos + 1, (b.run (s.mem, ln.stage)).2⟩)
    obtain ⟨hpos, -⟩ := List.getElem?_eq_some_iff.1 next
    simp only [laneTurns] at hlane
    rw [result]
    simp only [State.workLeft]
    exact .inr (by omega)

/-- The lane a silent host leaves to move has something to do before the join. -/
theorem State.nextLane_moves {s : State} (hj : s.joined = false) (hlanes : 1 ≤ s.lanes.length) :
    ¬ (s.lanes[s.nextLane]? = none ∨ s.lanes[s.nextLane]? = some none ∧ s.todo[0]? = none) := by
  unfold State.nextLane
  split
  · next hfree =>
    have htodo : s.todo[0]? ≠ none := by
      simp only [State.joined, hfree, Bool.and_true] at hj
      cases htodo : s.todo with
      | nil => simp [htodo] at hj
      | cons i todo => simp
    rw [List.getElem?_eq_none_iff]
    rintro (h | ⟨-, h⟩)
    · omega
    · exact htodo h
  · next hbusy =>
    have hexists : ∃ l ∈ s.lanes, l.isSome = true := by simpa [Option.isSome_iff_ne_none] using hbusy
    obtain ⟨hlt, hsome⟩ : ∃ hlt : s.lanes.findIdx (fun l => l.isSome) < s.lanes.length,
        (s.lanes[s.lanes.findIdx (fun l => l.isSome)]).isSome = true :=
      ⟨List.findIdx_lt_length.2 hexists, List.findIdx_getElem⟩
    rw [List.getElem?_eq_getElem hlt]
    rintro (h | ⟨h, -⟩)
    · cases h
    · rw [Option.some.inj h] at hsome
      exact Bool.noConfusion hsome

theorem State.blockStep_items {s : State} (hp : s.phase = .items) : s.blockStep = s.stepItems s.nextLane 0 := by
  rw [State.blockStep, hp]

theorem State.laneTurn_of_joined {s : State} (w : Work) (lane pick : Nat) (hj : s.joined = true) :
    s.laneTurn w lane pick = .next (s.endCommand w.written .ok) := by
  rw [State.laneTurn, if_pos hj]

/-- Rows left alone end within the turns they still need, and one more. -/
theorem State.ends_of_workLeft (m : Nat) {s : State} {w : Work} (hs : s.ItemsInv) (hp : s.phase = .items)
    (hin : s.inputs = []) (hlanes : 1 ≤ s.params.lanes) (hwork : s.op.work s.params = some w)
    (hm : s.workLeft w < m) : ∃ n t, Sys2Proof.core.run n s = .next t ∧ t.phase = .idle ∧ t.done = true := by
  induction m generalizing s with
  | zero => omega
  | succ m ih =>
    have hstep : step s = s.laneTurn w s.nextLane 0 := by
      rw [step_nil hin, State.blockStep_items hp, State.stepItems_of_work hwork]
    have hover : step s = .next (s.endCommand w.written .ok) →
        ∃ n t, Sys2Proof.core.run n s = .next t ∧ t.phase = .idle ∧ t.done = true := fun h =>
      ⟨1, _, run_of_step h 0, State.endCommand_phase _ _ _, State.endCommand_done _ _ _⟩
    cases hj : s.joined with
    | true =>
      rw [State.laneTurn_of_joined _ _ _ hj] at hstep
      exact hover hstep
    | false =>
      obtain ⟨w', t, hwork', ht⟩ := hs.laneTurn_next hp s.nextLane 0
      obtain rfl := Option.some.inj (hwork.symm.trans hwork')
      have hmove := State.laneTurn_cases ht
      obtain ⟨-, -, -, hlength, -⟩ := hs hp
      rw [ht] at hstep
      rcases hmove.itemsGoOn with hends | hgoes
      · exact hover (hends ▸ hstep)
      rcases hmove.workLeft_lt (State.nextLane_moves hj (by omega)) with hends | hless
      · exact hover (hends ▸ hstep)
      · have hinv := hgoes.itemsInv hs
        have hshape := hgoes.shape
        obtain ⟨n, u, hrun, hover⟩ := ih hinv (by rw [hshape]; exact hp) (by rw [hshape]; exact hin)
          (by rw [hshape]; exact hlanes) (by rw [hshape]; exact hwork) (by omega)
        exact ⟨n + 1, u, (run_of_step hstep n).trans hrun, hover⟩

/-- Settles O59: while the host is silent, every turn before the join moves a lane. -/
theorem rowsEndWhenTheHostIsSilent : Obligations.RowsEndWhenTheHostIsSilent := by
  intro s hs hp hin hlanes
  obtain ⟨w, hwork, -⟩ := hs hp
  exact State.ends_of_workLeft _ hs hp hin hlanes hwork (Nat.lt_succ_self _)

end Sys2Proof.Machine

/-! Command lines, `WAIT` and the pseudo-instructions as moves of the host (30_encoding.md R91 to R94). -/

namespace Sys2Proof.Machine

/-! ### Runs of register writes -/

theorem State.writeReg_withInputs (s : State) (l : List Event) (r : Reg) (v : Word) :
    (withInputs s l).writeReg r v = withInputs (s.writeReg r v) l := by
  cases r with
  | cmd =>
    have hbusy : (withInputs s l).busy = s.busy := rfl
    have herrv : (withInputs s l).errv = s.errv := rfl
    simp only [State.writeReg, State.writeCmd, hbusy, herrv]
    split <;> rfl
  | _ => rfl

theorem regAt_regOffset (r : Reg) : regAt (regOffset r) = r := by cases r <;> rfl

theorem regOffset_aligned (r : Reg) : regOffset r % 4 = 0 := by cases r <;> rfl

theorem step_wrReg (s : State) (r : Reg) (v : Word) (l : List Event) :
    step (withInputs s (wrReg r v :: l)) = .next (withInputs (s.writeReg r v) l) := by
  have hstep := step_of_wr (s := withInputs s (wrReg r v :: l)) rfl (regOffset_aligned r)
  rw [hstep, regAt_regOffset]
  exact congrArg Host.Outcome.next (State.writeReg_withInputs s l r v)

/-- Register writes as host moves. -/
def writeMoves (ws : List (Reg × Word)) : List Event := ws.map (fun w => wrReg w.1 w.2)

/-- Register writes one after the other. -/
def State.writeAll (s : State) (ws : List (Reg × Word)) : State := ws.foldl (fun u w => u.writeReg w.1 w.2) s

theorem run_writes (ws : List (Reg × Word)) (s : State) (l : List Event) :
    Sys2Proof.core.run ws.length (withInputs s (writeMoves ws ++ l)) = .next (withInputs (s.writeAll ws) l) := by
  induction ws generalizing s with
  | nil => rfl
  | cons w ws ih => exact (run_of_step (step_wrReg s w.1 w.2 (writeMoves ws ++ l)) _).trans (ih _)

/-! ### A command line -/

/-- The writes of the three operands every command has. -/
def bufferWrites (c : CommandLine) : List (Reg × Word) := [(.base, c.base), (.width, c.width), (.height, c.height)]

/-- The writes of the two operands only `RLEDEC` has. -/
def sourceWrites (c : CommandLine) : List (Reg × Word) := [(.src, c.src), (.srclen, c.srclen)]

theorem operandMoves_rledec (c : CommandLine) (d : Depth) :
    operandMoves c (.rledec d) = writeMoves (bufferWrites c ++ sourceWrites c) := by cases d <;> rfl

theorem operandMoves_other (c : CommandLine) {i : Instr} (hi : ∀ d, i ≠ .rledec d) :
    operandMoves c i = writeMoves (bufferWrites c) := by
  cases i with
  | rledec1 => exact absurd rfl (hi .d1)
  | rledec8 => exact absurd rfl (hi .d8)
  | rledec16 => exact absurd rfl (hi .d16)
  | rledec32 => exact absurd rfl (hi .d32)
  | _ => rfl

/-- Operand writes and the write of `CMD` after them start the command on an idle block without an error. -/
theorem run_commandLine {s : State} {c : CommandLine} {i : Instr} {is : List Instr} {rest : List Event}
    {ws : List (Reg × Word)} (hin : s.inputs = commandMoves c (i :: is) ++ rest)
    (hws : operandMoves c i = writeMoves ws) (hidle : (s.writeAll ws).phase = .idle)
    (herrv : (s.writeAll ws).errv = false) :
    Sys2Proof.core.run (ws.length + 1) s = .next (withInputs ((s.writeAll ws).accept (commandWord i))
      (.wait (commandMoves c is).length :: (commandMoves c is ++ rest))) := by
  have hmoves : s = withInputs s (writeMoves (ws ++ [(.cmd, commandWord i)]) ++
      (.wait (commandMoves c is).length :: (commandMoves c is ++ rest))) := by
    refine (withInputs_self ?_).symm
    rw [hin, commandMoves, hws]
    simp [writeMoves]
  have hrun := run_writes (ws ++ [(.cmd, commandWord i)]) s
    (.wait (commandMoves c is).length :: (commandMoves c is ++ rest))
  rw [← hmoves, List.length_append, State.writeAll, List.foldl_append] at hrun
  rw [← State.writeCmd_of_idle (commandWord i) hidle herrv]
  exact hrun

/-! ### `WAIT` -/

theorem step_wait_start {s : State} {skip : Nat} {rest : List Event} {i : Instr} (hin : s.inputs = .wait skip :: rest)
    (hp : s.phase = .start) (hdec : decodeCommand s.op.word = .ok i) : step s = exec i s := by
  have hbusy : (withInputs s rest).busy = true := State.busy_eq_true_iff.2 (by simp [withInputs, hp])
  rw [step_cons hin, State.event]
  refine (if_pos hbusy).trans ?_
  rw [← State.runCommand_of_decode hdec, ← State.blockStep_start hp]
  exact congrArg State.blockStep (withInputs_self hin)

theorem State.waited_of_idle {s : State} (skip : Nat) (hp : s.phase = .idle) :
    s.waited skip = { s with
      inputs := if s.errv then s.inputs.drop skip else s.inputs, reply := .word s.statusWord, owned := [] } := by
  simp only [State.waited, State.hostRead_eq, hp, and_self, if_true]
  split <;> rfl

theorem step_wait_idle {s : State} {skip : Nat} {rest : List Event} (hin : s.inputs = .wait skip :: rest)
    (hp : s.phase = .idle) : step s = .next { s with
      inputs := if s.errv then rest.drop skip else rest, reply := .word s.statusWord, owned := [] } := by
  have hfree : ¬ (withInputs s rest).busy = true := fun hb => State.busy_eq_true_iff.1 hb hp
  rw [step_cons hin, State.event]
  exact (if_neg hfree).trans (congrArg Host.Outcome.next (State.waited_of_idle (s := withInputs s rest) skip hp))

/-- Settles O60: a command line is register writes that end in an accepted one, `WAIT` is the block's move or the
`STATUS` read, and the expansions are evaluated. -/
theorem commandLineStartsItsCommand : Obligations.CommandLineStartsItsCommand := by
  refine ⟨fun s c i is rest _ hidle herrv hin => ⟨?_, fun hi => ?_⟩, fun s skip rest hin => ⟨fun i => ?_, ?_⟩,
    fun _ _ => rfl, by decide⟩
  · rintro ⟨d, rfl⟩
    exact ⟨_, run_commandLine hin (operandMoves_rledec c d) hidle herrv, rfl, rfl, rfl, rfl⟩
  · exact ⟨_, run_commandLine hin (operandMoves_other c hi) hidle herrv, rfl, rfl, rfl, rfl⟩
  · exact step_wait_start hin
  · exact step_wait_idle hin

end Sys2Proof.Machine
